-- ==== Sys2Proof/Word.lean ====
section
/-!
DEFINITION. The word types, the operand enumerations and the plainest helpers on bits.
-/

namespace Sys2Proof

/-- One slot, one datum (00_scope.md R7: the data width is 8 bits). -/
abbrev Byte := BitVec 8

/-- A command word or a response word (00_scope.md R7: 16 bits, R9: bit 0 least significant). -/
abbrev Word := BitVec 16

/-- A cursor, its gray code, or a synchroniser stage: a k_f-bit register with k_f at most 8
(10_state.md R19 to R22), held in 8 bits whose bits at and above k_f are 0 (log 8). -/
abbrev Cursor := BitVec 8

/-- The two FIFO instances (00_scope.md R1). Field `f`: 0 is TX, 1 is RX (30_encoding.md R80). -/
inductive FifoId where
  | tx
  | rx
  deriving DecidableEq, Repr, Inhabited

/-- The side of a view. Field `s`: 0 is the write side `.W`, 1 the read side `.R`
(30_encoding.md R81). -/
inductive Side where
  | w
  | r
  deriving DecidableEq, Repr, Inhabited

/-- The two readiness events. Field `e`: 0 is transmit-ready, 1 is receive-ready
(30_encoding.md R82). -/
inductive Event where
  | tx
  | rx
  deriving DecidableEq, Repr, Inhabited

/-- The issuer classes (30_encoding.md R86): the foreground port, a micro-operation inside an
invocation, the interrupt logic. -/
inductive Issuer where
  | fg
  | disp
  | irq
  deriving DecidableEq, Repr, Inhabited

/-- Field `f` as a bit (30_encoding.md R80). -/
def FifoId.bit : FifoId → Bool
  | .tx => false
  | .rx => true

/-- Field `s` as a bit (30_encoding.md R81). -/
def Side.bit : Side → Bool
  | .w => false
  | .r => true

/-- Field `e` as a bit (30_encoding.md R82). -/
def Event.bit : Event → Bool
  | .tx => false
  | .rx => true

end Sys2Proof
end

