-- ==== Sys2Proof/Syntax.lean ====
section
/-!
DEFINITION. The commands of the block: one constructor per row of spec/opcode_table.json.
-/

namespace Sys2Proof

/-- One command of the command interface (00_scope.md R3, 30_encoding.md R78). Every operand a
command word can carry is an operand here, and no other (30_encoding.md R80 to R83). -/
inductive Instr where
  /-- `PUT f, d` (40_fifo_core.md R96). -/
  | put (f : FifoId) (d : Byte)
  /-- `GET f` (40_fifo_core.md R97). -/
  | get (f : FifoId)
  /-- `EMPTY f.s` (40_fifo_core.md R98). -/
  | empty (f : FifoId) (v : Side)
  /-- `FULL f.s` (40_fifo_core.md R99). -/
  | full (f : FifoId) (v : Side)
  /-- `DSIZE f.s` (40_fifo_core.md R100). -/
  | dsize (f : FifoId) (v : Side)
  /-- `OUTB` (41_transport.md R103). -/
  | outb
  /-- `INB` (41_transport.md R104). -/
  | inb
  /-- `ENI e` (42_interrupt_mask.md R108). -/
  | eni (e : Event)
  /-- `DISI e` (42_interrupt_mask.md R109). -/
  | disi (e : Event)
  /-- `TRIG` (42_interrupt_mask.md R110). -/
  | trig
  /-- `STAT` (42_interrupt_mask.md R111). -/
  | stat
  /-- `HWWR d` (41_transport.md R105). -/
  | hwwr (d : Byte)
  /-- `HWRD` (41_transport.md R106). -/
  | hwrd
  /-- `INVOKE` (42_interrupt_mask.md R112). -/
  | invoke
  deriving DecidableEq, Repr, Inhabited

end Sys2Proof
end

