-- ==== Sys2Proof/Assembly.lean ====
section
/-!
DEFINITION. The assembler's terms (30_encoding.md R91, R93): a command or the pseudo-instruction
`ENQUEUE`, with its data operands still numbers, as the text form writes them. The checks are in
WellFormed.lean; reading, writing and translating them is in Machine/Assembler.lean.
-/

namespace Sys2Proof

/-- A line of assembler text. A data operand is a number the text may write out of range
(30_encoding.md R91: "a value outside 0 to 255 is a syntax error"), and `ENQUEUE` may be written
with either FIFO (30_encoding.md R93: "the FIFO operand must be `TX`"). -/
inductive Asm where
  /-- `PUT f, d` -/
  | put (f : FifoId) (d : Nat)
  /-- `HWWR d` -/
  | hwwr (d : Nat)
  /-- a command without a data operand -/
  | plain (i : Instr)
  /-- `ENQUEUE f, b0, ..., b(n-1)` -/
  | enqueue (f : FifoId) (bs : List Nat)
  deriving DecidableEq, Repr, Inhabited

end Sys2Proof
end

