-- ==== Sys2Proof/Config.lean ====
section
/-!
DEFINITION. The parameters of the block (00_scope.md R7), the clock-domain record (10_state.md R23),
the agents' steps (70_reset_and_hazards.md R161) and the free values.
-/

namespace Sys2Proof.Config

/-- The parameters of 00_scope.md R7 a configuration may set. They are fixed at construction (R8):
State carries them and no step changes them (log 4). -/
structure Params where
  /-- `TX_LOG2`, k_TX -/
  txLog2 : Nat
  /-- `RX_LOG2`, k_RX -/
  rxLog2 : Nat
  /-- `ECHO`: whether `INB` also pushes the received byte into TX -/
  echo : Bool
  deriving DecidableEq, Repr, Inhabited

/-- The values for this hardware (00_scope.md R7): N_TX = N_RX = 256, echo on. -/
def Params.hardware : Params := { txLog2 := 8, rxLog2 := 8, echo := true }

/-- k_f (00_scope.md R7). -/
def Params.log2 (p : Params) : FifoId → Nat
  | .tx => p.txLog2
  | .rx => p.rxLog2

/-- N_f = 2^k_f (00_scope.md R8). -/
def Params.capacity (p : Params) (f : FifoId) : Nat := 2 ^ p.log2 f

/-- The usable capacity N_f - 1: one slot is always reserved (00_scope.md R8). -/
def Params.usable (p : Params) (f : FifoId) : Nat := p.capacity f - 1

/-- `SYNC_STAGES`, fixed at 2 (00_scope.md R7): the stages are the registers `rq1`, `rq2` and
`wq1`, `wq2` of each FIFO. -/
def syncStages : Nat := 2

/-- `PORT_PLACEMENT` (20_memory.md R36): where the platform puts the command port and the device
registers on a system bus. Left open by the spec and read by no rule, so nothing in the model reads
it and nothing can be proved about it (log 18). -/
opaque portPlacement : Nat

/-- The two clock domains (10_state.md R23): foreground, and interrupt and device. -/
inductive Domain where
  | P
  | I
  deriving DecidableEq, Repr, Inhabited

/-- What the table of 10_state.md R23 gives a clock domain: a side of a FIFO, `IER`, `DIAG`, the device
port. -/
inductive Part where
  | side (f : FifoId) (v : Side)
  | ier
  | diag
  | devicePort
  deriving DecidableEq, Repr, Inhabited

/-- The clock domain of each part, row by row (10_state.md R23). A structural record only: no rule
reads it, and neither does any definition of the machine. -/
def Params.domain (p : Params) : Part → Domain
  | .side .tx .w => if p.echo then .I else .P
  | .side .tx .r => .I
  | .side .rx .w => .I
  | .side .rx .r => .P
  | .ier => .I
  | .diag => .I
  | .devicePort => .I

/-- The steps of the agents (70_reset_and_hazards.md R161). `DISP` has none of its own
(00_scope.md R6). -/
inductive AgentStep where
  /-- `FG`: the host's next command (10_state.md R15). -/
  | fg
  /-- `IRQ`: `INVOKE` (60_exceptions.md R126). -/
  | irq
  /-- `DEV_TX`: `DEV_TX_DONE` (60_exceptions.md R136). -/
  | devTxDone
  /-- `DEV_RX`: `DEV_RX_ARRIVE(b)`, `b` any byte (60_exceptions.md R137). -/
  | devRxArrive (b : Byte)
  /-- `SYNC`: `SYNC_W2R(f)` (20_memory.md R52). -/
  | syncW2R (f : FifoId)
  /-- `SYNC`: `SYNC_R2W(f)` (20_memory.md R53). -/
  | syncR2W (f : FifoId)
  deriving DecidableEq, Repr, Inhabited

/-- FREE VALUE. Which agent moves next, and with which received byte, once the agenda of State is
used up: the `n`-th free choice. The spec leaves it open (70_reset_and_hazards.md R161, 20_memory.md
R62, 93_implementation_defined.md "which enabled agent moves next"), so it has no body (log 2). -/
opaque freeStep : Nat → AgentStep

end Sys2Proof.Config
end

