-- ==== Sys2Proof/WellFormed.lean ====
section
/-!
DEFINITION. The checks on what a configuration or an assembler line may be. An `Instr` needs none:
its operand types hold exactly the values its fields admit (30_encoding.md R80 to R83). Which issuer
may issue which command is Machine/Legality.lean.
-/

namespace Sys2Proof

/-- A log2 capacity in 1 to 8 (00_scope.md R7). -/
def admittedLog2 (k : Nat) : Bool := decide (1 ≤ k) && decide (k ≤ 8)

/-- The configurations the block admits: both capacities are 2^k with k in 1 to 8 (00_scope.md R7,
R8, 70_reset_and_hazards.md R159). -/
def Config.Params.admitted (p : Config.Params) : Bool := admittedLog2 p.txLog2 && admittedLog2 p.rxLog2

/-- A data operand in 0 to 255 (30_encoding.md R91). -/
def dataOperandOk (d : Nat) : Bool := decide (d ≤ 255)

/-- A command that is written without a data operand. `PUT` and `HWWR` have one, so they are not
`plain` lines. -/
def Instr.hasNoData : Instr → Bool
  | .put _ _ => false
  | .hwwr _ => false
  | .get _ => true
  | .empty _ _ => true
  | .full _ _ => true
  | .dsize _ _ => true
  | .outb => true
  | .inb => true
  | .eni _ => true
  | .disi _ => true
  | .trig => true
  | .stat => true
  | .hwrd => true
  | .invoke => true

/-- The assembler lines the syntax rules whenAdmitted (30_encoding.md R91, R93). -/
def Asm.wellFormed : Asm → Bool
  | .put _ d => dataOperandOk d
  | .hwwr d => dataOperandOk d
  | .plain i => i.hasNoData
  | .enqueue f bs => decide (f = .tx) && bs.all dataOperandOk

end Sys2Proof
end

