-- ==== Sys2Proof/Decode.lean ====
section
/-!
DEFINITION. The decoder of command words, and after it the encoder, both written from the table of
30_encoding.md R79.
-/

namespace Sys2Proof

/-- Field `f`, bit 8 (30_encoding.md R76, R80). -/
def fieldF (w : Word) : FifoId := if w.getLsbD 8 then .rx else .tx

/-- Field `e`, bit 9 (30_encoding.md R76, R82). -/
def fieldE (w : Word) : Event := if w.getLsbD 9 then .rx else .tx

/-- Field `s`, bit 10 (30_encoding.md R76, R81). -/
def fieldS (w : Word) : Side := if w.getLsbD 10 then .r else .w

/-- Field `d`, bits 7:0, taken as is (30_encoding.md R76, R83). -/
def fieldD (w : Word) : Byte := w.extractLsb' 0 8

/-- Field `op`, bits 15:12 (30_encoding.md R76). -/
def fieldOp (w : Word) : BitVec 4 := w.extractLsb' 12 4

/-- One row of the table of 30_encoding.md R79. -/
structure Row where
  mnemonic : String
  pattern : Word
  mask : Word
  deriving DecidableEq, Repr

/-- "A word `w` selects a mnemonic when `w & mask == match`" (30_encoding.md R79). -/
def Row.selects (r : Row) (w : Word) : Bool := w &&& r.mask == r.pattern

/-- The table of 30_encoding.md R79, match and mask of each row. -/
def rows : List Row :=
  [ ⟨"PUT", 0x1000, 0xFE00⟩, ⟨"GET", 0x2000, 0xFEFF⟩, ⟨"EMPTY", 0x3000, 0xFAFF⟩,
    ⟨"FULL", 0x4000, 0xFAFF⟩, ⟨"DSIZE", 0x5000, 0xFAFF⟩, ⟨"OUTB", 0x6000, 0xFFFF⟩,
    ⟨"INB", 0x7000, 0xFFFF⟩, ⟨"ENI", 0x8000, 0xFDFF⟩, ⟨"DISI", 0x9000, 0xFDFF⟩,
    ⟨"TRIG", 0xA000, 0xFFFF⟩, ⟨"STAT", 0xB000, 0xFFFF⟩, ⟨"HWWR", 0xC000, 0xFF00⟩,
    ⟨"HWRD", 0xD000, 0xFFFF⟩, ⟨"INVOKE", 0xE000, 0xFFFF⟩ ]

/-- The command a word stands for, or none when the word is `Illegal` from every issuer: its opcode
is reserved (30_encoding.md R87) or a must-be-zero bit is 1 (R88). Total on all 65536 words (R90),
and no state is read (R75). -/
def decode (w : Word) : Option Instr :=
  if w &&& 0xFE00 = 0x1000 then some (.put (fieldF w) (fieldD w))
  else if w &&& 0xFEFF = 0x2000 then some (.get (fieldF w))
  else if w &&& 0xFAFF = 0x3000 then some (.empty (fieldF w) (fieldS w))
  else if w &&& 0xFAFF = 0x4000 then some (.full (fieldF w) (fieldS w))
  else if w &&& 0xFAFF = 0x5000 then some (.dsize (fieldF w) (fieldS w))
  else if w = 0x6000 then some .outb
  else if w = 0x7000 then some .inb
  else if w &&& 0xFDFF = 0x8000 then some (.eni (fieldE w))
  else if w &&& 0xFDFF = 0x9000 then some (.disi (fieldE w))
  else if w = 0xA000 then some .trig
  else if w = 0xB000 then some .stat
  else if w &&& 0xFF00 = 0xC000 then some (.hwwr (fieldD w))
  else if w = 0xD000 then some .hwrd
  else if w = 0xE000 then some .invoke
  else none

/-- The instruction read from an instruction whose bits are `w`, `nbits` of them: one 16-bit word,
moved whole (30_encoding.md R74, 20_memory.md R38). -/
def decodeTableWord (nbits w : Nat) : Option Instr := decode (BitVec.ofNat 16 (w % 2 ^ nbits))

/-- A word from its fields `op`, `s`, `e`, `f` and `d`; `z` is 0 (30_encoding.md R76). -/
def assembleWord (op : BitVec 4) (s e f : Bool) (d : Byte) : Word :=
  op ++ 0#1 ++ BitVec.ofBool s ++ BitVec.ofBool e ++ BitVec.ofBool f ++ d

/-- The word of a command (30_encoding.md R78, R79): every field a command does not use is 0. -/
def encode : Instr → Word
  | .put f d => assembleWord 0x1 false false f.bit d
  | .get f => assembleWord 0x2 false false f.bit 0
  | .empty f v => assembleWord 0x3 v.bit false f.bit 0
  | .full f v => assembleWord 0x4 v.bit false f.bit 0
  | .dsize f v => assembleWord 0x5 v.bit false f.bit 0
  | .outb => assembleWord 0x6 false false false 0
  | .inb => assembleWord 0x7 false false false 0
  | .eni e => assembleWord 0x8 false e.bit false 0
  | .disi e => assembleWord 0x9 false e.bit false 0
  | .trig => assembleWord 0xA false false false 0
  | .stat => assembleWord 0xB false false false 0
  | .hwwr d => assembleWord 0xC false false false d
  | .hwrd => assembleWord 0xD false false false 0
  | .invoke => assembleWord 0xE false false false 0

/-- The opcode of each command (30_encoding.md R78). -/
def Instr.opcode : Instr → BitVec 4
  | .put _ _ => 0x1
  | .get _ => 0x2
  | .empty _ _ => 0x3
  | .full _ _ => 0x4
  | .dsize _ _ => 0x5
  | .outb => 0x6
  | .inb => 0x7
  | .eni _ => 0x8
  | .disi _ => 0x9
  | .trig => 0xA
  | .stat => 0xB
  | .hwwr _ => 0xC
  | .hwrd => 0xD
  | .invoke => 0xE

/-- The mnemonic of each command, as the table spells it (30_encoding.md R78). -/
def Instr.mnemonic : Instr → String
  | .put _ _ => "PUT"
  | .get _ => "GET"
  | .empty _ _ => "EMPTY"
  | .full _ _ => "FULL"
  | .dsize _ _ => "DSIZE"
  | .outb => "OUTB"
  | .inb => "INB"
  | .eni _ => "ENI"
  | .disi _ => "DISI"
  | .trig => "TRIG"
  | .stat => "STAT"
  | .hwwr _ => "HWWR"
  | .hwrd => "HWRD"
  | .invoke => "INVOKE"

end Sys2Proof
end

