-- ==== Sys2Proof/Machine/State.lean ====
section
/-!
DEFINITION. The state of the block, all of 10_state.md R13, with the ghosts of R31, the host's
foreground program of R15, and the model's own fields; the ways a step can stop; and reset.
-/

namespace Sys2Proof.Machine

/-- A backing array: (slot index, byte) pairs with strictly rising indices. A slot that is not listed
holds `⊥`, "not written since reset" (10_state.md R18; log 9). -/
abbrev Memory := List Host.Cell

/-- Whether two cells stand in the canonical order. -/
abbrev Memory.before (a b : Host.Cell) : Prop := a.1 < b.1

/-- The canonical form: indices strictly rising. Every listed slot holds a byte, so no entry equals
what an unlisted slot reads as. -/
abbrev Memory.wf (m : Memory) : Prop := m.Pairwise Memory.before

/-- The ghost quantities of one FIFO, for proofs only; no command reads them (10_state.md R31,
20_memory.md R63). -/
structure Ghost where
  /-- `W_f`: successful `PUT f` since reset -/
  w : Nat
  /-- `R_f`: successful `GET f` since reset -/
  r : Nat
  /-- `Wq1_f`: the value of `W_f` whose gray code `rq1_f` holds -/
  wq1 : Nat
  /-- `Wq2_f` -/
  wq2 : Nat
  /-- `Rq1_f`: the value of `R_f` whose gray code `wq1_f` holds -/
  rq1 : Nat
  /-- `Rq2_f` -/
  rq2 : Nat
  /-- the bytes of those successful `PUT f`s, oldest first: the model's own (log 7) -/
  puts : List Byte
  deriving DecidableEq, Repr

/-- One FIFO instance (10_state.md R18 to R22). -/
structure Fifo where
  /-- `mem_f` (R18) -/
  mem : Memory
  /-- `wbin_f`, the write cursor (R19) -/
  wbin : Cursor
  /-- `wgray_f` (R19) -/
  wgray : Cursor
  /-- `rbin_f`, the read cursor (R20) -/
  rbin : Cursor
  /-- `rgray_f` (R20) -/
  rgray : Cursor
  /-- `rq1_f`: read side, first stage of the write cursor's gray code (R21) -/
  rq1 : Cursor
  /-- `rq2_f`: read side, second stage (R21) -/
  rq2 : Cursor
  /-- `wq1_f`: write side, first stage of the read cursor's gray code (R22) -/
  wq1 : Cursor
  /-- `wq2_f`: write side, second stage (R22) -/
  wq2 : Cursor
  /-- the ghosts of R31 and R63 -/
  ghost : Ghost
  deriving DecidableEq, Repr

/-- `IER`, bit 0 `tx_en`, bit 1 `rx_en`; one copy (10_state.md R24). -/
structure Ier where
  txEn : Bool
  rxEn : Bool
  deriving DecidableEq, Repr

/-- The device port (10_state.md R26). `none` is the spec's `⊥`. -/
structure Dev where
  /-- `dev.tx_ready` -/
  txReady : Bool
  /-- `dev.tdr` -/
  tdr : Option Byte
  /-- `dev.rx_ready` -/
  rxReady : Bool
  /-- `dev.rdr` -/
  rdr : Option Byte
  /-- `line_out`, oldest first; an observation no command reads -/
  lineOut : List Byte
  deriving DecidableEq, Repr

/-- `DIAG`, sticky flags, bit 0 `rx_drop`, bit 1 `echo_drop`, bit 2 `illegal` (10_state.md R27). -/
structure Diag where
  rxDrop : Bool
  echoDrop : Bool
  illegal : Bool
  deriving DecidableEq, Repr

/-- One item of the foreground's program (10_state.md R15): a command word, or an `ENQUEUE TX` of
which `stored` bytes are stored and `rest` is still to be put (41_transport.md R107). An `ENQUEUE`
that has not begun has `stored = 0`. -/
inductive FgItem where
  | word (w : Word)
  | enqueue (stored : Nat) (rest : List Byte)
  deriving DecidableEq, Repr

/-- The foreground agent's host state (10_state.md R15): what is left of its program, and what it
learnt as `stored` from its last complete `ENQUEUE` (41_transport.md R107). Not block state: reset
does not change it, and no command reads it. -/
structure Foreground where
  program : List FgItem
  stored : Nat
  deriving DecidableEq, Repr

/-- One move of the outside (70_reset_and_hazards.md R161, R164). -/
inductive Move where
  /-- a step of an agent; if it is not enabled the pick is dropped (log 3) -/
  | agent (a : Config.AgentStep)
  /-- a word presented at an issuer's port (30_encoding.md R86). From `FG` it is a foreground command
  (R164); from `DISP` or `IRQ` it is a unit vector of 95_test_vectors.md and no step of a run (log 5) -/
  | port (who : Issuer) (word : Word)
  /-- the reset event (R143) -/
  | reset
  deriving DecidableEq, Repr

/-- The whole state: the architectural state of 10_state.md R13, then the parameters, the host's
foreground, and the model's own fields (INVENTORY.md, State). -/
structure State where
  /-- the transmit FIFO -/
  tx : Fifo
  /-- the receive FIFO -/
  rx : Fifo
  ier : Ier
  dev : Dev
  diag : Diag
  /-- the parameters of 00_scope.md R7; no step changes them (log 4) -/
  params : Config.Params
  /-- the foreground's program, host state (10_state.md R15; log 11) -/
  fg : Foreground
  /-- MODEL: the port the word in hand came from (log 5) -/
  issuer : Issuer
  /-- MODEL: the response word the last step returned to its issuer, none if that step was no
  command; no step reads it (10_state.md R32; log 6) -/
  response : Option Word
  /-- MODEL: the moves already fixed, next first (log 1) -/
  agenda : List Move
  /-- MODEL: how many free choices have been drawn (log 2) -/
  tick : Nat
  deriving DecidableEq, Repr

/-- The ways the machine stops. The spec's block never stops (60_exceptions.md R121): each of these
is a read or an access 93_implementation_defined.md calls unreachable, and stopping there is safe. -/
inductive Fault where
  /-- raised by `PUT`, `GET`, `OUTB`, `INB` and `INVOKE` when a cursor names a slot outside
  `[0, N_f)`: no such slot exists (20_memory.md R34, R40). Safe; log 10. -/
  | slotOutOfRange (f : FifoId) (slot : Nat)
  /-- raised by `GET`, `OUTB` and `INVOKE` on a read of a `⊥` slot (10_state.md R18,
  93_implementation_defined.md). Safe; log 9. -/
  | slotUnwritten (f : FifoId) (slot : Nat)
  /-- raised by `DEV_TX_DONE` when `dev.tdr` is `⊥` (60_exceptions.md R136). Safe; log 9. -/
  | tdrUnwritten
  /-- raised by `INB`, `HWRD` and `INVOKE` when `dev.rdr` is `⊥` (41_transport.md R106). Safe;
  log 9. -/
  | rdrUnwritten
  deriving DecidableEq, Repr

/-- The reasons the model gives no meaning. -/
inductive Refusal where
  /-- raised by an arm of `exec` whose instruction has no meaning yet; no arm is left so. Safe. -/
  | notModelled (mnemonic : String)
  /-- raised by every step and every command when a capacity is not 2^k with k in 1 to 8: the
  configuration is refused (70_reset_and_hazards.md R159). Safe; log 4. -/
  | capacityNotAdmitted
  deriving DecidableEq, Repr

/-- The outcome of a step of this machine. -/
abbrev Outcome := Host.Outcome State Fault Refusal

/-- The ghosts at reset (70_reset_and_hazards.md R144). -/
def Ghost.reset : Ghost := { w := 0, r := 0, wq1 := 0, wq2 := 0, rq1 := 0, rq2 := 0, puts := [] }

/-- A FIFO at reset (70_reset_and_hazards.md R144): every slot `⊥`, every cursor and stage 0. -/
def Fifo.reset : Fifo :=
  { mem := [], wbin := 0, wgray := 0, rbin := 0, rgray := 0, rq1 := 0, rq2 := 0, wq1 := 0, wq2 := 0,
    ghost := Ghost.reset }

/-- `IER` at reset: transmit masked, receive unmasked (70_reset_and_hazards.md R144). -/
def Ier.reset : Ier := { txEn := false, rxEn := true }

/-- The device port at reset (70_reset_and_hazards.md R144). -/
def Dev.reset : Dev := { txReady := true, tdr := none, rxReady := false, rdr := none, lineOut := [] }

/-- `DIAG` at reset (70_reset_and_hazards.md R144). -/
def Diag.reset : Diag := { rxDrop := false, echoDrop := false, illegal := false }

/-- The machine right after reset (70_reset_and_hazards.md R143, R144), with the parameters of this
hardware (00_scope.md R7). The host's foreground, the issuer, the response, the agenda and the tick
are DESIGN CHOICE (log 1, 2, 5, 6, 11): the spec gives them no reset value. -/
def State.reset : State :=
  { tx := Fifo.reset, rx := Fifo.reset, ier := Ier.reset, dev := Dev.reset, diag := Diag.reset,
    params := Config.Params.hardware, fg := { program := [], stored := 0 }, issuer := .fg,
    response := none, agenda := [], tick := 0 }

end Sys2Proof.Machine
end

