-- ==== Sys2Proof/Machine/Operands.lean ====
section
/-!
DEFINITION. The operands: the FIFO, view and event a field selects, cursor arithmetic, gray code, and
the packing of a byte and of a response word.
-/

namespace Sys2Proof.Machine

/-- `{b7, ..., b0}` as a byte, `b7` in the most significant place (00_scope.md R9). -/
def packByte (b7 b6 b5 b4 b3 b2 b1 b0 : Bool) : BitVec 8 :=
  BitVec.ofBool b7 ++ BitVec.ofBool b6 ++ BitVec.ofBool b5 ++ BitVec.ofBool b4 ++
    BitVec.ofBool b3 ++ BitVec.ofBool b2 ++ BitVec.ofBool b1 ++ BitVec.ofBool b0

/-- `zext_8` of a flag (00_scope.md R9). -/
def zextFlag (p : Bool) : Byte := packByte false false false false false false false p

/-- `inc_N(x) = (x + 1) mod N` (00_scope.md R10, 20_memory.md R47). -/
def inc (n : Nat) (x : Cursor) : Cursor := BitVec.ofNat 8 ((x.toNat + 1) % n)

/-- `diff_N(a, b) = (a - b) mod N` (00_scope.md R10, 20_memory.md R48); the result is in `[0, N)`. -/
def diff (n : Nat) (a b : Cursor) : Nat := (a.toNat + (n - b.toNat % n)) % n

/-- `gray(b) = b ^ (b >> 1)` (20_memory.md R49; log 8). -/
def gray (b : Cursor) : Cursor := b ^^^ (b >>> 1)

/-- `bin(g)`: the top bit as it is, and `b[i] = b[i+1] ^ g[i]` below it (20_memory.md R49; log 8).
The bits of a k-bit gray value at and above `k` are 0, so the top bit of the k-bit value is met as
`0 ^ g[k-1]`. -/
def bin (g : Cursor) : Cursor :=
  let b7 := g.getLsbD 7
  let b6 := b7 ^^ g.getLsbD 6
  let b5 := b6 ^^ g.getLsbD 5
  let b4 := b5 ^^ g.getLsbD 4
  let b3 := b4 ^^ g.getLsbD 3
  let b2 := b3 ^^ g.getLsbD 2
  let b1 := b2 ^^ g.getLsbD 1
  let b0 := b1 ^^ g.getLsbD 0
  packByte b7 b6 b5 b4 b3 b2 b1 b0

/-- The instance field `f` selects (30_encoding.md R80). -/
def State.fifo (s : State) : FifoId → Fifo
  | .tx => s.tx
  | .rx => s.rx

/-- The state with the instance `f` replaced. -/
def State.setFifo (s : State) (f : FifoId) (q : Fifo) : State :=
  match f with
  | .tx => { s with tx := q }
  | .rx => { s with rx := q }

/-- N_f of this configuration (00_scope.md R8). -/
def State.cap (s : State) (f : FifoId) : Nat := s.params.capacity f

/-- The `IER` bit field `e` selects (30_encoding.md R82), written. -/
def State.setEnable (s : State) (e : Event) (b : Bool) : State :=
  match e with
  | .tx => { s with ier := { s.ier with txEn := b } }
  | .rx => { s with ier := { s.ier with rxEn := b } }

/-- The status codes (60_exceptions.md R120). -/
inductive Status where
  | ok
  | bufferFull
  | bufferEmpty
  | hardwareNotReady
  | receiveBufferFull
  | illegal
  deriving DecidableEq, Repr

/-- The 4-bit values of the status codes (60_exceptions.md R120). -/
def Status.code : Status → BitVec 4
  | .ok => 0x0
  | .bufferFull => 0x1
  | .bufferEmpty => 0x2
  | .hardwareNotReady => 0x3
  | .receiveBufferFull => 0x4
  | .illegal => 0xF

/-- What a command ends with: `respond(status, data)` (00_scope.md R11). -/
structure Reply where
  status : Status
  data : Byte
  deriving DecidableEq, Repr

/-- A response word: data in 15:8, 0 in 7:4, status in 3:0 (30_encoding.md R77). -/
def Reply.word (r : Reply) : Word := r.data ++ 0#4 ++ r.status.code

/-- `Reply` with no data (30_encoding.md R84). -/
def Status.reply (st : Status) : Reply := { status := st, data := 0 }

/-- The state with a command's response word handed to its issuer (30_encoding.md R77; log 6). -/
def State.respond (s : State) (r : Reply) : State := { s with response := some r.word }

/-- The state after a step that is no command and so returns nothing (log 6). -/
def State.quiet (s : State) : State := { s with response := none }

end Sys2Proof.Machine
end

