-- ==== Sys2Proof/Machine/Flags.lean ====
section
/-!
DEFINITION. Every derived flag of the block (10_state.md R28, R29): the views of each FIFO, the
interrupt request, the triggered-event set and the status byte. None is stored.
-/

namespace Sys2Proof.Machine

/-- `rsync_w(f) = bin(wq2_f)`: the read cursor as the write side sees it (20_memory.md R56). -/
def rsyncW (s : State) (f : FifoId) : Cursor := bin (s.fifo f).wq2

/-- `wsync_r(f) = bin(rq2_f)`: the write cursor as the read side sees it (20_memory.md R57). -/
def wsyncR (s : State) (f : FifoId) : Cursor := bin (s.fifo f).rq2

/-- `full_w(f) = (inc_N(wbin_f) == rsync_w(f))` (20_memory.md R56). -/
def fullW (s : State) (f : FifoId) : Bool := inc (s.cap f) (s.fifo f).wbin == rsyncW s f

/-- `empty_w(f) = (wbin_f == rsync_w(f))` (20_memory.md R56). -/
def emptyW (s : State) (f : FifoId) : Bool := (s.fifo f).wbin == rsyncW s f

/-- `dsize_w(f) = diff_N(wbin_f, rsync_w(f))` (20_memory.md R56). -/
def dsizeW (s : State) (f : FifoId) : Nat := diff (s.cap f) (s.fifo f).wbin (rsyncW s f)

/-- `empty_r(f) = (wsync_r(f) == rbin_f)` (20_memory.md R57). -/
def emptyR (s : State) (f : FifoId) : Bool := wsyncR s f == (s.fifo f).rbin

/-- `full_r(f) = (inc_N(wsync_r(f)) == rbin_f)` (20_memory.md R57). -/
def fullR (s : State) (f : FifoId) : Bool := inc (s.cap f) (wsyncR s f) == (s.fifo f).rbin

/-- `dsize_r(f) = diff_N(wsync_r(f), rbin_f)` (20_memory.md R57). -/
def dsizeR (s : State) (f : FifoId) : Nat := diff (s.cap f) (wsyncR s f) (s.fifo f).rbin

/-- The empty predicate of the view field `s` selects (40_fifo_core.md R98). -/
def emptyView (s : State) (f : FifoId) : Side → Bool
  | .w => emptyW s f
  | .r => emptyR s f

/-- The full predicate of the view field `s` selects (40_fifo_core.md R99). -/
def fullView (s : State) (f : FifoId) : Side → Bool
  | .w => fullW s f
  | .r => fullR s f

/-- The data size of the view field `s` selects (40_fifo_core.md R100). -/
def dsizeView (s : State) (f : FifoId) : Side → Nat
  | .w => dsizeW s f
  | .r => dsizeR s f

/-- The true occupancy `occ(f) = diff_N(wbin_f, rbin_f)`; no command returns it (20_memory.md R58). -/
def occ (s : State) (f : FifoId) : Nat := diff (s.cap f) (s.fifo f).wbin (s.fifo f).rbin

/-- Transmit-ready is triggered: signaled and unmasked (42_interrupt_mask.md R110). -/
def triggeredTx (s : State) : Bool := s.dev.txReady && s.ier.txEn

/-- Receive-ready is triggered (42_interrupt_mask.md R110). -/
def triggeredRx (s : State) : Bool := s.dev.rxReady && s.ier.rxEn

/-- The interrupt request `irq` (10_state.md R28). -/
def irq (s : State) : Bool := triggeredTx s || triggeredRx s

/-- The data of `TRIG`: bit 0 transmit-ready, bit 1 receive-ready (42_interrupt_mask.md R110). -/
def trigByte (s : State) : Byte :=
  packByte false false false false false false (triggeredRx s) (triggeredTx s)

/-- The data of `STAT` (42_interrupt_mask.md R111). -/
def statByte (s : State) : Byte :=
  packByte (irq s) s.diag.illegal s.diag.echoDrop s.diag.rxDrop s.dev.rxReady s.dev.txReady
    s.ier.rxEn s.ier.txEn

end Sys2Proof.Machine
end

