-- ==== Sys2Proof/Machine/Legality.lean ====
section
/-!
DEFINITION. Which issuer may issue which command: the issuer table (30_encoding.md R86).
-/

namespace Sys2Proof.Machine

/-- The issuer table of 30_encoding.md R86, one line per row. It reads neither `ECHO` nor a clock
domain (R86, 90_conflicts.md C5). -/
def mayIssue : Issuer → Instr → Bool
  | who, .put .tx _ => who == .fg || who == .disp
  | who, .put .rx _ => who == .disp
  | who, .get .tx => who == .disp
  | who, .get .rx => who == .fg
  | who, .empty f v => mayView who f v
  | who, .full f v => mayView who f v
  | who, .dsize f v => mayView who f v
  | who, .outb => who == .disp
  | who, .inb => who == .disp
  | who, .hwwr _ => who == .disp
  | who, .hwrd => who == .disp
  | who, .eni .tx => who == .fg || who == .disp
  | who, .eni .rx => who == .disp
  | who, .disi _ => who == .disp
  | who, .trig => who == .fg || who == .disp
  | who, .stat => who == .fg || who == .disp
  | who, .invoke => who == .irq
where
  /-- The four view rows of R86: an issuer reads a view only of a side whose port it uses. -/
  mayView : Issuer → FifoId → Side → Bool
    | who, .tx, .w => who == .fg || who == .disp
    | who, .tx, .r => who == .disp
    | who, .rx, .w => who == .disp
    | who, .rx, .r => who == .fg

end Sys2Proof.Machine
end

