-- ==== Sys2Proof/Machine/Ops.lean ====
section
/-!
DEFINITION. The named operations the meanings share: the backing arrays, the write and read ports of
a FIFO, the device registers, the two transport operations, and how a command is handled at its port.

The block has no trap mechanism and takes no exception (60_exceptions.md R121): the one shared answer
to a word it gives no meaning to is `State.illegal` (R122), and interrupt entry and return save and
restore nothing (R130, R131), so `INVOKE` needs no operation for either.
-/

namespace Sys2Proof.Machine

/-- What a command's rule does: the state it leaves and its reply, or the fault it meets. -/
abbrev Effect := Except Fault (State × Reply)

/-- `MemRead(f, i)`, `none` for `⊥` (00_scope.md R11). -/
def Memory.read : Memory → Nat → Option Byte
  | [], _ => none
  | c :: m, i => if c.1 = i then some c.2 else Memory.read m i

/-- `MemWrite(f, i, v)`, keeping the canonical form (00_scope.md R11). -/
def Memory.write : Memory → Nat → Byte → Memory
  | [], i, v => [(i, v)]
  | c :: m, i, v =>
    if i < c.1 then (i, v) :: c :: m
    else if i = c.1 then (i, v) :: m
    else c :: Memory.write m i v

/-- The write side of a FIFO after a successful `PUT` of `d`: the slot, the advanced cursor and its
gray code, in one step (40_fifo_core.md R96); `n` is N_f. -/
def Fifo.pushed (n : Nat) (d : Byte) (q : Fifo) : Fifo :=
  { q with
    mem := Memory.write q.mem q.wbin.toNat d
    wbin := inc n q.wbin
    wgray := gray (inc n q.wbin)
    ghost := { q.ghost with w := q.ghost.w + 1, puts := q.ghost.puts ++ [d] } }

/-- The read side of a FIFO after a successful `GET`: the advanced cursor and its gray code; the slot
keeps its byte (40_fifo_core.md R97). -/
def Fifo.popped (n : Nat) (q : Fifo) : Fifo :=
  { q with
    rbin := inc n q.rbin
    rgray := gray (inc n q.rbin)
    ghost := { q.ghost with r := q.ghost.r + 1 } }

/-- The write port of FIFO `f`: the whole of `PUT f, d` (40_fifo_core.md R96). `INB` uses it twice
(41_transport.md R104). -/
def putPort (f : FifoId) (d : Byte) (s : State) : Effect :=
  if fullW s f then .ok (s, Status.bufferFull.reply)
  else if (s.fifo f).wbin.toNat < s.cap f then
    .ok (s.setFifo f ((s.fifo f).pushed (s.cap f) d), Status.ok.reply)
  else .error (.slotOutOfRange f (s.fifo f).wbin.toNat)

/-- The read port of FIFO `f`: the whole of `GET f` (40_fifo_core.md R97). `OUTB` uses it
(41_transport.md R103). -/
def getPort (f : FifoId) (s : State) : Effect :=
  if emptyR s f then .ok (s, Status.bufferEmpty.reply)
  else if (s.fifo f).rbin.toNat < s.cap f then
    match (s.fifo f).mem.read (s.fifo f).rbin.toNat with
    | some v => .ok (s.setFifo f ((s.fifo f).popped (s.cap f)), { status := .ok, data := v })
    | none => .error (.slotUnwritten f (s.fifo f).rbin.toNat)
  else .error (.slotOutOfRange f (s.fifo f).rbin.toNat)

/-- The device's transmit register takes a byte: `dev.tdr <- d`, `dev.tx_ready <- 0`
(41_transport.md R105). -/
def State.sendByte (s : State) (d : Byte) : State :=
  { s with dev := { s.dev with tdr := some d, txReady := false } }

/-- The received byte is taken: `dev.rx_ready <- 0`, `dev.rdr` keeps its value (41_transport.md R106). -/
def State.takeByte (s : State) : State := { s with dev := { s.dev with rxReady := false } }

/-- The whole of `HWWR d` (41_transport.md R105). -/
def deviceWrite (d : Byte) (s : State) : Effect :=
  if s.dev.txReady then .ok (s.sendByte d, Status.ok.reply)
  else .ok (s, Status.hardwareNotReady.reply)

/-- The whole of `HWRD` (41_transport.md R106). -/
def deviceRead (s : State) : Effect :=
  if s.dev.rxReady then
    match s.dev.rdr with
    | some v => .ok (s.takeByte, { status := .ok, data := v })
    | none => .error .rdrUnwritten
  else .ok (s, Status.hardwareNotReady.reply)

/-- The whole of `OUTB` (41_transport.md R103): the device is tested before the pop; then the pop is
exactly `GET TX`, and the hardware write exactly `HWWR v`. -/
def outputByte (s : State) : Effect :=
  if s.dev.txReady then
    match getPort .tx s with
    | .error e => .error e
    | .ok (t, r) => if r.status = .ok then .ok (t.sendByte r.data, r) else .ok (t, r)
  else .ok (s, Status.hardwareNotReady.reply)

/-- The echo push of `INB`: exactly `PUT TX, b`, and on `BufferFull` only `DIAG.echo_drop` is set
(41_transport.md R104). -/
def echoByte (b : Byte) (s : State) : Except Fault State :=
  if s.params.echo then
    match putPort .tx b s with
    | .error e => .error e
    | .ok (t, r) =>
      if r.status = .ok then .ok t else .ok { t with diag := { t.diag with echoDrop := true } }
  else .ok s

/-- The receive push of `INB` and what follows it: exactly `PUT RX, b`; when RX has no room the byte
is dropped, `DIAG.rx_drop` is set and nothing is echoed (41_transport.md R104). -/
def receiveByte (b : Byte) (s : State) : Effect :=
  match putPort .rx b s with
  | .error e => .error e
  | .ok (t, r) =>
    if r.status = .ok then
      match echoByte b t with
      | .error e => .error e
      | .ok u => .ok (u, { status := .ok, data := b })
    else
      .ok ({ t with diag := { t.diag with rxDrop := true } },
        { status := .receiveBufferFull, data := b })

/-- The whole of `INB` (41_transport.md R104): the device read is exactly `HWRD` and comes first. -/
def inputByte (s : State) : Effect :=
  match deviceRead s with
  | .error e => .error e
  | .ok (t, r) => if r.status = .ok then receiveByte r.data t else .ok (t, r)

/-- The answer to an `Illegal` word: `DIAG.illegal <- 1`, response 0x000F, nothing else
(60_exceptions.md R122). -/
def State.illegal (s : State) : State :=
  { s with diag := { s.diag with illegal := true } }.respond Status.illegal.reply

/-- A step is taken only in an admitted configuration: any other is refused rather than computed
with (70_reset_and_hazards.md R159). -/
def whenAdmitted (s : State) (o : Outcome) : Outcome :=
  if s.params.admitted then o else .refused .capacityNotAdmitted

/-- How a decoded command is handled at the port of `s.issuer` (30_encoding.md R85): first whether
that issuer may issue it (R86), and only then the command's rule `body`. Every meaning is a call of
this. -/
def command (i : Instr) (body : State → Effect) (s : State) : Outcome :=
  whenAdmitted s <|
    if mayIssue s.issuer i then
      match body s with
      | .ok (t, r) => .next (t.respond r)
      | .error e => .fault e
    else .next s.illegal

/-- A word that is no command, at the port of `s.issuer` (30_encoding.md R87, R88). -/
def illegalWord (s : State) : Outcome := whenAdmitted s (.next s.illegal)

/-- A command that only reads: it answers `OK` with `data` and changes no state. -/
def readOnly (data : State → Byte) (s : State) : Effect := .ok (s, { status := .ok, data := data s })

end Sys2Proof.Machine
end

