-- ==== Sys2Proof/Machine/Dispatcher.lean ====
section
/-!
DEFINITION. The dispatcher invocation (42_interrupt_mask.md, section 2). The latches of 10_state.md
R30 are values passed from step to step of one invocation, each 0 at its start.
-/

namespace Sys2Proof.Machine

/-- Step 2: when transmit-ready was triggered, one `OUTB`; the result says whether a mask decision is
pending. A pop that empties the read-side view records one too (42_interrupt_mask.md R112, step 2;
90_conflicts.md C1). `DISP` issues the `OUTB`, which R86 allows it. -/
def invokeTransmit (evTx : Bool) (s : State) : Except Fault (State × Bool) :=
  if evTx then
    match outputByte s with
    | .error e => .error e
    | .ok (t, r) => .ok (t, if r.status = .ok then emptyR t .tx else true)
  else .ok (s, false)

/-- Step 3: when receive-ready was triggered, one `INB`; the result says whether an unmask decision
is pending (42_interrupt_mask.md R112, step 3). -/
def invokeReceive (evRx : Bool) (s : State) : Except Fault (State × Bool) :=
  if evRx then
    match inputByte s with
    | .error e => .error e
    | .ok (t, r) => .ok (t, decide (r.status = .ok))
  else .ok (s, false)

/-- Step 4: at most one transmit-ready transition; unmask takes precedence (42_interrupt_mask.md
R112, step 4). -/
def invokeApply (pendMask pendUnmask : Bool) (s : State) : State :=
  if pendUnmask then s.setEnable .tx true
  else if pendMask then s.setEnable .tx false
  else s

/-- The invocation record (42_interrupt_mask.md R112): `a_un` is 1 when UNMASK is applied and `a_m`
when MASK is. -/
def invokeRecord (evTx evRx pendMask pendUnmask : Bool) : Byte :=
  packByte false false pendUnmask (pendMask && !pendUnmask) pendUnmask pendMask evRx evTx

/-- The whole body of one invocation, one atomic step (42_interrupt_mask.md R112). The snapshot is
read once, at the start. -/
def invocation (s : State) : Effect :=
  match invokeTransmit (triggeredTx s) s with
  | .error e => .error e
  | .ok (t, pendMask) =>
    match invokeReceive (triggeredRx s) t with
    | .error e => .error e
    | .ok (u, pendUnmask) =>
      .ok (invokeApply pendMask pendUnmask u,
        { status := .ok, data := invokeRecord (triggeredTx s) (triggeredRx s) pendMask pendUnmask })

/-- `INVOKE` (42_interrupt_mask.md R112). -/
def execInvoke (s : State) : Outcome := command .invoke invocation s

end Sys2Proof.Machine
end

