-- ==== Sys2Proof/Machine/FifoCore.lean ====
section
/-!
DEFINITION. The FIFO core commands (40_fifo_core.md).
-/

namespace Sys2Proof.Machine

/-- `PUT f, d` (40_fifo_core.md R96). -/
def execPut (f : FifoId) (d : Byte) (s : State) : Outcome := command (.put f d) (putPort f d) s

/-- `GET f` (40_fifo_core.md R97). -/
def execGet (f : FifoId) (s : State) : Outcome := command (.get f) (getPort f) s

/-- `EMPTY f.s` (40_fifo_core.md R98). -/
def execEmpty (f : FifoId) (v : Side) (s : State) : Outcome :=
  command (.empty f v) (readOnly fun t => zextFlag (emptyView t f v)) s

/-- `FULL f.s` (40_fifo_core.md R99). -/
def execFull (f : FifoId) (v : Side) (s : State) : Outcome :=
  command (.full f v) (readOnly fun t => zextFlag (fullView t f v)) s

/-- `DSIZE f.s` (40_fifo_core.md R100): `zext_8` of the k-bit size. -/
def execDsize (f : FifoId) (v : Side) (s : State) : Outcome :=
  command (.dsize f v) (readOnly fun t => BitVec.ofNat 8 (dsizeView t f v)) s

end Sys2Proof.Machine
end

