-- ==== Sys2Proof/Machine/Mask.lean ====
section
/-!
DEFINITION. The interrupt-mask commands (42_interrupt_mask.md, section 1).
-/

namespace Sys2Proof.Machine

/-- `ENI e` (42_interrupt_mask.md R108). -/
def execEni (e : Event) (s : State) : Outcome :=
  command (.eni e) (fun t => .ok (t.setEnable e true, Status.ok.reply)) s

/-- `DISI e` (42_interrupt_mask.md R109). -/
def execDisi (e : Event) (s : State) : Outcome :=
  command (.disi e) (fun t => .ok (t.setEnable e false, Status.ok.reply)) s

/-- `TRIG` (42_interrupt_mask.md R110). -/
def execTrig (s : State) : Outcome := command .trig (readOnly trigByte) s

/-- `STAT` (42_interrupt_mask.md R111). -/
def execStat (s : State) : Outcome := command .stat (readOnly statByte) s

end Sys2Proof.Machine
end

