-- ==== Sys2Proof/Machine/Transport.lean ====
section
/-!
DEFINITION. The transport and device-port commands (41_transport.md).
-/

namespace Sys2Proof.Machine

/-- `OUTB` (41_transport.md R103). -/
def execOutb (s : State) : Outcome := command .outb outputByte s

/-- `INB` (41_transport.md R104). -/
def execInb (s : State) : Outcome := command .inb inputByte s

/-- `HWWR d` (41_transport.md R105). -/
def execHwwr (d : Byte) (s : State) : Outcome := command (.hwwr d) (deviceWrite d) s

/-- `HWRD` (41_transport.md R106). -/
def execHwrd (s : State) : Outcome := command .hwrd deviceRead s

end Sys2Proof.Machine
end

