-- ==== Sys2Proof/Machine/Dispatch.lean ====
section
/-! DEFINITION. The meaning of every command: one arm per constructor of Instr. -/

namespace Sys2Proof.Machine

/-- The command `i` handled at the port of `s.issuer` (30_encoding.md R85). -/
def exec (i : Instr) (s : State) : Host.Outcome State Fault Refusal :=
  match i with
  | .put f d => Sys2Proof.Machine.execPut f d s
  | .get f => Sys2Proof.Machine.execGet f s
  | .empty f v => Sys2Proof.Machine.execEmpty f v s
  | .full f v => Sys2Proof.Machine.execFull f v s
  | .dsize f v => Sys2Proof.Machine.execDsize f v s
  | .outb => Sys2Proof.Machine.execOutb s
  | .inb => Sys2Proof.Machine.execInb s
  | .eni e => Sys2Proof.Machine.execEni e s
  | .disi e => Sys2Proof.Machine.execDisi e s
  | .trig => Sys2Proof.Machine.execTrig s
  | .stat => Sys2Proof.Machine.execStat s
  | .hwwr d => Sys2Proof.Machine.execHwwr d s
  | .hwrd => Sys2Proof.Machine.execHwrd s
  | .invoke => Sys2Proof.Machine.execInvoke s

end Sys2Proof.Machine
end

