-- ==== Sys2Proof/Machine/Agents.lean ====
section
/-!
DEFINITION. The agents' steps, the reset event, and which move is next (20_memory.md section 8,
60_exceptions.md sections 2 and 5, 70_reset_and_hazards.md sections 1 and 5).
-/

namespace Sys2Proof.Machine

open Sys2Proof.Config (AgentStep)

/-- A word at an issuer's port (30_encoding.md R85): decoded, then handled as that issuer's. -/
def handleWord (who : Issuer) (w : Word) (s : State) : Outcome :=
  match decode w with
  | some i => exec i { s with issuer := who }
  | none => illegalWord { s with issuer := who }

/-- A step of an agent that is not enabled is no step: the pick is dropped and nothing else changes
(log 3). -/
def notEnabled (s : State) : Outcome := .next s.quiet

/-- The read side of a FIFO after `SYNC_W2R(f)`; both stage writes use the old values
(20_memory.md R52). -/
def Fifo.clockedW2R (q : Fifo) : Fifo :=
  { q with
    rq2 := q.rq1
    rq1 := q.wgray
    ghost := { q.ghost with wq2 := q.ghost.wq1, wq1 := q.ghost.w } }

/-- The write side of a FIFO after `SYNC_R2W(f)` (20_memory.md R53). -/
def Fifo.clockedR2W (q : Fifo) : Fifo :=
  { q with
    wq2 := q.wq1
    wq1 := q.rgray
    ghost := { q.ghost with rq2 := q.ghost.rq1, rq1 := q.ghost.r } }

/-- `SYNC_W2R(f)` (20_memory.md R52), with the arrival re-arm of 42_interrupt_mask.md R114 when the
step changes `bin(rq2_TX)`. -/
def syncW2R (f : FifoId) (s : State) : State :=
  let t := s.setFifo f (s.fifo f).clockedW2R
  if f = .tx ∧ wsyncR t .tx ≠ wsyncR s .tx then t.setEnable .tx true else t

/-- `SYNC_R2W(f)` (20_memory.md R53). -/
def syncR2W (f : FifoId) (s : State) : State := s.setFifo f (s.fifo f).clockedR2W

/-- `DEV_TX_DONE`, enabled exactly when `dev.tx_ready = 0` (60_exceptions.md R136). -/
def devTxDone (s : State) : Outcome :=
  if s.dev.txReady then notEnabled s
  else
    match s.dev.tdr with
    | some b =>
      .next { s with dev := { s.dev with lineOut := s.dev.lineOut ++ [b], txReady := true } }.quiet
    | none => .fault .tdrUnwritten

/-- `DEV_RX_ARRIVE(b)`, enabled exactly when `dev.rx_ready = 0` (60_exceptions.md R137). -/
def devRxArrive (b : Byte) (s : State) : Outcome :=
  if s.dev.rxReady then notEnabled s
  else .next { s with dev := { s.dev with rdr := some b, rxReady := true } }.quiet

/-- The `IRQ` agent's step: `INVOKE`, enabled exactly when `irq = 1` (60_exceptions.md R126). -/
def irqStep (s : State) : Outcome :=
  if irq s then handleWord .irq (encode .invoke) s else notEnabled s

/-- The response word of a `PUT` that met `BufferFull` (60_exceptions.md R120). -/
def bufferFullWord : Word := Status.bufferFull.reply.word

/-- The host goes on with its program and, where it has just completed an `ENQUEUE`, its `stored`
(41_transport.md R107). -/
def State.withProgram (s : State) (p : List FgItem) : State := { s with fg := { s.fg with program := p } }

/-- One `PUT TX` of an `ENQUEUE` with `stored` bytes stored and `b :: rest` to put: after `BufferFull`
the rest is dropped and only the `ENI TX` remains (41_transport.md R107). -/
def enqueuePut (stored : Nat) (b : Byte) (rest : List Byte) (later : List FgItem) (s : State) :
    Outcome :=
  match handleWord .fg (encode (.put .tx b)) s with
  | .next t =>
    .next (t.withProgram
      (if t.response = some bufferFullWord then .enqueue stored [] :: later
      else .enqueue (stored + 1) rest :: later))
  | .fault e => .fault e
  | .refused e => .refused e

/-- The last command of an `ENQUEUE`: `ENI TX`, always issued, once (30_encoding.md R93,
41_transport.md R107). The host then knows `stored`. -/
def enqueueEnd (stored : Nat) (later : List FgItem) (s : State) : Outcome :=
  handleWord .fg (encode (.eni .tx)) { s with fg := { program := later, stored := stored } }

/-- The `FG` agent's step: the host's next command, enabled while there is one (10_state.md R15,
70_reset_and_hazards.md R161). -/
def fgStep (s : State) : Outcome :=
  match s.fg.program with
  | [] => notEnabled s
  | .word w :: later => handleWord .fg w (s.withProgram later)
  | .enqueue stored [] :: later => enqueueEnd stored later s
  | .enqueue stored (b :: rest) :: later => enqueuePut stored b rest later s

/-- One step of an agent (70_reset_and_hazards.md R161). -/
def agentStep (a : AgentStep) (s : State) : Outcome :=
  match a with
  | .fg => fgStep s
  | .irq => irqStep s
  | .devTxDone => devTxDone s
  | .devRxArrive b => devRxArrive b s
  | .syncW2R f => .next (syncW2R f s).quiet
  | .syncR2W f => .next (syncR2W f s).quiet

/-- The reset event: every element of 10_state.md R13 takes its reset value at once; the parameters
and the host's foreground keep theirs, and nothing outside the block changes
(70_reset_and_hazards.md R143, R145; log 12). -/
def resetEvent (s : State) : State :=
  { s with
    tx := State.reset.tx
    rx := State.reset.rx
    ier := State.reset.ier
    dev := State.reset.dev
    diag := State.reset.diag
    response := none }

/-- One move of the outside (70_reset_and_hazards.md R161, R164). -/
def move (m : Move) (s : State) : Outcome :=
  match m with
  | .agent a => agentStep a s
  | .port who w => handleWord who w s
  | .reset => .next (resetEvent s)

/-- The next move, and the state with it taken off: the head of the agenda, and after the agenda the
next free choice of an agent's step (log 1, log 2). -/
def nextMove (s : State) : Move × State :=
  match s.agenda with
  | m :: rest => (m, { s with agenda := rest })
  | [] => (.agent (Config.freeStep s.tick), { s with tick := s.tick + 1 })

/-- The issuer at whose port a word is placed by `State.withFetchWord`: the first of `FG`, `DISP`,
`IRQ` that may issue it, and `FG` where the word is no command (log 5). -/
def portFor (w : Word) : Issuer :=
  match decode w with
  | none => .fg
  | some i => if mayIssue .fg i then .fg else if mayIssue .disp i then .disp else .irq

end Sys2Proof.Machine
end

