-- ==== Sys2Proof/Machine/Step.lean ====
section
/-!
DEFINITION. One step of the machine: the next move of the agenda, or of the free choice, is taken
(70_reset_and_hazards.md R161). And how a word is placed so that the next step handles it.
-/

namespace Sys2Proof.Machine

/-- One atomic step (20_memory.md R43, R59). The block fetches nothing (R72): a command arrives as a
word at a port. A configuration that is not admitted is refused (70_reset_and_hazards.md R159). -/
def step (s : State) : Host.Outcome State Fault Refusal :=
  whenAdmitted s (move (nextMove s).1 (nextMove s).2)

/-- `s` with one command word as its next move, at the port of an issuer that may issue it, so that
the next step handles exactly that word (log 1, log 5). -/
def State.withFetchWord (s : State) (nbits w : Nat) : State :=
  { s with
    agenda := .port (portFor (BitVec.ofNat 16 (w % 2 ^ nbits))) (BitVec.ofNat 16 (w % 2 ^ nbits)) ::
      s.agenda }

end Sys2Proof.Machine
end

