-- ==== Sys2Proof/Machine/Assembler.lean ====
section
/-!
DEFINITION. The assembler and the disassembler (30_encoding.md, section 6). Text is a list of
characters. What the spec does not say of the text form (blanks, letter case, how many digits a number
has, which lines an issuer prefix may stand on) is DESIGN CHOICE, log 20.
-/

namespace Sys2Proof.Machine

/-- A character as a hexadecimal digit of either case. -/
def hexValue (c : Char) : Option Nat :=
  let n := c.toNat
  if 48 ≤ n ∧ n ≤ 57 then some (n - 48)
  else if 65 ≤ n ∧ n ≤ 70 then some (n - 55)
  else if 97 ≤ n ∧ n ≤ 102 then some (n - 87)
  else none

/-- The upper-case hexadecimal digit of a value below 16. -/
def hexDigit (n : Nat) : Char := if n < 10 then Char.ofNat (48 + n) else Char.ofNat (55 + n)

/-- Digits of a base to a number, most significant first; `acc` is what has been read. -/
def readDigits (base : Nat) (acc : Nat) : List Char → Option Nat
  | [] => some acc
  | c :: cs =>
    match hexValue c with
    | some v => if v < base then readDigits base (acc * base + v) cs else none
    | none => none

/-- A data operand: hexadecimal after `0x`, or decimal (30_encoding.md R91). DESIGN CHOICE (log 20): any
number of digits from one up is read, so `0x5`, `0x041` and `007` are numbers. -/
def readNumber : List Char → Option Nat
  | '0' :: 'x' :: c :: cs => readDigits 16 0 (c :: cs)
  | c :: cs => readDigits 10 0 (c :: cs)
  | [] => none

/-- A FIFO operand (30_encoding.md R91). -/
def readFifo : List Char → Option FifoId
  | ['T', 'X'] => some .tx
  | ['R', 'X'] => some .rx
  | _ => none

/-- An event operand (30_encoding.md R91). -/
def readEvent : List Char → Option Event
  | ['T', 'X'] => some .tx
  | ['R', 'X'] => some .rx
  | _ => none

/-- A FIFO operand with a view suffix (30_encoding.md R91). -/
def readView : List Char → Option (FifoId × Side)
  | ['T', 'X', '.', 'W'] => some (.tx, .w)
  | ['T', 'X', '.', 'R'] => some (.tx, .r)
  | ['R', 'X', '.', 'W'] => some (.rx, .w)
  | ['R', 'X', '.', 'R'] => some (.rx, .r)
  | _ => none

/-- Cut a line at one separator. The pieces are in order; there is at least one. -/
def splitAt (sep : Char) : List Char → List (List Char)
  | [] => [[]]
  | c :: cs =>
    match splitAt sep cs with
    | [] => [[]]
    | p :: ps => if c = sep then [] :: p :: ps else (c :: p) :: ps

/-- Leave out the blanks at the start of a piece. -/
def trimLeft (cs : List Char) : List Char := cs.dropWhile (· == ' ')

/-- Leave out the blanks around a piece. -/
def trim (cs : List Char) : List Char := (trimLeft (trimLeft cs).reverse).reverse

/-- The mnemonic, and the operands cut at commas (30_encoding.md R91). -/
def readLine (text : List Char) : List Char × List (List Char) :=
  let line := trim text
  let rest := trim (line.dropWhile (· != ' '))
  (line.takeWhile (· != ' '), if rest = [] then [] else (splitAt ',' rest).map trim)

/-- Read every item of a list, or nothing. -/
def readAll : List (List Char) → Option (List Nat)
  | [] => some []
  | c :: cs =>
    match readNumber c, readAll cs with
    | some v, some vs => some (v :: vs)
    | _, _ => none

/-- A line's term from its mnemonic and operands (30_encoding.md R91, R93). DESIGN CHOICE (log 20):
names are read in upper case only, so `put TX, 0x41` and `PUT tx, 0x41` are syntax errors. -/
def readCommand : List Char → List (List Char) → Option Asm
  | ['P', 'U', 'T'], [f, d] =>
    match readFifo f, readNumber d with
    | some f, some d => some (.put f d)
    | _, _ => none
  | ['G', 'E', 'T'], [f] => (readFifo f).map fun f => .plain (.get f)
  | ['E', 'M', 'P', 'T', 'Y'], [v] => (readView v).map fun v => .plain (.empty v.1 v.2)
  | ['F', 'U', 'L', 'L'], [v] => (readView v).map fun v => .plain (.full v.1 v.2)
  | ['D', 'S', 'I', 'Z', 'E'], [v] => (readView v).map fun v => .plain (.dsize v.1 v.2)
  | ['O', 'U', 'T', 'B'], [] => some (.plain .outb)
  | ['I', 'N', 'B'], [] => some (.plain .inb)
  | ['E', 'N', 'I'], [e] => (readEvent e).map fun e => .plain (.eni e)
  | ['D', 'I', 'S', 'I'], [e] => (readEvent e).map fun e => .plain (.disi e)
  | ['T', 'R', 'I', 'G'], [] => some (.plain .trig)
  | ['S', 'T', 'A', 'T'], [] => some (.plain .stat)
  | ['H', 'W', 'W', 'R'], [d] => (readNumber d).map fun d => .hwwr d
  | ['H', 'W', 'R', 'D'], [] => some (.plain .hwrd)
  | ['I', 'N', 'V', 'O', 'K', 'E'], [] => some (.plain .invoke)
  | ['E', 'N', 'Q', 'U', 'E', 'U', 'E'], f :: bs =>
    match readFifo f, readAll bs with
    | some f, some bs => some (.enqueue f bs)
    | _, _ => none
  | _, _ => none

/-- An issuer shown as a prefix, which is no part of the encoding, and what follows it
(30_encoding.md R91). -/
def readIssuer (text : List Char) : Option Issuer × List Char :=
  match trimLeft text with
  | 'F' :: 'G' :: ':' :: rest => (some .fg, rest)
  | 'D' :: 'I' :: 'S' :: 'P' :: ':' :: rest => (some .disp, rest)
  | 'I' :: 'R' :: 'Q' :: ':' :: rest => (some .irq, rest)
  | rest => (none, rest)

/-- A line of assembler text: the issuer it shows, and its term; none on a syntax error, and a data
operand above 255 is one (30_encoding.md R91, R93). DESIGN CHOICE (log 20): the prefix restricts no
line, so an `ENQUEUE` behind `DISP:` or `IRQ:` is read and assembles as `FG`'s does, although R93 gives
the pseudo-instruction to `FG` alone. -/
def parseAsm (text : List Char) : Option (Option Issuer × Asm) :=
  let (who, rest) := readIssuer text
  let (mnemonic, operands) := readLine rest
  match readCommand mnemonic operands with
  | some a => if a.wellFormed then some (who, a) else none
  | none => none

/-- The command words of a well-formed term: one, or the expansion of `ENQUEUE`, whose `PUT`s are
followed by one `ENI TX` (30_encoding.md R93). -/
def assemble (a : Asm) : Option (List Word) :=
  if a.wellFormed then
    match a with
    | .put f d => some [encode (.put f (BitVec.ofNat 8 d))]
    | .hwwr d => some [encode (.hwwr (BitVec.ofNat 8 d))]
    | .plain i => some [encode i]
    | .enqueue _ bs =>
      some (bs.map (fun b => encode (.put .tx (BitVec.ofNat 8 b))) ++ [encode (.eni .tx)])
  else none

/-- A FIFO operand as text (30_encoding.md R91). -/
def showFifo : FifoId → List Char
  | .tx => ['T', 'X']
  | .rx => ['R', 'X']

/-- A FIFO operand with its view suffix (30_encoding.md R92). -/
def showView (f : FifoId) : Side → List Char
  | .w => showFifo f ++ ['.', 'W']
  | .r => showFifo f ++ ['.', 'R']

/-- An event operand as text (30_encoding.md R91). -/
def showEvent : Event → List Char
  | .tx => ['T', 'X']
  | .rx => ['R', 'X']

/-- A byte as two hexadecimal digits after `0x` (30_encoding.md R92). -/
def showByte (d : Byte) : List Char :=
  ['0', 'x', hexDigit (d.toNat / 16), hexDigit (d.toNat % 16)]

/-- A word as four hexadecimal digits after `0x` (30_encoding.md R92). -/
def showWord (w : Word) : List Char :=
  ['0', 'x', hexDigit (w.toNat / 4096), hexDigit (w.toNat / 256 % 16), hexDigit (w.toNat / 16 % 16),
    hexDigit (w.toNat % 16)]

/-- A command as canonical text (30_encoding.md R92). -/
def showInstr : Instr → List Char
  | .put f d => ['P', 'U', 'T', ' '] ++ showFifo f ++ [',', ' '] ++ showByte d
  | .get f => ['G', 'E', 'T', ' '] ++ showFifo f
  | .empty f v => ['E', 'M', 'P', 'T', 'Y', ' '] ++ showView f v
  | .full f v => ['F', 'U', 'L', 'L', ' '] ++ showView f v
  | .dsize f v => ['D', 'S', 'I', 'Z', 'E', ' '] ++ showView f v
  | .outb => ['O', 'U', 'T', 'B']
  | .inb => ['I', 'N', 'B']
  | .eni e => ['E', 'N', 'I', ' '] ++ showEvent e
  | .disi e => ['D', 'I', 'S', 'I', ' '] ++ showEvent e
  | .trig => ['T', 'R', 'I', 'G']
  | .stat => ['S', 'T', 'A', 'T']
  | .hwwr d => ['H', 'W', 'W', 'R', ' '] ++ showByte d
  | .hwrd => ['H', 'W', 'R', 'D']
  | .invoke => ['I', 'N', 'V', 'O', 'K', 'E']

/-- The canonical disassembly of a word; an `Illegal` word is `.word 0xNNNN` (30_encoding.md R92). -/
def disassemble (w : Word) : List Char :=
  match decode w with
  | some i => showInstr i
  | none => ['.', 'w', 'o', 'r', 'd', ' '] ++ showWord w

end Sys2Proof.Machine
end

