-- ==== Sys2Proof/Safety.lean ====
section
/-!
DEFINITION. What holds of the states a run reaches (20_memory.md section 11), the launch premise and
the end of a run (70_reset_and_hazards.md R149, R163), in the words the statements use.
-/

namespace Sys2Proof.Machine

/-- The gray code of the count `c`'s cursor in a FIFO of capacity `n` (20_memory.md R63). -/
def grayOfCount (n c : Nat) : Cursor := gray (BitVec.ofNat 8 (c % n))

/-- The chain of 20_memory.md R63: `Rq2 <= Rq1 <= R <= Wq2 <= Wq1 <= W <= Rq2 + N - 1`. -/
abbrev Ghost.chain (n : Nat) (g : Ghost) : Prop :=
  g.rq2 ≤ g.rq1 ∧ g.rq1 ≤ g.r ∧ g.r ≤ g.wq2 ∧ g.wq2 ≤ g.wq1 ∧ g.wq1 ≤ g.w ∧ g.w ≤ g.rq2 + (n - 1)

/-- Every cursor and every stage holds what the ghost it belongs to says (10_state.md R19 to R22, R31,
20_memory.md R63). -/
abbrev Fifo.tracksGhost (n : Nat) (q : Fifo) : Prop :=
  q.wbin = BitVec.ofNat 8 (q.ghost.w % n) ∧ q.wgray = gray q.wbin ∧
    q.rbin = BitVec.ofNat 8 (q.ghost.r % n) ∧ q.rgray = gray q.rbin ∧
    q.rq1 = grayOfCount n q.ghost.wq1 ∧ q.rq2 = grayOfCount n q.ghost.wq2 ∧
    q.wq1 = grayOfCount n q.ghost.rq1 ∧ q.wq2 = grayOfCount n q.ghost.rq2

/-- The backing array: canonical, within `[0, N)`, and each unread count's slot holds the byte of that
`PUT` (10_state.md R18, 20_memory.md R34, R61, R64). -/
abbrev Fifo.holdsUnread (n : Nat) (q : Fifo) : Prop :=
  q.mem.wf ∧ (∀ c ∈ q.mem, c.1 < n) ∧ q.ghost.puts.length = q.ghost.w ∧
    ∀ j < q.ghost.w, q.ghost.r ≤ j → q.mem.read (j % n) = q.ghost.puts[j]?

/-- The invariant of one FIFO of capacity `n`. -/
abbrev Fifo.Inv (n : Nat) (q : Fifo) : Prop :=
  q.ghost.chain n ∧ q.tracksGhost n ∧ q.holdsUnread n

/-- The device registers hold a byte whenever they may be read (60_exceptions.md R136, 41_transport.md
R106). -/
abbrev Dev.Inv (d : Dev) : Prop :=
  (d.txReady = false → d.tdr.isSome = true) ∧ (d.rxReady = true → d.rdr.isSome = true)

/-- The invariant of the block: it holds in every state any sequence of moves reaches. -/
abbrev State.Inv (s : State) : Prop :=
  s.params.admitted = true ∧ s.tx.Inv (s.cap .tx) ∧ s.rx.Inv (s.cap .rx) ∧ s.dev.Inv

/-- A move that may stand in a run of the agents: no word at the port of `DISP` or `IRQ`, which have
no such steps (00_scope.md R6, 60_exceptions.md R126; 95_test_vectors.md, "unit vectors and full
runs"). -/
def Move.ofRun : Move → Bool
  | .agent _ => true
  | .port .fg _ => true
  | .port .disp _ => false
  | .port .irq _ => false
  | .reset => true

/-- The byte the device has taken and not yet sent on the line (60_exceptions.md R136). -/
def Dev.inHand (d : Dev) : List Byte := if d.txReady then [] else d.tdr.toList

/-- The invariant of the runs of the agents: besides `State.Inv`, the receive mask keeps its reset
value (10_state.md R24); while transmit-ready is masked the TX read-side view is empty
(42_interrupt_mask.md R117); and the line has got exactly the bytes popped from TX, in put order, but
for the one in the device's hand (42_interrupt_mask.md R118). -/
abbrev State.RunInv (s : State) : Prop :=
  s.Inv ∧ (∀ m ∈ s.agenda, m.ofRun = true) ∧ s.ier.rxEn = true ∧
    (s.ier.txEn = false → s.tx.ghost.r = s.tx.ghost.wq2) ∧
    s.dev.lineOut ++ s.dev.inHand = s.tx.ghost.puts.take s.tx.ghost.r

/-- The launch premise `CleanReset`: the state equals the table of 70_reset_and_hazards.md R144
(R149). The parameters, the host and the model's own fields are no part of that table. -/
abbrev State.CleanReset (s : State) : Prop :=
  s.tx = Fifo.reset ∧ s.rx = Fifo.reset ∧ s.ier = Ier.reset ∧ s.dev = Dev.reset ∧ s.diag = Diag.reset

/-- Every synchroniser stage of the FIFO equals its source's gray code: nothing is in flight
(70_reset_and_hazards.md R149, R163). -/
abbrev Fifo.settled (q : Fifo) : Prop :=
  q.rq1 = q.wgray ∧ q.rq2 = q.wgray ∧ q.wq1 = q.rgray ∧ q.wq2 = q.rgray

/-- A move that something outside the block decides: a byte arrival, a word at a port, reset. A step of
`FG` is not one: it issues what the host's program in State holds. -/
def Move.fromOutside : Move → Bool
  | .agent .fg => false
  | .agent .irq => false
  | .agent .devTxDone => false
  | .agent (.devRxArrive _) => true
  | .agent (.syncW2R _) => false
  | .agent (.syncR2W _) => false
  | .port _ _ => true
  | .reset => true

/-- Nothing is still to come from outside (70_reset_and_hazards.md R163): the foreground has no next
command, in its program or as a word on the agenda, and the agenda holds no byte arrival and no reset. -/
abbrev State.awaitsNothing (s : State) : Prop :=
  s.fg.program = [] ∧ ∀ m ∈ s.agenda, m.fromOutside = false

/-- A quiescent state (70_reset_and_hazards.md R163). That no byte arrives "from then on" is a matter of
the run where the agenda has ended: statements about what follows say it of the moves they take. -/
abbrev State.Quiescent (s : State) : Prop :=
  s.awaitsNothing ∧ irq s = false ∧ s.dev.txReady = true ∧ s.tx.settled ∧ s.rx.settled

/-- The FIFO without its ghosts (10_state.md R31). -/
def Fifo.noGhost (q : Fifo) : Fifo := { q with ghost := Ghost.reset }

/-- The state without the ghosts, without `line_out` and without the last response: what no command
reads (10_state.md R26, R31, R32). -/
def State.observable (s : State) : State :=
  { s with
    tx := s.tx.noGhost
    rx := s.rx.noGhost
    dev := { s.dev with lineOut := [] }
    response := none }

/-- The next state of an outcome, seen through `g`; a stop stays the stop it is. -/
def mapNext (g : State → State) : Outcome → Outcome
  | .next s => .next (g s)
  | .fault e => .fault e
  | .refused e => .refused e

/-- The moves `ms`, one after another, from `s`, stopping at the first stop. For statements about
several steps in a given order. -/
def moves : List Move → State → Outcome
  | [], s => .next s
  | m :: ms, s =>
    match move m s with
    | .next t => moves ms t
    | .fault e => .fault e
    | .refused e => .refused e

/-- A write port took `d` (40_fifo_core.md R96): the slot the write cursor names holds `d` and every
other slot is as it was, the cursor and its gray code are advanced mod `n`, and nothing else of the
FIFO changes but the ghosts of R31. -/
def Fifo.stored (n : Nat) (d : Byte) (q q' : Fifo) : Prop :=
  q'.mem.read q.wbin.toNat = some d ∧
    (∀ i, i ≠ q.wbin.toNat → q'.mem.read i = q.mem.read i) ∧
    q'.wbin = BitVec.ofNat 8 ((q.wbin.toNat + 1) % n) ∧
    q'.wgray = q'.wbin ^^^ (q'.wbin >>> 1) ∧
    q'.rbin = q.rbin ∧ q'.rgray = q.rgray ∧ q'.rq1 = q.rq1 ∧ q'.rq2 = q.rq2 ∧
    q'.wq1 = q.wq1 ∧ q'.wq2 = q.wq2 ∧
    q'.ghost = { q.ghost with w := q.ghost.w + 1, puts := q.ghost.puts ++ [d] }

/-- A read port gave a byte (40_fifo_core.md R97): the read cursor and its gray code are advanced mod
`n`, every slot is as it was, and nothing else of the FIFO changes but the ghost of R31. -/
def Fifo.taken (n : Nat) (q q' : Fifo) : Prop :=
  (∀ i, q'.mem.read i = q.mem.read i) ∧
    q'.rbin = BitVec.ofNat 8 ((q.rbin.toNat + 1) % n) ∧
    q'.rgray = q'.rbin ^^^ (q'.rbin >>> 1) ∧
    q'.wbin = q.wbin ∧ q'.wgray = q.wgray ∧ q'.rq1 = q.rq1 ∧ q'.rq2 = q.rq2 ∧
    q'.wq1 = q.wq1 ∧ q'.wq2 = q.wq2 ∧
    q'.ghost = { q.ghost with r := q.ghost.r + 1 }

/-- The read cursor names a slot that exists and holds `v` (00_scope.md R11, 20_memory.md R65). -/
abbrev Fifo.headIs (n : Nat) (v : Byte) (q : Fifo) : Prop :=
  q.rbin.toNat < n ∧ q.mem.read q.rbin.toNat = some v

/-- An outcome of step 2 of an invocation, as 42_interrupt_mask.md R113 names them. -/
inductive Transmit where
  /-- not entered -/
  | none
  /-- "OK+": a pop after which the TX read-side view still holds a byte -/
  | okPlus
  /-- "OK0": a pop that empties it -/
  | ok0
  /-- "BE": `BufferEmpty` -/
  | be
  deriving DecidableEq, Repr

/-- An outcome of step 3 of an invocation, as 42_interrupt_mask.md R113 names them. -/
inductive Receive where
  /-- not entered -/
  | none
  /-- `OK` -/
  | ok
  /-- "RBF": `ReceiveBufferFull` -/
  | rbf
  deriving DecidableEq, Repr

/-- What step 2 comes to in `s`, from the snapshot and the TX read-side view (42_interrupt_mask.md
R113): the pop empties the view when one byte was visible. -/
def transmitOutcome (s : State) : Transmit :=
  if triggeredTx s then
    if dsizeR s .tx = 0 then .be else if dsizeR s .tx = 1 then .ok0 else .okPlus
  else .none

/-- What step 3 comes to in `s` (42_interrupt_mask.md R113). -/
def receiveOutcome (s : State) : Receive :=
  if triggeredRx s then if fullW s .rx then .rbf else .ok else .none

/-- The decision an invocation applies (42_interrupt_mask.md R113). -/
inductive Decision where
  | none
  | mask
  | unmask
  deriving DecidableEq, Repr

/-- One row of the table of 42_interrupt_mask.md R113. -/
structure DecisionRow where
  transmit : Transmit
  receive : Receive
  decision : Decision
  record : Byte
  deriving DecidableEq, Repr

/-- The table of 42_interrupt_mask.md R113. -/
def decisionTable : List DecisionRow :=
  [ ⟨.none, .none, .none, 0x00⟩, ⟨.none, .ok, .unmask, 0x2A⟩, ⟨.none, .rbf, .none, 0x02⟩,
    ⟨.okPlus, .none, .none, 0x01⟩, ⟨.ok0, .none, .mask, 0x15⟩, ⟨.be, .none, .mask, 0x15⟩,
    ⟨.okPlus, .ok, .unmask, 0x2B⟩, ⟨.okPlus, .rbf, .none, 0x03⟩, ⟨.ok0, .ok, .unmask, 0x2F⟩,
    ⟨.ok0, .rbf, .mask, 0x17⟩, ⟨.be, .ok, .unmask, 0x2F⟩, ⟨.be, .rbf, .mask, 0x17⟩ ]

/-- `tx_en` after a decision (42_interrupt_mask.md R112, step 4). -/
def Decision.txEn (before : Bool) : Decision → Bool
  | .none => before
  | .mask => false
  | .unmask => true

/-- The statuses each command returns besides `Illegal` (60_exceptions.md R123). -/
def statusesOf : Instr → List (BitVec 4)
  | .put _ _ => [0x0, 0x1]
  | .get _ => [0x0, 0x2]
  | .empty _ _ => [0x0]
  | .full _ _ => [0x0]
  | .dsize _ _ => [0x0]
  | .outb => [0x0, 0x2, 0x3]
  | .inb => [0x0, 0x4, 0x3]
  | .eni _ => [0x0]
  | .disi _ => [0x0]
  | .trig => [0x0]
  | .stat => [0x0]
  | .hwwr _ => [0x0, 0x3]
  | .hwrd => [0x0, 0x3]
  | .invoke => [0x0]

/-- One round in which TX drains by a byte: the write cursor crosses to the read side, the device
finishes what it has, and the request is serviced (42_interrupt_mask.md R118). -/
def drainRound : List Move :=
  [.agent (.syncW2R .tx), .agent (.syncW2R .tx), .agent .devTxDone, .agent .irq]

/-- An infinite run of the agents from `σ 0`, with `a n` the move taken at `σ n`: an agent's step, or a
foreground command as a word at the port of `FG`, of which there may be endlessly many. Reset begins a
new run (70_reset_and_hazards.md R143), so none is taken in one. The fairness is that of
70_reset_and_hazards.md R162: the `IRQ` step and `DEV_TX_DONE`, if enabled continuously, are eventually
taken, and each synchroniser step is taken infinitely often; `FG` and `DEV_RX` are under none. -/
def FairRun (σ : Nat → State) (a : Nat → Move) : Prop :=
  (∀ n, (a n).ofRun = true ∧ a n ≠ .reset) ∧
    (∀ n, move (a n) (σ n) = .next (σ (n + 1))) ∧
    (∀ f n, ∃ m, n ≤ m ∧ a m = .agent (.syncW2R f)) ∧
    (∀ f n, ∃ m, n ≤ m ∧ a m = .agent (.syncR2W f)) ∧
    (∀ n, (∀ m, n ≤ m → irq (σ m) = true) → ∃ m, n ≤ m ∧ a m = .agent .irq) ∧
    (∀ n, (∀ m, n ≤ m → (σ m).dev.txReady = false) → ∃ m, n ≤ m ∧ a m = .agent .devTxDone)

end Sys2Proof.Machine
end

