-- ==== Sys2Proof/Certificates/Slice0/Obligations.lean ====
section
/-!
DEFINITION. The statements about the block, from the numbered rules of spec/. Each is listed in
OBLIGATIONS.json; a witness that its hypotheses can be met together is in Tests/Slice0.lean.

Throughout, a response word is written data ++ status byte: `v ++ 0x00#8` is `OK` with data `v`, and
0x0001, 0x0002, 0x0003, 0x__04 and 0x000F are the other statuses (30_encoding.md R77, 60_exceptions.md
R120). The response and the issuer are fields of the model (log 5, log 6).
-/

open Sys2Proof Sys2Proof.Machine

/-! ## Encoding -/

/-- 30_encoding.md R95: the words of the commands used most often. -/
def Obligations.WorkedWordsDecode : Prop :=
  decode 0x1041 = some (.put .tx 0x41) ∧ decode 0x1141 = some (.put .rx 0x41) ∧
  decode 0x2000 = some (.get .tx) ∧ decode 0x2100 = some (.get .rx) ∧
  decode 0x3000 = some (.empty .tx .w) ∧ decode 0x3400 = some (.empty .tx .r) ∧
  decode 0x3500 = some (.empty .rx .r) ∧ decode 0x4000 = some (.full .tx .w) ∧
  decode 0x4100 = some (.full .rx .w) ∧ decode 0x5000 = some (.dsize .tx .w) ∧
  decode 0x5500 = some (.dsize .rx .r) ∧ decode 0x6000 = some .outb ∧ decode 0x7000 = some .inb ∧
  decode 0x8000 = some (.eni .tx) ∧ decode 0x8200 = some (.eni .rx) ∧
  decode 0x9000 = some (.disi .tx) ∧ decode 0x9200 = some (.disi .rx) ∧
  decode 0xA000 = some .trig ∧ decode 0xB000 = some .stat ∧ decode 0xC00A = some (.hwwr 0x0A) ∧
  decode 0xD000 = some .hwrd ∧ decode 0xE000 = some .invoke

/-- Every command, with every operand at every value, decodes from its own word (30_encoding.md R76,
R79). -/
def Obligations.DecodeOfEncodeIsTheCommand : Prop := ∀ i : Instr, decode (encode i) = some i

/-- 30_encoding.md R89: every word is exactly one row of R79, and then stands for one command and is
that command's only word, or it is no command. -/
def Obligations.EveryWordIsOneRowOrNoCommand : Prop :=
  ∀ w : Word,
    (∃ r ∈ rows, r.selects w = true ∧ (∀ r' ∈ rows, r'.selects w = true → r' = r) ∧
      ∃ i, decode w = some i ∧ i.mnemonic = r.mnemonic ∧ encode i = w) ∨
    ((∀ r ∈ rows, r.selects w = false) ∧ decode w = none)

/-- The canonical text of a command reads back as that command (30_encoding.md R91, R92), and
`ENQUEUE` expands as R93 says. -/
def Obligations.AssemblerReadsWhatTheDisassemblerWrites : Prop :=
  (∀ i : Instr, disassemble (encode i) = showInstr i ∧
    ((parseAsm (showInstr i)).bind fun a => assemble a.2) = some [encode i]) ∧
  (∀ bs : List Byte, assemble (.enqueue .tx (bs.map BitVec.toNat)) =
    some (bs.map (fun b => 0x10#8 ++ b) ++ [0x8000]))

/-! ## How a word is handled -/

/-- The issuer table of 30_encoding.md R86, from the issuers' side: what `FG`, `DISP` and `IRQ` may
issue; and a command from an issuer the table does not allow is `Illegal`. -/
def Obligations.IssuerTable : Prop :=
  (∀ i, mayIssue .fg i = true ↔
    (∃ d, i = .put .tx d) ∨ i = .get .rx ∨ i = .empty .tx .w ∨ i = .empty .rx .r ∨
      i = .full .tx .w ∨ i = .full .rx .r ∨ i = .dsize .tx .w ∨ i = .dsize .rx .r ∨
      i = .eni .tx ∨ i = .trig ∨ i = .stat) ∧
  (∀ i, mayIssue .disp i = true ↔
    i ≠ .get .rx ∧ i ≠ .empty .rx .r ∧ i ≠ .full .rx .r ∧ i ≠ .dsize .rx .r ∧ i ≠ .invoke) ∧
  (∀ i, mayIssue .irq i = true ↔ i = .invoke) ∧
  (∀ (i : Instr) (s : State), s.params.admitted = true → mayIssue s.issuer i = false →
    exec i s = .next { s with response := some 0x000F, diag := { s.diag with illegal := true } })

/-- One step takes the move at the head of the agenda; with an empty agenda, the free choice (the
model's agenda and free value, log 1 and log 2; 70_reset_and_hazards.md R161 leaves the choice open). -/
def Obligations.StepTakesTheNextMove : Prop :=
  (∀ (s : State) (m : Move) (rest : List Move), s.params.admitted = true → s.agenda = m :: rest →
    step s = move m { s with agenda := rest }) ∧
  (∀ s : State, s.params.admitted = true → s.agenda = [] →
    step s = move (.agent (Config.freeStep s.tick)) { s with tick := s.tick + 1 })

/-- When the word at a port decodes to `i`, the step is `exec i` with that port's issuer; the same for
the next word of the foreground's program, and for the `IRQ` agent while `irq = 1`. -/
def Obligations.StepHandlesTheDecodedCommand : Prop :=
  (∀ (s : State) (who : Issuer) (w : Word) (i : Instr) (rest : List Move),
    s.agenda = .port who w :: rest → decode w = some i →
    step s = exec i { s with agenda := rest, issuer := who }) ∧
  (∀ (s : State) (w : Word) (i : Instr) (rest : List Move) (later : List FgItem),
    s.agenda = .agent .fg :: rest → s.fg.program = .word w :: later → decode w = some i →
    step s = exec i { s with agenda := rest, issuer := .fg, fg := { s.fg with program := later } }) ∧
  (∀ (s : State) (rest : List Move), s.agenda = .agent .irq :: rest → irq s = true →
    step s = exec .invoke { s with agenda := rest, issuer := .irq })

/-- `withFetchWord` places a word so that the next step handles exactly it, at the port of an issuer
that may issue it (log 1, log 5). -/
def Obligations.PlacedWordIsHandledNext : Prop :=
  ∀ (s : State) (w : Word) (i : Instr), decode w = some i →
    decodeTableWord 16 w.toNat = some i ∧ mayIssue (portFor w) i = true ∧
    step (s.withFetchWord 16 w.toNat) = exec i { s with issuer := portFor w }

/-- 60_exceptions.md R122 with 30_encoding.md R87 and R88: a word with a reserved opcode, a word with
a 1 in a bit its row marks 0, and a command its issuer may not issue are answered 0x000F, set
`DIAG.illegal` and change nothing else; and `DIAG.illegal` stays 1 until reset. -/
def Obligations.IllegalWordOnlySetsDiagIllegal : Prop :=
  (∀ (s : State) (who : Issuer) (w : Word) (rest : List Move),
    s.params.admitted = true → s.agenda = .port who w :: rest →
    (fieldOp w = 0x0 ∨ fieldOp w = 0xF ∨
      (∃ r ∈ rows, fieldOp r.pattern = fieldOp w ∧ w &&& r.mask ≠ r.pattern) ∨
      (∃ i, decode w = some i ∧ mayIssue who i = false)) →
    step s = .next { s with agenda := rest, issuer := who, response := some 0x000F,
                            diag := { s.diag with illegal := true } }) ∧
  (∀ (s t : State) (m : Move), m ≠ .reset → s.diag.illegal = true → move m s = .next t →
    t.diag.illegal = true)

/-- A configuration with a log2 capacity outside 1 to 8 is refused by every step and every command. The
range is that of 00_scope.md R7 and 93_implementation_defined.md section 1, which refuses the
configuration, as 70_reset_and_hazards.md R159 does with other capacities; that the refusal is every
step's and every command's is the model's choice (log 4). -/
def Obligations.OtherCapacitiesAreRefused : Prop :=
  ∀ s : State, ¬ (1 ≤ s.params.txLog2 ∧ s.params.txLog2 ≤ 8 ∧ 1 ≤ s.params.rxLog2 ∧
      s.params.rxLog2 ≤ 8) →
    step s = .refused .capacityNotAdmitted ∧ ∀ i, exec i s = .refused .capacityNotAdmitted

/-- 60_exceptions.md R123, 30_encoding.md R77: every command returns one response word, whose bits
7:4 are 0 and whose status is one R123 lists for it, or `Illegal` with data 0 when its issuer may not
issue it. -/
def Obligations.EveryResponseHasAListedStatus : Prop :=
  ∀ (i : Instr) (s t : State), exec i s = .next t →
    (mayIssue s.issuer i = true ∧
      ∃ (d : Byte) (st : BitVec 4), st ∈ statusesOf i ∧ t.response = some (d ++ 0#4 ++ st)) ∨
    (mayIssue s.issuer i = false ∧ t.response = some 0x000F)

/-- No command changes the parameters, the host's foreground or the schedule (00_scope.md R8,
10_state.md R15); the issuer, the agenda and the tick are the model's own (log 1, log 2, log 5). -/
def Obligations.CommandsLeaveTheOutsideAlone : Prop :=
  ∀ (i : Instr) (s t : State), exec i s = .next t →
    t.params = s.params ∧ t.fg = s.fg ∧ t.agenda = s.agenda ∧ t.tick = s.tick ∧
    t.issuer = s.issuer ∧ t.dev.lineOut = s.dev.lineOut

/-! ## The FIFO core -/

/-- 40_fifo_core.md R96, `PUT f, d`: its word, its `BufferFull` case, and its whole effect and frame
otherwise. The read-side views do not change in the step. -/
def Obligations.PutStoresOneByteOrAnswersFull : Prop :=
  (∀ f d, encode (.put f d) = 0b0001000#7 ++ BitVec.ofBool (f == .rx) ++ d) ∧
  (∀ (f : FifoId) (d : Byte) (s : State),
    s.params.admitted = true → mayIssue s.issuer (.put f d) = true →
    (fullW s f = true → exec (.put f d) s = .next { s with response := some 0x0001 }) ∧
    (fullW s f = false → (s.fifo f).wbin.toNat < s.cap f →
      ∃ t, exec (.put f d) s = .next t ∧ t.response = some 0x0000 ∧
        (s.fifo f).stored (s.cap f) d (t.fifo f) ∧
        t = { s.setFifo f (t.fifo f) with response := t.response } ∧
        emptyR t f = emptyR s f ∧ fullR t f = fullR s f ∧ dsizeR t f = dsizeR s f))

/-- 40_fifo_core.md R97, `GET f`: its word, its `BufferEmpty` case, and its whole effect and frame
otherwise. The write-side views do not change in the step. -/
def Obligations.GetTakesOneByteOrAnswersEmpty : Prop :=
  (∀ f, encode (.get f) = 0b0010000#7 ++ BitVec.ofBool (f == .rx) ++ 0x00#8) ∧
  (∀ (f : FifoId) (s : State),
    s.params.admitted = true → mayIssue s.issuer (.get f) = true →
    (emptyR s f = true → exec (.get f) s = .next { s with response := some 0x0002 }) ∧
    (∀ v, emptyR s f = false → (s.fifo f).headIs (s.cap f) v →
      ∃ t, exec (.get f) s = .next t ∧ t.response = some (v ++ 0x00#8) ∧
        (s.fifo f).taken (s.cap f) (t.fifo f) ∧
        t = { s.setFifo f (t.fifo f) with response := t.response } ∧
        emptyW t f = emptyW s f ∧ fullW t f = fullW s f ∧ dsizeW t f = dsizeW s f))

/-- 40_fifo_core.md R98 to R100 with the views of 20_memory.md R56 and R57: `EMPTY`, `FULL` and
`DSIZE` answer `OK` with the view their `s` field selects, and change no state. -/
def Obligations.StatusCommandsReadTheirView : Prop :=
  (∀ f v, encode (.empty f v) =
      0b00110#5 ++ BitVec.ofBool (v == .r) ++ 0#1 ++ BitVec.ofBool (f == .rx) ++ 0x00#8 ∧
    encode (.full f v) =
      0b01000#5 ++ BitVec.ofBool (v == .r) ++ 0#1 ++ BitVec.ofBool (f == .rx) ++ 0x00#8 ∧
    encode (.dsize f v) =
      0b01010#5 ++ BitVec.ofBool (v == .r) ++ 0#1 ++ BitVec.ofBool (f == .rx) ++ 0x00#8) ∧
  (∀ (f : FifoId) (s : State), s.params.admitted = true →
    ∀ (v : Side) (own other : Cursor),
      (match v with
        | .w => own = (s.fifo f).wbin ∧ other = bin (s.fifo f).wq2
        | .r => own = bin (s.fifo f).rq2 ∧ other = (s.fifo f).rbin) →
      (mayIssue s.issuer (.empty f v) = true →
        exec (.empty f v) s =
          .next { s with response := some ((if own = other then 0x01#8 else 0x00#8) ++ 0x00#8) }) ∧
      (mayIssue s.issuer (.full f v) = true →
        exec (.full f v) s =
          .next { s with
            response := some
              ((if BitVec.ofNat 8 ((own.toNat + 1) % s.cap f) = other then 0x01#8 else 0x00#8) ++
                0x00#8) }) ∧
      (mayIssue s.issuer (.dsize f v) = true →
        ∃ size : Nat, size < s.cap f ∧
          (size : Int) = ((own.toNat : Int) - (other.toNat : Int)) % (s.cap f : Int) ∧
          exec (.dsize f v) s =
            .next { s with response := some (BitVec.ofNat 8 size ++ 0x00#8) }))

/-- A cursor that names no slot, and a slot that was never written, stop `PUT` and `GET` with a
fault: 20_memory.md R34 has no such slot, and 93_implementation_defined.md gives `fault` for a read of
`⊥` (the model's choice of stop, log 9 and log 10; no reachable state does either). -/
def Obligations.SlotsThatCannotBeReadStop : Prop :=
  ∀ (f : FifoId) (s : State), s.params.admitted = true →
    (∀ d, mayIssue s.issuer (.put f d) = true → fullW s f = false →
      s.cap f ≤ (s.fifo f).wbin.toNat →
      exec (.put f d) s = .fault (.slotOutOfRange f (s.fifo f).wbin.toNat)) ∧
    (mayIssue s.issuer (.get f) = true → emptyR s f = false →
      (s.cap f ≤ (s.fifo f).rbin.toNat →
        exec (.get f) s = .fault (.slotOutOfRange f (s.fifo f).rbin.toNat)) ∧
      ((s.fifo f).rbin.toNat < s.cap f → (s.fifo f).mem.read (s.fifo f).rbin.toNat = none →
        exec (.get f) s = .fault (.slotUnwritten f (s.fifo f).rbin.toNat)))

/-- 20_memory.md R47 and R69: a cursor moves only by `inc_N`; the write cursor only in `PUT` of that
FIFO, `INB` and `INVOKE`, the read cursor only in `GET` of that FIFO, `OUTB` (TX) and `INVOKE` (TX). -/
def Obligations.CursorsMoveOnlyByOne : Prop :=
  ∀ (i : Instr) (f : FifoId) (s t : State), exec i s = .next t →
    ((t.fifo f).wbin = (s.fifo f).wbin ∨
      ((t.fifo f).wbin = BitVec.ofNat 8 (((s.fifo f).wbin.toNat + 1) % s.cap f) ∧
        ((∃ d, i = .put f d) ∨ i = .inb ∨ i = .invoke))) ∧
    ((t.fifo f).rbin = (s.fifo f).rbin ∨
      ((t.fifo f).rbin = BitVec.ofNat 8 (((s.fifo f).rbin.toNat + 1) % s.cap f) ∧
        (i = .get f ∨ (f = .tx ∧ (i = .outb ∨ i = .invoke)))))

/-- 70_reset_and_hazards.md R151: no word from the foreground moves TX's read cursor, RX's write
cursor, a device register or the receive mask, or masks transmit-ready; no word from the dispatcher or
the interrupt logic moves RX's read cursor. -/
def Obligations.EachContextKeepsToItsPorts : Prop :=
  ∀ (i : Instr) (s t : State), exec i s = .next t →
    (s.issuer = .fg →
      t.tx.rbin = s.tx.rbin ∧ t.rx.wbin = s.rx.wbin ∧ t.rx.mem = s.rx.mem ∧ t.dev = s.dev ∧
      t.ier.rxEn = s.ier.rxEn ∧ (s.ier.txEn = true → t.ier.txEn = true)) ∧
    (s.issuer ≠ .fg → t.rx.rbin = s.rx.rbin ∧ t.rx.rgray = s.rx.rgray)

/-! ## Transport and device port -/

/-- 41_transport.md R103, `OUTB`: the device is tested first, then the view; otherwise the oldest
visible TX byte goes to the device. -/
def Obligations.OutbMovesOneByteToTheDevice : Prop :=
  encode .outb = 0x6000 ∧
  (∀ s : State, s.params.admitted = true → mayIssue s.issuer .outb = true →
    (s.dev.txReady = false → exec .outb s = .next { s with response := some 0x0003 }) ∧
    (s.dev.txReady = true → emptyR s .tx = true →
      exec .outb s = .next { s with response := some 0x0002 }) ∧
    (∀ v, s.dev.txReady = true → emptyR s .tx = false → s.tx.headIs (s.cap .tx) v →
      ∃ t, exec .outb s = .next t ∧ t.response = some (v ++ 0x00#8) ∧
        s.tx.taken (s.cap .tx) t.tx ∧
        t.dev = { s.dev with tdr := some v, txReady := false } ∧
        t = { s with tx := t.tx, dev := t.dev, response := t.response }))

/-- 41_transport.md R104, `INB`: the device is tested first and read; a byte that RX has no room for
is dropped and not echoed; otherwise it is stored in RX, and with `ECHO` in TX too or, when TX shows
no room, the echo alone is dropped. -/
def Obligations.InbMovesOneByteFromTheDevice : Prop :=
  encode .inb = 0x7000 ∧
  (∀ s : State, s.params.admitted = true → mayIssue s.issuer .inb = true →
    (s.dev.rxReady = false → exec .inb s = .next { s with response := some 0x0003 }) ∧
    (∀ b, s.dev.rxReady = true → s.dev.rdr = some b →
      (fullW s .rx = true →
        exec .inb s = .next { s with dev := { s.dev with rxReady := false },
                                     diag := { s.diag with rxDrop := true },
                                     response := some (b ++ 0x04#8) }) ∧
      (fullW s .rx = false → s.rx.wbin.toNat < s.cap .rx →
        (s.params.echo = false →
          ∃ t, exec .inb s = .next t ∧ t.response = some (b ++ 0x00#8) ∧
            s.rx.stored (s.cap .rx) b t.rx ∧
            t = { s with rx := t.rx, dev := { s.dev with rxReady := false },
                         response := t.response }) ∧
        (s.params.echo = true → fullW s .tx = true →
          ∃ t, exec .inb s = .next t ∧ t.response = some (b ++ 0x00#8) ∧
            s.rx.stored (s.cap .rx) b t.rx ∧
            t = { s with rx := t.rx, dev := { s.dev with rxReady := false },
                         diag := { s.diag with echoDrop := true }, response := t.response }) ∧
        (s.params.echo = true → fullW s .tx = false → s.tx.wbin.toNat < s.cap .tx →
          ∃ t, exec .inb s = .next t ∧ t.response = some (b ++ 0x00#8) ∧
            s.rx.stored (s.cap .rx) b t.rx ∧ s.tx.stored (s.cap .tx) b t.tx ∧
            t = { s with rx := t.rx, tx := t.tx, dev := { s.dev with rxReady := false },
                         response := t.response }))))

/-- 41_transport.md R105, `HWWR d`. -/
def Obligations.HwwrHandsTheByteToTheDevice : Prop :=
  (∀ d, encode (.hwwr d) = 0xC0#8 ++ d) ∧
  (∀ (d : Byte) (s : State), s.params.admitted = true → mayIssue s.issuer (.hwwr d) = true →
    (s.dev.txReady = false → exec (.hwwr d) s = .next { s with response := some 0x0003 }) ∧
    (s.dev.txReady = true →
      exec (.hwwr d) s = .next { s with dev := { s.dev with tdr := some d, txReady := false },
                                        response := some 0x0000 }))

/-- 41_transport.md R106, `HWRD`: `dev.rdr` keeps its value. -/
def Obligations.HwrdTakesTheReceivedByte : Prop :=
  encode .hwrd = 0xD000 ∧
  (∀ s : State, s.params.admitted = true → mayIssue s.issuer .hwrd = true →
    (s.dev.rxReady = false → exec .hwrd s = .next { s with response := some 0x0003 }) ∧
    (∀ v, s.dev.rxReady = true → s.dev.rdr = some v →
      exec .hwrd s = .next { s with dev := { s.dev with rxReady := false },
                                    response := some (v ++ 0x00#8) }))

/-! ## Interrupt mask -/

/-- 42_interrupt_mask.md R108, `ENI e`: sets the one bit and nothing else. -/
def Obligations.EniUnmasksOneEvent : Prop :=
  (encode (.eni .tx) = 0x8000 ∧ encode (.eni .rx) = 0x8200) ∧
  (∀ s : State, s.params.admitted = true →
    (mayIssue s.issuer (.eni .tx) = true →
      exec (.eni .tx) s = .next { s with ier := { s.ier with txEn := true },
                                         response := some 0x0000 }) ∧
    (mayIssue s.issuer (.eni .rx) = true →
      exec (.eni .rx) s = .next { s with ier := { s.ier with rxEn := true },
                                         response := some 0x0000 }))

/-- 42_interrupt_mask.md R109, `DISI e`: clears the one bit and nothing else. -/
def Obligations.DisiMasksOneEvent : Prop :=
  (encode (.disi .tx) = 0x9000 ∧ encode (.disi .rx) = 0x9200) ∧
  (∀ s : State, s.params.admitted = true →
    (mayIssue s.issuer (.disi .tx) = true →
      exec (.disi .tx) s = .next { s with ier := { s.ier with txEn := false },
                                          response := some 0x0000 }) ∧
    (mayIssue s.issuer (.disi .rx) = true →
      exec (.disi .rx) s = .next { s with ier := { s.ier with rxEn := false },
                                          response := some 0x0000 }))

/-- 42_interrupt_mask.md R110, `TRIG`: bit 0 transmit-ready and unmasked, bit 1 receive-ready and
unmasked; nonzero exactly when `irq = 1`; no state changes. -/
def Obligations.TrigReadsTheTriggeredSet : Prop :=
  encode .trig = 0xA000 ∧
  (∀ s : State, s.params.admitted = true → mayIssue s.issuer .trig = true →
    ∃ b : Byte, exec .trig s = .next { s with response := some (b ++ 0x00#8) } ∧
      b.getLsbD 0 = (s.dev.txReady && s.ier.txEn) ∧ b.getLsbD 1 = (s.dev.rxReady && s.ier.rxEn) ∧
      (∀ j, 2 ≤ j → b.getLsbD j = false) ∧ (b ≠ 0 ↔ irq s = true))

/-- 42_interrupt_mask.md R111, `STAT`: the eight status bits; no state changes. -/
def Obligations.StatReadsTheStatusByte : Prop :=
  encode .stat = 0xB000 ∧
  (∀ s : State, s.params.admitted = true → mayIssue s.issuer .stat = true →
    ∃ b : Byte, exec .stat s = .next { s with response := some (b ++ 0x00#8) } ∧
      b.getLsbD 0 = s.ier.txEn ∧ b.getLsbD 1 = s.ier.rxEn ∧ b.getLsbD 2 = s.dev.txReady ∧
      b.getLsbD 3 = s.dev.rxReady ∧ b.getLsbD 4 = s.diag.rxDrop ∧ b.getLsbD 5 = s.diag.echoDrop ∧
      b.getLsbD 6 = s.diag.illegal ∧
      b.getLsbD 7 = ((s.dev.txReady && s.ier.txEn) || (s.dev.rxReady && s.ier.rxEn)))

/-- 42_interrupt_mask.md R112, `INVOKE`, in a state of the invariant: the snapshot; then `OUTB` as
`DISP` if transmit-ready was triggered; then `INB` as `DISP` if receive-ready was; then at most one
change of `tx_en`, unmask first; and the record. Nothing else changes. -/
def Obligations.InvokeIsOutbThenInbThenOneDecision : Prop :=
  encode .invoke = 0xE000 ∧
  (∀ s : State, s.Inv → s.issuer = .irq →
    ∃ t u : State, ∃ evTx evRx pm pu : Bool,
      evTx = (s.dev.txReady && s.ier.txEn) ∧ evRx = (s.dev.rxReady && s.ier.rxEn) ∧
      (evTx = true → exec .outb { s with issuer := .disp } = .next t) ∧ (evTx = false → t = s) ∧
      (evRx = true → exec .inb { t with issuer := .disp } = .next u) ∧ (evRx = false → u = t) ∧
      (pm = true ↔ evTx = true ∧ (t.response = some 0x0002 ∨ emptyR t .tx = true)) ∧
      (pu = true ↔ evRx = true ∧ ∃ b : Byte, u.response = some (b ++ 0x00#8)) ∧
      exec .invoke s = .next
        { u with
          ier := { s.ier with txEn := if pu then true else if pm then false else s.ier.txEn }
          issuer := .irq
          response := some (0b00#2 ++ BitVec.ofBool pu ++ BitVec.ofBool (pm && !pu) ++
            BitVec.ofBool pu ++ BitVec.ofBool pm ++ BitVec.ofBool evRx ++ BitVec.ofBool evTx ++
            0x00#8) })

/-- 42_interrupt_mask.md R113: in a state of the invariant exactly one row of the decision table
applies, and an invocation gives that row's record and applies that row's decision. -/
def Obligations.InvokeFollowsTheDecisionTable : Prop :=
  ∀ s : State, s.Inv → s.issuer = .irq →
    ∃ row ∈ decisionTable, row.transmit = transmitOutcome s ∧ row.receive = receiveOutcome s ∧
      (∀ row' ∈ decisionTable,
        row'.transmit = transmitOutcome s → row'.receive = receiveOutcome s → row' = row) ∧
      ∃ t, exec .invoke s = .next t ∧ t.response = some (row.record ++ 0x00#8) ∧
        t.ier.txEn = row.decision.txEn s.ier.txEn ∧ t.ier.rxEn = s.ier.rxEn

/-- 42_interrupt_mask.md R119 and 20_memory.md R42: no command moves more than one byte out of a FIFO
or into one, and a byte that one command puts into both is the same byte; the byte an invocation takes
out of TX goes to the device, and the byte it puts into RX comes from the device. -/
def Obligations.OneByteAtATime : Prop :=
  ∀ (i : Instr) (s t : State), exec i s = .next t →
    (∀ f, (t.fifo f).ghost.r = (s.fifo f).ghost.r ∨
      (t.fifo f).ghost.r = (s.fifo f).ghost.r + 1) ∧
    (∀ f, (t.fifo f).ghost.puts = (s.fifo f).ghost.puts ∨
      ∃ b, (t.fifo f).ghost.puts = (s.fifo f).ghost.puts ++ [b]) ∧
    (∀ b, t.rx.ghost.puts = s.rx.ghost.puts ++ [b] →
      t.tx.ghost.puts = s.tx.ghost.puts ∨ t.tx.ghost.puts = s.tx.ghost.puts ++ [b]) ∧
    (i = .invoke →
      (t.tx.ghost.r = s.tx.ghost.r + 1 →
        s.tx.mem.read s.tx.rbin.toNat = t.dev.tdr ∧ t.dev.txReady = false) ∧
      (∀ b, t.rx.ghost.puts = s.rx.ghost.puts ++ [b] →
        s.dev.rdr = some b ∧ s.dev.rxReady = true ∧ t.dev.rxReady = false))

/-- 60_exceptions.md R133: after an invocation either `irq = 0`, or it applied UNMASK while `ev_rx`
was 1 and has taken the byte; and after a second one, with no other agent moving, `irq = 0`. -/
def Obligations.AtMostTwoInvocationsInARow : Prop :=
  ∀ s : State, s.Inv → irq s = true →
    ∃ t, move (.agent .irq) s = .next t ∧
      (irq t = false ∨
        (triggeredRx s = true ∧ t.ier.txEn = true ∧ t.dev.rxReady = false)) ∧
      ∃ u, move (.agent .irq) t = .next u ∧ irq u = false

/-- 42_interrupt_mask.md R116: in a run of the agents, transmit-ready is masked only by an invocation
or by reset, and unmasked only by an invocation, the arrival re-arm or a foreground word. -/
def Obligations.OnlyTheseEventsChangeTheMask : Prop :=
  ∀ (m : Move) (s t : State), m.ofRun = true → move m s = .next t →
    (s.ier.txEn = true → t.ier.txEn = false → m = .agent .irq ∨ m = .reset) ∧
    (s.ier.txEn = false → t.ier.txEn = true →
      m = .agent .irq ∨ m = .agent (.syncW2R .tx) ∨ m = .agent .fg ∨ m = .port .fg 0x8000) ∧
    (s.ier.rxEn = true → t.ier.rxEn = true)

/-! ## The synchronisers -/

/-- 20_memory.md R52 and 42_interrupt_mask.md R114: `SYNC_W2R(f)` shifts the write cursor's gray code
one stage, and re-arms transmit-ready exactly when the TX read side's view of it changes, which in a
state of the invariant shows a byte then. -/
def Obligations.SyncW2RShiftsAndReArms : Prop :=
  ∀ (f : FifoId) (s : State), ∃ t, move (.agent (.syncW2R f)) s = .next t ∧
    t.fifo f = { s.fifo f with
      rq1 := (s.fifo f).wgray
      rq2 := (s.fifo f).rq1
      ghost := { (s.fifo f).ghost with
        wq1 := (s.fifo f).ghost.w
        wq2 := (s.fifo f).ghost.wq1 } } ∧
    t.ier.txEn = (s.ier.txEn || (f == .tx && bin t.tx.rq2 != bin s.tx.rq2)) ∧
    t.ier.rxEn = s.ier.rxEn ∧
    t = { s.setFifo f (t.fifo f) with ier := t.ier, response := none } ∧
    (s.Inv → bin t.tx.rq2 ≠ bin s.tx.rq2 → emptyR t .tx = false)

/-- 20_memory.md R53: `SYNC_R2W(f)` shifts the read cursor's gray code one stage, and changes nothing
else. -/
def Obligations.SyncR2WShifts : Prop :=
  ∀ (f : FifoId) (s : State), ∃ t, move (.agent (.syncR2W f)) s = .next t ∧
    t.fifo f = { s.fifo f with
      wq1 := (s.fifo f).rgray
      wq2 := (s.fifo f).wq1
      ghost := { (s.fifo f).ghost with
        rq1 := (s.fifo f).ghost.r
        rq2 := (s.fifo f).ghost.rq1 } } ∧
    t = { s.setFifo f (t.fifo f) with response := none }

/-- 70_reset_and_hazards.md R150: the byte of a successful `PUT` is visible to the read side exactly
at the second `SYNC_W2R` after it, and the slot of a successful `GET` to the write side exactly at the
second `SYNC_R2W`. -/
def Obligations.ChangesCrossAtTheSecondSync : Prop :=
  (∀ (f : FifoId) (d : Byte) (s t : State), s.Inv → exec (.put f d) s = .next t →
    t.response = some 0x0000 →
    ∃ u v, move (.agent (.syncW2R f)) t = .next u ∧ move (.agent (.syncW2R f)) u = .next v ∧
      dsizeR t f < occ t f ∧ dsizeR u f < occ u f ∧ dsizeR v f = occ v f ∧ occ v f = occ t f) ∧
  (∀ (f : FifoId) (b : Byte) (s t : State), s.Inv → exec (.get f) s = .next t →
    t.response = some (b ++ 0x00#8) →
    ∃ u v, move (.agent (.syncR2W f)) t = .next u ∧ move (.agent (.syncR2W f)) u = .next v ∧
      occ t f < dsizeW t f ∧ occ u f < dsizeW u f ∧ dsizeW v f = occ v f ∧ occ v f = occ t f)

/-- 20_memory.md R49 and R50: the two conversions, `bin` undoes `gray`, and one step of a cursor
changes one bit of its gray code, at the wrap too. A k-bit value stands in 8 bits (log 8). -/
def Obligations.GrayCodeChangesOneBitAStep : Prop :=
  (∀ b : Cursor, gray b = b ^^^ (b >>> 1) ∧ bin (gray b) = b) ∧
  (∀ g : Cursor, ∀ i < 8, (bin g).getLsbD i = ((bin g).getLsbD (i + 1) ^^ g.getLsbD i)) ∧
  (∀ k ∈ [1, 2, 3, 4, 5, 6, 7, 8],
    gray (BitVec.ofNat 8 (2 ^ k - 1)) = BitVec.ofNat 8 (2 ^ (k - 1)) ∧ gray 0 = 0) ∧
  (∀ k ∈ [1, 2, 3, 4, 5, 6, 7, 8], ∀ b : Cursor, b.toNat < 2 ^ k →
    ∃ j < k, gray (inc (2 ^ k) b) ^^^ gray b = BitVec.ofNat 8 (2 ^ j))

/-! ## The device and the interrupt request -/

/-- 60_exceptions.md R136 and R137: the device's two steps, each only while enabled; a pick of a
disabled one is dropped (the model's choice, log 3). -/
def Obligations.DeviceStepsWhenEnabled : Prop :=
  (∀ (s : State) (b : Byte), s.dev.txReady = false → s.dev.tdr = some b →
    move (.agent .devTxDone) s =
      .next { s with dev := { s.dev with lineOut := s.dev.lineOut ++ [b], txReady := true },
                     response := none }) ∧
  (∀ (s : State) (b : Byte), s.dev.rxReady = false →
    move (.agent (.devRxArrive b)) s =
      .next { s with dev := { s.dev with rdr := some b, rxReady := true }, response := none }) ∧
  (∀ s : State, s.dev.txReady = true →
    move (.agent .devTxDone) s = .next { s with response := none }) ∧
  (∀ (s : State) (b : Byte), s.dev.rxReady = true →
    move (.agent (.devRxArrive b)) s = .next { s with response := none })

/-- 60_exceptions.md R138: after reset only the device's steps set its ready flags, and only the
commands that use the device clear them. -/
def Obligations.OnlyTheDeviceSetsItsReadyFlags : Prop :=
  (∀ (m : Move) (s t : State), move m s = .next t →
    (s.dev.txReady = false → t.dev.txReady = true → m = .agent .devTxDone ∨ m = .reset) ∧
    (s.dev.rxReady = false → t.dev.rxReady = true → ∃ b, m = .agent (.devRxArrive b))) ∧
  (∀ (i : Instr) (s t : State), exec i s = .next t →
    (s.dev.txReady = true → t.dev.txReady = false →
      i = .outb ∨ (∃ d, i = .hwwr d) ∨ i = .invoke) ∧
    (s.dev.rxReady = true → t.dev.rxReady = false → i = .inb ∨ i = .hwrd ∨ i = .invoke))

/-- 60_exceptions.md R126 with 10_state.md R28: the `IRQ` agent invokes the dispatcher exactly while
`irq = 1`; otherwise its pick is dropped (the model's choice, log 3). -/
def Obligations.IrqAgentInvokesOnlyWhileRequested : Prop :=
  ∀ s : State,
    ((s.dev.txReady = true ∧ s.ier.txEn = true) ∨ (s.dev.rxReady = true ∧ s.ier.rxEn = true) →
      move (.agent .irq) s = exec .invoke { s with issuer := .irq }) ∧
    (¬ ((s.dev.txReady = true ∧ s.ier.txEn = true) ∨ (s.dev.rxReady = true ∧ s.ier.rxEn = true)) →
      move (.agent .irq) s = .next { s with response := none })

/-- 10_state.md R27: the `DIAG` flags are sticky, cleared only by reset; a command sets `rx_drop` or
`echo_drop` only through `INB`, and `illegal` exactly when its issuer may not issue it. -/
def Obligations.DiagFlagsAreSticky : Prop :=
  (∀ (m : Move) (s t : State), m ≠ .reset → move m s = .next t →
    (s.diag.rxDrop = true → t.diag.rxDrop = true) ∧
    (s.diag.echoDrop = true → t.diag.echoDrop = true) ∧
    (s.diag.illegal = true → t.diag.illegal = true)) ∧
  (∀ (i : Instr) (s t : State), exec i s = .next t →
    (t.diag.rxDrop = true → s.diag.rxDrop = true ∨ i = .inb ∨ i = .invoke) ∧
    (t.diag.echoDrop = true → s.diag.echoDrop = true ∨ i = .inb ∨ i = .invoke) ∧
    (t.diag.illegal = true ↔ s.diag.illegal = true ∨ mayIssue s.issuer i = false))

/-! ## Reset -/

/-- 70_reset_and_hazards.md R144: the state after reset, and the derived values that follow. -/
def Obligations.ResetLeavesTheTable : Prop :=
  (∀ f, (∀ i, (State.reset.fifo f).mem.read i = none) ∧
    (State.reset.fifo f).wbin = 0 ∧ (State.reset.fifo f).wgray = 0 ∧
    (State.reset.fifo f).rbin = 0 ∧ (State.reset.fifo f).rgray = 0 ∧
    (State.reset.fifo f).rq1 = 0 ∧ (State.reset.fifo f).rq2 = 0 ∧
    (State.reset.fifo f).wq1 = 0 ∧ (State.reset.fifo f).wq2 = 0 ∧
    (State.reset.fifo f).ghost.w = 0 ∧ (State.reset.fifo f).ghost.r = 0 ∧
    (State.reset.fifo f).ghost.wq1 = 0 ∧ (State.reset.fifo f).ghost.wq2 = 0 ∧
    (State.reset.fifo f).ghost.rq1 = 0 ∧ (State.reset.fifo f).ghost.rq2 = 0 ∧
    ∀ v, emptyView State.reset f v = true ∧ fullView State.reset f v = false ∧
      dsizeView State.reset f v = 0) ∧
  State.reset.ier.txEn = false ∧ State.reset.ier.rxEn = true ∧
  State.reset.dev.txReady = true ∧ State.reset.dev.tdr = none ∧
  State.reset.dev.rxReady = false ∧ State.reset.dev.rdr = none ∧ State.reset.dev.lineOut = [] ∧
  State.reset.diag.rxDrop = false ∧ State.reset.diag.echoDrop = false ∧
  State.reset.diag.illegal = false ∧ irq State.reset = false ∧ statByte State.reset = 0x06

/-- 70_reset_and_hazards.md R143 and R145: the reset event gives every element of R13 its reset value
at once, and keeps the parameters and the host's foreground program. -/
def Obligations.ResetEventResetsTheWholeBlock : Prop :=
  ∀ s : State, ∃ t, move .reset s = .next t ∧ t.CleanReset ∧ t.params = s.params ∧ t.fg = s.fg

/-- 70_reset_and_hazards.md R149: `CleanReset` means that no refusal is recorded, nothing is in
flight, and no byte is pending at the device. -/
def Obligations.CleanResetMeansNothingPending : Prop :=
  ∀ s : State, s.CleanReset →
    s.diag.rxDrop = false ∧ s.diag.echoDrop = false ∧ s.diag.illegal = false ∧
    (∀ f, (s.fifo f).rq1 = gray (s.fifo f).wbin ∧ (s.fifo f).rq2 = gray (s.fifo f).wbin ∧
      (s.fifo f).wq1 = gray (s.fifo f).rbin ∧ (s.fifo f).wq2 = gray (s.fifo f).rbin) ∧
    s.dev.rxReady = false ∧ s.dev.txReady = true

/-! ## Invariants -/

/-- Reset meets both invariants. -/
def Obligations.ResetMeetsTheInvariants : Prop := State.reset.Inv ∧ State.reset.RunInv

/-- 20_memory.md R63: the invariant of the block (the ghost chain, every cursor and stage, the
canonical arrays, the unread bytes, the device registers) is kept by every step of every agent, every
word at every port, and reset. -/
def Obligations.EveryStepKeepsTheInvariant : Prop :=
  ∀ s t : State, s.Inv → step s = .next t → t.Inv

/-- 60_exceptions.md R121 with 20_memory.md R65: from a state of the invariant the block never stops;
no slot and no device register is read while it is `⊥`. -/
def Obligations.NoStepStopsFromTheInvariant : Prop :=
  ∀ s : State, s.Inv → (∃ t, step s = .next t) ∧ ∀ i, ∃ t, exec i s = .next t

/-- The invariant of the runs of the agents is kept by every step (10_state.md R24,
42_interrupt_mask.md R117, R118). -/
def Obligations.EveryStepKeepsTheRunInvariant : Prop :=
  ∀ s t : State, s.RunInv → step s = .next t → t.RunInv

/-- 20_memory.md R66 and R67: the views are conservative, and the converses fail. -/
def Obligations.ViewsAreConservative : Prop :=
  (∀ (s : State) (f : FifoId), s.Inv →
    occ s f = (s.fifo f).ghost.w - (s.fifo f).ghost.r ∧
    dsizeR s f ≤ occ s f ∧ occ s f ≤ dsizeW s f ∧ dsizeW s f ≤ s.cap f - 1 ∧
    (emptyR s f = false → 1 ≤ occ s f) ∧ (fullW s f = false → occ s f ≤ s.cap f - 2) ∧
    (fullR s f = true → occ s f = s.cap f - 1) ∧ (emptyW s f = true → occ s f = 0)) ∧
  (∃ s : State, s.Inv ∧ emptyR s .tx = true ∧ 1 ≤ occ s .tx) ∧
  (∃ s : State, s.Inv ∧ fullW s .tx = true ∧ occ s .tx < s.cap .tx - 1)

/-- 20_memory.md R64: before a successful `PUT` at most N - 2 bytes are unread, and no unread byte's
slot changes. -/
def Obligations.PutNeverOverwritesAnUnreadByte : Prop :=
  ∀ (f : FifoId) (d : Byte) (s t : State), s.Inv → exec (.put f d) s = .next t →
    (t.response = some 0x0000 → (s.fifo f).ghost.w - (s.fifo f).ghost.r ≤ s.cap f - 2) ∧
    ∀ j, (s.fifo f).ghost.r ≤ j → j < (s.fifo f).ghost.w →
      (t.fifo f).mem.read (j % s.cap f) = (s.fifo f).mem.read (j % s.cap f)

/-- 20_memory.md R61: the successful `GET` after `r` others returns the byte of the successful `PUT`
after `r` others, and a successful `PUT` adds its byte at the end. -/
def Obligations.BytesLeaveInTheOrderTheyEntered : Prop :=
  (∀ (f : FifoId) (s : State), s.Inv → mayIssue s.issuer (.get f) = true → emptyR s f = false →
    ∃ t v, exec (.get f) s = .next t ∧ (s.fifo f).ghost.puts[(s.fifo f).ghost.r]? = some v ∧
      t.response = some (v ++ 0x00#8) ∧ (t.fifo f).ghost.r = (s.fifo f).ghost.r + 1 ∧
      (t.fifo f).ghost.puts = (s.fifo f).ghost.puts) ∧
  (∀ (f : FifoId) (d : Byte) (s : State), s.Inv → mayIssue s.issuer (.put f d) = true →
    fullW s f = false →
    ∃ t, exec (.put f d) s = .next t ∧ (t.fifo f).ghost.puts = (s.fifo f).ghost.puts ++ [d] ∧
      (t.fifo f).ghost.w = (s.fifo f).ghost.w + 1)

/-- 10_state.md R31 and R32 with R26: no step reads the ghosts, `line_out` or an earlier response. The
ghost `puts` and the field that holds the response are the model's own (log 6, log 7). -/
def Obligations.NoStepReadsGhostsOrObservations : Prop :=
  ∀ s : State,
    mapNext State.observable (step s) = mapNext State.observable (step s.observable)

/-- 70_reset_and_hazards.md R155: with `ECHO` and room in RX, the byte reaches RX and `INB` answers
`OK`; the echo is stored exactly when the TX write-side view shows at most N - 2 bytes, and is dropped
with `DIAG.echo_drop` otherwise, whatever the true occupancy. -/
def Obligations.EchoNeedsRoomInTheWriteSideView : Prop :=
  ∀ s : State, s.Inv → s.issuer = .disp → s.params.echo = true → s.dev.rxReady = true →
    fullW s .rx = false →
    ∃ t b, exec .inb s = .next t ∧ s.dev.rdr = some b ∧ t.response = some (b ++ 0x00#8) ∧
      t.rx.ghost.puts = s.rx.ghost.puts ++ [b] ∧
      (dsizeW s .tx < s.cap .tx - 1 →
        t.tx.ghost.puts = s.tx.ghost.puts ++ [b] ∧ t.diag = s.diag) ∧
      (¬ dsizeW s .tx < s.cap .tx - 1 →
        t.tx = s.tx ∧ t.diag = { s.diag with echoDrop := true })

/-! ## Runs -/

/-- 42_interrupt_mask.md R117: in a run, a non-empty TX with transmit-ready masked has a byte in
flight, and two `SYNC_W2R(TX)` steps unmask it. -/
def Obligations.MaskedNonEmptyTxIsReArmed : Prop :=
  ∀ s : State, s.RunInv → s.ier.txEn = false → 0 < occ s .tx →
    s.tx.ghost.wq2 < s.tx.ghost.w ∧
    ∃ t, moves [.agent (.syncW2R .tx), .agent (.syncW2R .tx)] s = .next t ∧ t.ier.txEn = true

/-- Every byte in TX is on the line, in put order, after one drain round for each of them and one last
`DEV_TX_DONE`, whatever waits at the device at the start (42_interrupt_mask.md R118, bounded). -/
def Obligations.DrainRoundsSendEveryByte : Prop :=
  ∀ s : State, s.RunInv →
    ∃ t, moves ((List.replicate (occ s .tx) drainRound).flatten ++ [.agent .devTxDone]) s = .next t ∧
      s.tx.ghost.puts <+: t.dev.lineOut

/-- 42_interrupt_mask.md R118: in a fair run of the agents, whatever the foreground goes on issuing, every byte stored in TX eventually appears
in `line_out`, in put order. -/
def Obligations.FairRunsSendEveryByte : Prop :=
  ∀ (σ : Nat → State) (a : Nat → Move), (σ 0).RunInv → FairRun σ a →
    ∀ n, ∃ m, n ≤ m ∧ (σ n).tx.ghost.puts <+: (σ m).dev.lineOut

/-- 70_reset_and_hazards.md R163: in a quiescent state of a run, TX is empty, every byte ever stored
in TX is in `line_out` in order, and no agent's step but a byte arrival changes anything: a synchroniser
step is one that changes nothing, and a pick of `FG`, `IRQ` or `DEV_TX`, whose steps are not enabled
there, is dropped (the model's choice, log 3). -/
def Obligations.QuiescentMeansEverythingSent : Prop :=
  ∀ s : State, s.RunInv → s.Quiescent →
    occ s .tx = 0 ∧ s.dev.lineOut = s.tx.ghost.puts ∧
    ∀ a : Config.AgentStep, (∀ b, a ≠ .devRxArrive b) →
      move (.agent a) s = .next { s with response := none }

/-- 70_reset_and_hazards.md R163 with 42_interrupt_mask.md R117: a fair run whose foreground has no
next command and whose device delivers nothing more from `n` on reaches a quiescent state, with
transmit-ready masked, and stays in quiescent states. The agenda is the model's own (log 1). -/
def Obligations.FairRunsBecomeQuiescent : Prop :=
  ∀ (σ : Nat → State) (a : Nat → Move) (n : Nat), (σ 0).RunInv → FairRun σ a →
    (σ n).awaitsNothing → (∀ m, n ≤ m → (a m).fromOutside = false) →
    ∃ m, n ≤ m ∧ ∀ m', m ≤ m' → (σ m').Quiescent ∧ (σ m').ier.txEn = false

/-- 41_transport.md R107, one step of an `ENQUEUE` at a time, with any other agent free to move
between: a `PUT` that is answered `BufferFull` ends the puts, and `ENI TX` always follows. -/
def Obligations.EnqueueStopsAtTheFirstFull : Prop :=
  ∀ (s : State) (stored : Nat) (later : List FgItem), s.params.admitted = true →
    (∀ b rest, s.fg.program = .enqueue stored (b :: rest) :: later →
      (fullW s .tx = true →
        move (.agent .fg) s =
          .next { s with issuer := .fg, response := some 0x0001,
                         fg := { s.fg with program := .enqueue stored [] :: later } }) ∧
      (fullW s .tx = false → s.tx.wbin.toNat < s.cap .tx →
        ∃ t, move (.agent .fg) s = .next t ∧ s.tx.stored (s.cap .tx) b t.tx ∧
          t = { s with tx := t.tx, issuer := .fg, response := some 0x0000,
                       fg := { s.fg with program := .enqueue (stored + 1) rest :: later } })) ∧
    (s.fg.program = .enqueue stored [] :: later →
      move (.agent .fg) s =
        .next { s with issuer := .fg, response := some 0x0000,
                       ier := { s.ier with txEn := true },
                       fg := { program := later, stored := stored } })

/-- A whole `ENQUEUE` with no other agent moving (41_transport.md R107): the bytes that fit the
write-side view are stored in order, the rest is dropped, the host learns how many were stored, and
transmit-ready is unmasked whatever fitted. -/
def Obligations.EnqueueAloneStoresWhatFits : Prop :=
  ∀ (s : State) (bs : List Byte) (later : List FgItem), s.Inv →
    s.fg.program = .enqueue 0 bs :: later →
    ∃ (k : Nat) (t : State), k ≤ bs.length + 1 ∧
      moves (List.replicate k (.agent .fg)) s = .next t ∧
      t.tx.ghost.puts = s.tx.ghost.puts ++ bs.take (s.cap .tx - 1 - dsizeW s .tx) ∧
      t.fg = { program := later, stored := min bs.length (s.cap .tx - 1 - dsizeW s .tx) } ∧
      t.ier.txEn = true ∧ t.rx = s.rx ∧ t.dev = s.dev ∧ t.diag = s.diag

/-- 70_reset_and_hazards.md R163, at the step: from a quiescent state of a run, a step that is no byte
arrival changes nothing but the response and the model's own schedule, and its state is quiescent again
(log 1, log 2, log 3, log 6). -/
def Obligations.QuiescentStepsChangeNothing : Prop :=
  ∀ s : State, s.RunInv → s.Quiescent → (∀ b, (nextMove s).1 ≠ .agent (.devRxArrive b)) →
    ∃ t, step s = .next t ∧ t.Quiescent ∧
      t = { s with agenda := t.agenda, tick := t.tick, response := none }
end

