-- ==== Sys2Proof/Laws/Cursor.lean ====
section
/-!
SUPPORT. The laws of cursor arithmetic and gray code: what `inc`, `diff`, `gray` and `bin` do to the
cursor of a count.
-/

namespace Sys2Proof.Machine

/-- `bin(gray(b)) = b` for every `b` (20_memory.md R49). -/
@[simp] theorem bin_gray (b : Cursor) : bin (gray b) = b := by revert b; decide

/-- `gray(bin(g)) = g` for every `g` (20_memory.md R49). -/
@[simp] theorem gray_bin (g : Cursor) : gray (bin g) = g := by revert g; decide

theorem gray_injective : Function.Injective gray := fun a b h => by
  simpa using congrArg bin h

/-- The capacities the block admits lie between 2 and 256 (00_scope.md R7, R8). -/
theorem capacity_bounds {p : Config.Params} (h : p.admitted = true) (f : FifoId) :
    2 ≤ p.capacity f ∧ p.capacity f ≤ 256 := by
  have hk : 1 ≤ p.log2 f ∧ p.log2 f ≤ 8 := by
    simp [Config.Params.admitted, admittedLog2] at h
    cases f <;> simp [Config.Params.log2] <;> omega
  exact ⟨by simpa [Config.Params.capacity] using Nat.pow_le_pow_right (n := 2) (by decide) hk.1,
    by simpa [Config.Params.capacity] using Nat.pow_le_pow_right (n := 2) (by decide) hk.2⟩

theorem State.cap_bounds {s : State} (h : s.params.admitted = true) (f : FifoId) :
    2 ≤ s.cap f ∧ s.cap f ≤ 256 := capacity_bounds h f

variable {n : Nat}

/-- The cursor of a count, as a number. -/
theorem toNat_ofCount (h2 : 2 ≤ n) (h : n ≤ 256) (c : Nat) :
    (BitVec.ofNat 8 (c % n)).toNat = c % n := by
  have := Nat.mod_lt c (show 0 < n by omega)
  simp only [BitVec.toNat_ofNat]
  exact Nat.mod_eq_of_lt (by omega)

/-- Two counts less than `n` apart have the same cursor exactly when they are equal. -/
theorem ofCount_inj (h2 : 2 ≤ n) (h : n ≤ 256) {a b : Nat} (hab : a ≤ b) (hd : b - a < n) :
    BitVec.ofNat 8 (a % n) = BitVec.ofNat 8 (b % n) ↔ a = b := by
  constructor
  · intro he
    have he' := congrArg BitVec.toNat he
    rw [toNat_ofCount h2 h, toNat_ofCount h2 h] at he'
    have hdvd : n ∣ b - a := (Nat.modEq_iff_dvd' hab).mp he'
    rcases Nat.eq_zero_or_pos (b - a) with h0 | hpos
    · omega
    · exact absurd (Nat.le_of_dvd hpos hdvd) (by omega)
  · rintro rfl; rfl

/-- `inc_N` of a count's cursor is the next count's cursor (20_memory.md R47). -/
theorem inc_ofCount (h2 : 2 ≤ n) (h : n ≤ 256) (c : Nat) :
    inc n (BitVec.ofNat 8 (c % n)) = BitVec.ofNat 8 ((c + 1) % n) := by
  simp [inc, toNat_ofCount h2 h, -BitVec.toNat_ofNat]

/-- `diff_N` of two counts' cursors is the difference of the counts (20_memory.md R48). -/
theorem diff_ofCount (h2 : 2 ≤ n) (h : n ≤ 256) {a b : Nat} (hba : b ≤ a) (hd : a - b < n) :
    diff n (BitVec.ofNat 8 (a % n)) (BitVec.ofNat 8 (b % n)) = a - b := by
  simp only [diff, toNat_ofCount h2 h, Nat.mod_mod]
  have hn : 0 < n := by omega
  have hb := Nat.mod_lt b hn
  obtain ⟨d, rfl⟩ := Nat.exists_eq_add_of_le hba
  have hd' : d < n := by omega
  rw [Nat.add_mod b d n, Nat.mod_eq_of_lt hd', Nat.add_sub_cancel_left]
  by_cases hlt : b % n + d < n
  · rw [Nat.mod_eq_of_lt hlt]
    have : b % n + d + (n - b % n) = d + n := by omega
    rw [this, Nat.add_mod_right, Nat.mod_eq_of_lt hd']
  · have hm : (b % n + d) % n = b % n + d - n := by
      rw [Nat.mod_eq_sub_mod (by omega), Nat.mod_eq_of_lt (by omega)]
    rw [hm]
    have : b % n + d - n + (n - b % n) = d := by omega
    rw [this, Nat.mod_eq_of_lt hd']

/-- A synchroniser stage shows the cursor of the count it belongs to (20_memory.md R55, R63). -/
@[simp] theorem bin_grayOfCount (n c : Nat) : bin (grayOfCount n c) = BitVec.ofNat 8 (c % n) :=
  bin_gray _

end Sys2Proof.Machine
end

