-- ==== Sys2Proof/Laws/Memory.lean ====
section
/-!
SUPPORT. The laws of a backing array: read after write, the canonical form, and that equal contents
are equal lists.
-/

namespace Sys2Proof.Machine

@[simp] theorem Memory.read_nil (i : Nat) : Memory.read [] i = none := rfl

theorem Memory.wf_nil : Memory.wf [] := List.Pairwise.nil

/-- In a canonical array an index below the first listed one is not listed. -/
theorem Memory.read_of_below {m : Memory} {i : Nat} (h : ∀ c ∈ m, i < c.1) : m.read i = none := by
  induction m with
  | nil => rfl
  | cons c m ih =>
    have hc := h c (by simp)
    simp only [Memory.read]
    rw [if_neg (by omega)]
    exact ih fun c' hc' => h c' (by simp [hc'])

/-- Reading the slot that was written gives the byte written (40_fifo_core.md R96, R97). -/
@[simp] theorem Memory.read_write_same (m : Memory) (i : Nat) (v : Byte) :
    (m.write i v).read i = some v := by
  induction m with
  | nil => simp [Memory.write, Memory.read]
  | cons c m ih =>
    simp only [Memory.write]
    split
    · simp [Memory.read]
    · split
      · simp [Memory.read]
      · rename_i h1 h2
        simp only [Memory.read]
        rw [if_neg (Ne.symm h2)]
        exact ih

/-- Every other slot reads as before (40_fifo_core.md R96). -/
theorem Memory.read_write_other (m : Memory) {i j : Nat} (v : Byte) (h : j ≠ i) :
    (m.write i v).read j = m.read j := by
  induction m with
  | nil => simp [Memory.write, Memory.read, Ne.symm h]
  | cons c m ih =>
    simp only [Memory.write]
    split
    · simp [Memory.read, Ne.symm h]
    · split
      · rename_i h1 h2
        subst h2
        simp [Memory.read, Ne.symm h]
      · simp only [Memory.read, ih]

/-- A listed index after a write is the one written or was listed before. -/
theorem Memory.mem_write {m : Memory} {i : Nat} {v : Byte} {c : Host.Cell}
    (h : c ∈ m.write i v) : c = (i, v) ∨ c ∈ m := by
  induction m with
  | nil => simpa [Memory.write] using h
  | cons c' m ih =>
    simp only [Memory.write] at h
    split at h
    · simpa using h
    · split at h
      · rcases List.mem_cons.mp h with h | h
        · exact .inl h
        · exact .inr (List.mem_cons_of_mem _ h)
      · rcases List.mem_cons.mp h with h | h
        · exact .inr (by simp [h])
        · rcases ih h with h | h
          · exact .inl h
          · exact .inr (List.mem_cons_of_mem _ h)

/-- A write keeps the canonical form. -/
theorem Memory.write_wf {m : Memory} (h : m.wf) (i : Nat) (v : Byte) : (m.write i v).wf := by
  induction m with
  | nil => simp [Memory.write, Memory.wf]
  | cons c m ih =>
    obtain ⟨hc, hm⟩ := List.pairwise_cons.mp h
    simp only [Memory.write]
    split
    · rename_i hi
      refine List.pairwise_cons.mpr ⟨fun c' hc' => ?_, h⟩
      rcases List.mem_cons.mp hc' with rfl | hc'
      · exact hi
      · exact lt_trans hi (hc c' hc')
    · split
      · rename_i h1 h2
        exact List.pairwise_cons.mpr ⟨fun c' hc' => by simpa [h2] using hc c' hc', hm⟩
      · rename_i h1 h2
        refine List.pairwise_cons.mpr ⟨fun c' hc' => ?_, ih hm⟩
        rcases Memory.mem_write hc' with rfl | hc'
        · show c.1 < i
          omega
        · exact hc c' hc'

/-- A write keeps every listed index below a bound the written index is below. -/
theorem Memory.write_bound {m : Memory} {n i : Nat} (h : ∀ c ∈ m, c.1 < n) (hi : i < n) (v : Byte) :
    ∀ c ∈ m.write i v, c.1 < n := by
  intro c hc
  rcases Memory.mem_write hc with rfl | hc
  · exact hi
  · exact h c hc

/-- Canonical arrays with the same contents are the same list. -/
theorem Memory.ext_of_read {m m' : Memory} (h : m.wf) (h' : m'.wf)
    (hr : ∀ i, m.read i = m'.read i) : m = m' := by
  induction m generalizing m' with
  | nil =>
    cases m' with
    | nil => rfl
    | cons c' m' => simpa [Memory.read] using hr c'.1
  | cons c m ih =>
    obtain ⟨hc, hm⟩ := List.pairwise_cons.mp h
    cases m' with
    | nil => simpa [Memory.read] using hr c.1
    | cons c' m' =>
      obtain ⟨hc', hm'⟩ := List.pairwise_cons.mp h'
      have below : ∀ {x : Nat} {l : Memory} {a : Host.Cell}, (∀ b ∈ l, a.1 < b.1) → x ≤ a.1 →
          Memory.read l x = none :=
        fun hl hx => Memory.read_of_below fun b hb => lt_of_le_of_lt hx (hl b hb)
      have h1 := hr c.1
      have h2 := hr c'.1
      simp only [Memory.read, if_true] at h1 h2
      have heq : c.1 = c'.1 := by
        rcases lt_trichotomy c.1 c'.1 with hlt | he | hlt
        · rw [if_neg (by omega), below hc' (by omega)] at h1
          cases h1
        · exact he
        · rw [if_neg (by omega), below hc (by omega)] at h2
          cases h2
      rw [heq, if_pos rfl] at h1
      have hcell : c = c' := Prod.ext heq (Option.some.inj h1)
      subst hcell
      congr 1
      refine ih hm hm' fun i => ?_
      have hi := hr i
      simp only [Memory.read] at hi
      by_cases hci : c.1 = i
      · rw [below hc (by omega), below hc' (by omega)]
      · simpa [hci] using hi

end Sys2Proof.Machine
end

