-- ==== Sys2Proof/Laws/State.lean ====
section
/-!
SUPPORT. One lemma per field per update of State, so that no later proof unfolds a record update.
-/

namespace Sys2Proof.Machine

variable (s : State) (f g : FifoId) (q : Fifo) (e : Event) (b : Bool) (r : Reply) (d : Byte)

@[simp] theorem State.fifo_tx : s.fifo .tx = s.tx := rfl
@[simp] theorem State.fifo_rx : s.fifo .rx = s.rx := rfl
theorem State.setFifo_tx : s.setFifo .tx q = { s with tx := q } := rfl
theorem State.setFifo_rx : s.setFifo .rx q = { s with rx := q } := rfl
@[simp] theorem State.setFifo_tx_tx : (s.setFifo .tx q).tx = q := rfl
@[simp] theorem State.setFifo_tx_rx : (s.setFifo .tx q).rx = s.rx := rfl
@[simp] theorem State.setFifo_rx_tx : (s.setFifo .rx q).tx = s.tx := rfl
@[simp] theorem State.setFifo_rx_rx : (s.setFifo .rx q).rx = q := rfl

@[simp] theorem State.fifo_setFifo_same : (s.setFifo f q).fifo f = q := by cases f <;> rfl

theorem State.fifo_setFifo_other (h : g ≠ f) : (s.setFifo f q).fifo g = s.fifo g := by
  cases f <;> cases g <;> first | rfl | exact absurd rfl h

theorem State.setFifo_self : s.setFifo f (s.fifo f) = s := by cases f <;> rfl

@[simp] theorem State.setFifo_ier : (s.setFifo f q).ier = s.ier := by cases f <;> rfl
@[simp] theorem State.setFifo_dev : (s.setFifo f q).dev = s.dev := by cases f <;> rfl
@[simp] theorem State.setFifo_diag : (s.setFifo f q).diag = s.diag := by cases f <;> rfl
@[simp] theorem State.setFifo_params : (s.setFifo f q).params = s.params := by cases f <;> rfl
@[simp] theorem State.setFifo_fg : (s.setFifo f q).fg = s.fg := by cases f <;> rfl
@[simp] theorem State.setFifo_issuer : (s.setFifo f q).issuer = s.issuer := by cases f <;> rfl
@[simp] theorem State.setFifo_response : (s.setFifo f q).response = s.response := by cases f <;> rfl
@[simp] theorem State.setFifo_agenda : (s.setFifo f q).agenda = s.agenda := by cases f <;> rfl
@[simp] theorem State.setFifo_tick : (s.setFifo f q).tick = s.tick := by cases f <;> rfl
@[simp] theorem State.setFifo_cap : (s.setFifo f q).cap g = s.cap g := by cases f <;> rfl

@[simp] theorem State.setEnable_tx : (s.setEnable e b).tx = s.tx := by cases e <;> rfl
@[simp] theorem State.setEnable_rx : (s.setEnable e b).rx = s.rx := by cases e <;> rfl
@[simp] theorem State.setEnable_fifo : (s.setEnable e b).fifo f = s.fifo f := by
  cases e <;> cases f <;> rfl
@[simp] theorem State.setEnable_dev : (s.setEnable e b).dev = s.dev := by cases e <;> rfl
@[simp] theorem State.setEnable_diag : (s.setEnable e b).diag = s.diag := by cases e <;> rfl
@[simp] theorem State.setEnable_params : (s.setEnable e b).params = s.params := by cases e <;> rfl
@[simp] theorem State.setEnable_fg : (s.setEnable e b).fg = s.fg := by cases e <;> rfl
@[simp] theorem State.setEnable_issuer : (s.setEnable e b).issuer = s.issuer := by cases e <;> rfl
@[simp] theorem State.setEnable_response : (s.setEnable e b).response = s.response := by
  cases e <;> rfl
@[simp] theorem State.setEnable_agenda : (s.setEnable e b).agenda = s.agenda := by cases e <;> rfl
@[simp] theorem State.setEnable_tick : (s.setEnable e b).tick = s.tick := by cases e <;> rfl
@[simp] theorem State.setEnable_cap : (s.setEnable e b).cap g = s.cap g := by cases e <;> rfl
@[simp] theorem State.setEnable_tx_ier :
    (s.setEnable .tx b).ier = { s.ier with txEn := b } := rfl
@[simp] theorem State.setEnable_rx_ier :
    (s.setEnable .rx b).ier = { s.ier with rxEn := b } := rfl

@[simp] theorem State.respond_tx : (s.respond r).tx = s.tx := rfl
@[simp] theorem State.respond_rx : (s.respond r).rx = s.rx := rfl
@[simp] theorem State.respond_fifo : (s.respond r).fifo f = s.fifo f := by cases f <;> rfl
@[simp] theorem State.respond_ier : (s.respond r).ier = s.ier := rfl
@[simp] theorem State.respond_dev : (s.respond r).dev = s.dev := rfl
@[simp] theorem State.respond_diag : (s.respond r).diag = s.diag := rfl
@[simp] theorem State.respond_params : (s.respond r).params = s.params := rfl
@[simp] theorem State.respond_fg : (s.respond r).fg = s.fg := rfl
@[simp] theorem State.respond_issuer : (s.respond r).issuer = s.issuer := rfl
@[simp] theorem State.respond_response : (s.respond r).response = some r.word := rfl
@[simp] theorem State.respond_agenda : (s.respond r).agenda = s.agenda := rfl
@[simp] theorem State.respond_tick : (s.respond r).tick = s.tick := rfl
@[simp] theorem State.respond_cap : (s.respond r).cap f = s.cap f := rfl

@[simp] theorem State.quiet_tx : s.quiet.tx = s.tx := rfl
@[simp] theorem State.quiet_rx : s.quiet.rx = s.rx := rfl
@[simp] theorem State.quiet_fifo : s.quiet.fifo f = s.fifo f := by cases f <;> rfl
@[simp] theorem State.quiet_ier : s.quiet.ier = s.ier := rfl
@[simp] theorem State.quiet_dev : s.quiet.dev = s.dev := rfl
@[simp] theorem State.quiet_diag : s.quiet.diag = s.diag := rfl
@[simp] theorem State.quiet_params : s.quiet.params = s.params := rfl
@[simp] theorem State.quiet_fg : s.quiet.fg = s.fg := rfl
@[simp] theorem State.quiet_issuer : s.quiet.issuer = s.issuer := rfl
@[simp] theorem State.quiet_response : s.quiet.response = none := rfl
@[simp] theorem State.quiet_agenda : s.quiet.agenda = s.agenda := rfl
@[simp] theorem State.quiet_tick : s.quiet.tick = s.tick := rfl
@[simp] theorem State.quiet_cap : s.quiet.cap f = s.cap f := rfl

@[simp] theorem State.sendByte_fifo : (s.sendByte d).fifo f = s.fifo f := by cases f <;> rfl
@[simp] theorem State.sendByte_tx : (s.sendByte d).tx = s.tx := rfl
@[simp] theorem State.sendByte_rx : (s.sendByte d).rx = s.rx := rfl
@[simp] theorem State.sendByte_ier : (s.sendByte d).ier = s.ier := rfl
@[simp] theorem State.sendByte_diag : (s.sendByte d).diag = s.diag := rfl
@[simp] theorem State.sendByte_params : (s.sendByte d).params = s.params := rfl
@[simp] theorem State.sendByte_cap : (s.sendByte d).cap f = s.cap f := rfl
@[simp] theorem State.sendByte_dev :
    (s.sendByte d).dev = { s.dev with tdr := some d, txReady := false } := rfl

@[simp] theorem State.takeByte_fifo : s.takeByte.fifo f = s.fifo f := by cases f <;> rfl
@[simp] theorem State.takeByte_tx : s.takeByte.tx = s.tx := rfl
@[simp] theorem State.takeByte_rx : s.takeByte.rx = s.rx := rfl
@[simp] theorem State.takeByte_ier : s.takeByte.ier = s.ier := rfl
@[simp] theorem State.takeByte_diag : s.takeByte.diag = s.diag := rfl
@[simp] theorem State.takeByte_params : s.takeByte.params = s.params := rfl
@[simp] theorem State.takeByte_cap : s.takeByte.cap f = s.cap f := rfl
@[simp] theorem State.takeByte_dev : s.takeByte.dev = { s.dev with rxReady := false } := rfl

@[simp] theorem State.illegal_tx : s.illegal.tx = s.tx := rfl
@[simp] theorem State.illegal_rx : s.illegal.rx = s.rx := rfl
@[simp] theorem State.illegal_fifo : s.illegal.fifo f = s.fifo f := by cases f <;> rfl
@[simp] theorem State.illegal_ier : s.illegal.ier = s.ier := rfl
@[simp] theorem State.illegal_dev : s.illegal.dev = s.dev := rfl
@[simp] theorem State.illegal_diag : s.illegal.diag = { s.diag with illegal := true } := rfl
@[simp] theorem State.illegal_params : s.illegal.params = s.params := rfl
@[simp] theorem State.illegal_fg : s.illegal.fg = s.fg := rfl
@[simp] theorem State.illegal_issuer : s.illegal.issuer = s.issuer := rfl
@[simp] theorem State.illegal_agenda : s.illegal.agenda = s.agenda := rfl
@[simp] theorem State.illegal_tick : s.illegal.tick = s.tick := rfl

@[simp] theorem Fifo.pushed_rbin (n : Nat) : (q.pushed n d).rbin = q.rbin := rfl
@[simp] theorem Fifo.pushed_rgray (n : Nat) : (q.pushed n d).rgray = q.rgray := rfl
@[simp] theorem Fifo.pushed_rq1 (n : Nat) : (q.pushed n d).rq1 = q.rq1 := rfl
@[simp] theorem Fifo.pushed_rq2 (n : Nat) : (q.pushed n d).rq2 = q.rq2 := rfl
@[simp] theorem Fifo.pushed_wq1 (n : Nat) : (q.pushed n d).wq1 = q.wq1 := rfl
@[simp] theorem Fifo.pushed_wq2 (n : Nat) : (q.pushed n d).wq2 = q.wq2 := rfl
@[simp] theorem Fifo.pushed_wbin (n : Nat) : (q.pushed n d).wbin = inc n q.wbin := rfl
@[simp] theorem Fifo.pushed_wgray (n : Nat) : (q.pushed n d).wgray = gray (inc n q.wbin) := rfl
@[simp] theorem Fifo.popped_mem (n : Nat) : (q.popped n).mem = q.mem := rfl
@[simp] theorem Fifo.popped_wbin (n : Nat) : (q.popped n).wbin = q.wbin := rfl
@[simp] theorem Fifo.popped_wgray (n : Nat) : (q.popped n).wgray = q.wgray := rfl
@[simp] theorem Fifo.popped_rq1 (n : Nat) : (q.popped n).rq1 = q.rq1 := rfl
@[simp] theorem Fifo.popped_rq2 (n : Nat) : (q.popped n).rq2 = q.rq2 := rfl
@[simp] theorem Fifo.popped_wq1 (n : Nat) : (q.popped n).wq1 = q.wq1 := rfl
@[simp] theorem Fifo.popped_wq2 (n : Nat) : (q.popped n).wq2 = q.wq2 := rfl
@[simp] theorem Fifo.popped_rbin (n : Nat) : (q.popped n).rbin = inc n q.rbin := rfl
@[simp] theorem Fifo.popped_rgray (n : Nat) : (q.popped n).rgray = gray (inc n q.rbin) := rfl

end Sys2Proof.Machine
end

