-- ==== Sys2Proof/Laws/Ops.lean ====
section
/-!
SUPPORT. For each shared operation one lemma that says everything it can do.
-/

namespace Sys2Proof.Machine

/-- A command at its port: refused for its configuration, `Illegal` for its issuer, or its rule
(30_encoding.md R85, 70_reset_and_hazards.md R159). -/
theorem command_legal {i : Instr} {body : State → Effect} {s : State}
    (hp : s.params.admitted = true) (hi : mayIssue s.issuer i = true) :
    command i body s =
      match body s with
      | .ok (t, r) => .next (t.respond r)
      | .error e => .fault e := by
  cases hb : body s <;> simp [command, whenAdmitted, hp, hi, hb]

theorem command_ok {i : Instr} {body : State → Effect} {s t : State} {r : Reply}
    (hp : s.params.admitted = true) (hi : mayIssue s.issuer i = true)
    (hb : body s = .ok (t, r)) : command i body s = .next (t.respond r) := by
  rw [command_legal hp hi, hb]

theorem command_illegal {i : Instr} {body : State → Effect} {s : State}
    (hp : s.params.admitted = true) (hi : mayIssue s.issuer i = false) :
    command i body s = .next s.illegal := by
  simp [command, whenAdmitted, hp, hi]

theorem command_refused {i : Instr} {body : State → Effect} {s : State}
    (hp : s.params.admitted = false) : command i body s = .refused .capacityNotAdmitted := by
  simp [command, whenAdmitted, hp]

/-- If a command answers a next state, it was `Illegal` for its issuer or its rule ran. -/
theorem command_next {i : Instr} {body : State → Effect} {s u : State}
    (h : command i body s = .next u) :
    s.params.admitted = true ∧
      ((mayIssue s.issuer i = false ∧ u = s.illegal) ∨
        (mayIssue s.issuer i = true ∧ ∃ t r, body s = .ok (t, r) ∧ u = t.respond r)) := by
  cases hp : s.params.admitted with
  | false => rw [command_refused hp] at h; cases h
  | true =>
    refine ⟨rfl, ?_⟩
    cases hi : mayIssue s.issuer i with
    | false =>
      rw [command_illegal hp hi] at h
      exact .inl ⟨rfl, by injection h with h; exact h.symm⟩
    | true =>
      rw [command_legal hp hi] at h
      refine .inr ⟨rfl, ?_⟩
      split at h
      · rename_i t r hb
        exact ⟨t, r, hb, by injection h with h; exact h.symm⟩
      · cases h

/-- Everything `exec` can do with a command, through its port: the rule that `command` runs. -/
theorem exec_command (i : Instr) (s : State) :
    exec i s = command i
      (match i with
        | .put f d => putPort f d
        | .get f => getPort f
        | .empty f v => readOnly fun t => zextFlag (emptyView t f v)
        | .full f v => readOnly fun t => zextFlag (fullView t f v)
        | .dsize f v => readOnly fun t => BitVec.ofNat 8 (dsizeView t f v)
        | .outb => outputByte
        | .inb => inputByte
        | .eni e => fun t => .ok (t.setEnable e true, Status.ok.reply)
        | .disi e => fun t => .ok (t.setEnable e false, Status.ok.reply)
        | .trig => readOnly trigByte
        | .stat => readOnly statByte
        | .hwwr d => deviceWrite d
        | .hwrd => deviceRead
        | .invoke => invocation) s := by
  cases i <;> rfl

/-- What the write port can do (40_fifo_core.md R96). -/
theorem putPort_ok {f : FifoId} {d : Byte} {s t : State} {r : Reply}
    (h : putPort f d s = .ok (t, r)) :
    (fullW s f = true ∧ t = s ∧ r = Status.bufferFull.reply) ∨
      (fullW s f = false ∧ (s.fifo f).wbin.toNat < s.cap f ∧
        t = s.setFifo f ((s.fifo f).pushed (s.cap f) d) ∧ r = Status.ok.reply) := by
  simp only [putPort] at h
  split at h
  · injection h with h; injection h with h1 h2
    exact .inl ⟨‹_›, h1.symm, h2.symm⟩
  · split at h
    · injection h with h; injection h with h1 h2
      exact .inr ⟨by simpa using ‹¬fullW s f = true›, ‹_›, h1.symm, h2.symm⟩
    · cases h

/-- What the read port can do (40_fifo_core.md R97). -/
theorem getPort_ok {f : FifoId} {s t : State} {r : Reply} (h : getPort f s = .ok (t, r)) :
    (emptyR s f = true ∧ t = s ∧ r = Status.bufferEmpty.reply) ∨
      (emptyR s f = false ∧ (s.fifo f).rbin.toNat < s.cap f ∧
        ∃ v, (s.fifo f).mem.read (s.fifo f).rbin.toNat = some v ∧
          t = s.setFifo f ((s.fifo f).popped (s.cap f)) ∧ r = { status := .ok, data := v }) := by
  simp only [getPort] at h
  split at h
  · injection h with h; injection h with h1 h2
    exact .inl ⟨‹_›, h1.symm, h2.symm⟩
  · split at h
    · split at h
      · injection h with h; injection h with h1 h2
        exact .inr ⟨by simpa using ‹¬emptyR s f = true›, ‹_›, _, ‹_›, h1.symm, h2.symm⟩
      · cases h
    · cases h

/-- What `HWWR` can do (41_transport.md R105). -/
theorem deviceWrite_ok {d : Byte} {s t : State} {r : Reply} (h : deviceWrite d s = .ok (t, r)) :
    (s.dev.txReady = true ∧ t = s.sendByte d ∧ r = Status.ok.reply) ∨
      (s.dev.txReady = false ∧ t = s ∧ r = Status.hardwareNotReady.reply) := by
  simp only [deviceWrite] at h
  split at h <;> (injection h with h; injection h with h1 h2)
  · exact .inl ⟨‹_›, h1.symm, h2.symm⟩
  · exact .inr ⟨by simpa using ‹¬s.dev.txReady = true›, h1.symm, h2.symm⟩

/-- What `HWRD` can do (41_transport.md R106). -/
theorem deviceRead_ok {s t : State} {r : Reply} (h : deviceRead s = .ok (t, r)) :
    (s.dev.rxReady = true ∧ ∃ v, s.dev.rdr = some v ∧ t = s.takeByte ∧
        r = { status := .ok, data := v }) ∨
      (s.dev.rxReady = false ∧ t = s ∧ r = Status.hardwareNotReady.reply) := by
  simp only [deviceRead] at h
  split at h
  · split at h
    · injection h with h; injection h with h1 h2
      exact .inl ⟨‹_›, _, ‹_›, h1.symm, h2.symm⟩
    · cases h
  · injection h with h; injection h with h1 h2
    exact .inr ⟨by simpa using ‹¬s.dev.rxReady = true›, h1.symm, h2.symm⟩

/-- What `OUTB` can do (41_transport.md R103): the byte popped is the byte handed to the device. -/
theorem outputByte_ok {s t : State} {r : Reply} (h : outputByte s = .ok (t, r)) :
    (s.dev.txReady = false ∧ t = s ∧ r = Status.hardwareNotReady.reply) ∨
      (s.dev.txReady = true ∧ emptyR s .tx = true ∧ t = s ∧ r = Status.bufferEmpty.reply) ∨
      (s.dev.txReady = true ∧ emptyR s .tx = false ∧ s.tx.rbin.toNat < s.cap .tx ∧
        ∃ v, s.tx.mem.read s.tx.rbin.toNat = some v ∧
          t = (s.setFifo .tx (s.tx.popped (s.cap .tx))).sendByte v ∧
          r = { status := .ok, data := v }) := by
  simp only [outputByte] at h
  split at h
  · rename_i hr
    split at h
    · cases h
    · rename_i t' r' hg
      rcases getPort_ok hg with ⟨he, rfl, rfl⟩ | ⟨he, hb, v, hv, rfl, rfl⟩
      · simp only [Status.reply, reduceCtorEq, if_false] at h
        injection h with h; injection h with h1 h2
        exact .inr (.inl ⟨hr, he, h1.symm, h2.symm⟩)
      · simp only [if_true] at h
        injection h with h; injection h with h1 h2
        exact .inr (.inr ⟨hr, he, hb, v, hv, h1.symm, h2.symm⟩)
  · rename_i hr
    injection h with h; injection h with h1 h2
    exact .inl ⟨by simpa using hr, h1.symm, h2.symm⟩

/-- What the echo push can do (41_transport.md R104). -/
theorem echoByte_ok {b : Byte} {s t : State} (h : echoByte b s = .ok t) :
    (s.params.echo = false ∧ t = s) ∨
      (s.params.echo = true ∧ fullW s .tx = true ∧
        t = { s with diag := { s.diag with echoDrop := true } }) ∨
      (s.params.echo = true ∧ fullW s .tx = false ∧ s.tx.wbin.toNat < s.cap .tx ∧
        t = s.setFifo .tx (s.tx.pushed (s.cap .tx) b)) := by
  simp only [echoByte] at h
  split at h
  · rename_i he
    split at h
    · cases h
    · rename_i t' r' hp
      rcases putPort_ok hp with ⟨hf, rfl, rfl⟩ | ⟨hf, hb, rfl, rfl⟩
      · simp only [Status.reply, reduceCtorEq, if_false] at h
        injection h with h
        exact .inr (.inl ⟨he, hf, h.symm⟩)
      · simp only [Status.reply, if_true] at h
        injection h with h
        exact .inr (.inr ⟨he, hf, hb, h.symm⟩)
  · rename_i he
    injection h with h
    exact .inl ⟨by simpa using he, h.symm⟩

/-- What `INB` can do (41_transport.md R104). -/
theorem inputByte_ok {s t : State} {r : Reply} (h : inputByte s = .ok (t, r)) :
    (s.dev.rxReady = false ∧ t = s ∧ r = Status.hardwareNotReady.reply) ∨
      (s.dev.rxReady = true ∧ ∃ b, s.dev.rdr = some b ∧
        ((fullW s .rx = true ∧ r = { status := .receiveBufferFull, data := b } ∧
            t = { s.takeByte with diag := { s.diag with rxDrop := true } }) ∨
          (fullW s .rx = false ∧ s.rx.wbin.toNat < s.cap .rx ∧
            r = { status := .ok, data := b } ∧
            echoByte b (s.takeByte.setFifo .rx (s.rx.pushed (s.cap .rx) b)) = .ok t))) := by
  simp only [inputByte] at h
  split at h
  · cases h
  · rename_i t' r' hd
    rcases deviceRead_ok hd with ⟨hr, b, hb, rfl, rfl⟩ | ⟨hr, rfl, rfl⟩
    · refine .inr ⟨hr, b, hb, ?_⟩
      simp only [if_true, receiveByte] at h
      split at h
      · cases h
      · rename_i t'' r'' hp
        rcases putPort_ok hp with ⟨hf, rfl, rfl⟩ | ⟨hf, hw, rfl, rfl⟩
        · simp only [Status.reply, reduceCtorEq, if_false] at h
          injection h with h; injection h with h1 h2
          exact .inl ⟨hf, h2.symm, h1.symm⟩
        · simp only [Status.reply, if_true] at h
          split at h
          · cases h
          · rename_i u hu
            injection h with h; injection h with h1 h2
            subst h1
            exact .inr ⟨hf, hw, h2.symm, hu⟩
    · simp only [Status.reply, reduceCtorEq, if_false] at h
      injection h with h; injection h with h1 h2
      exact .inl ⟨hr, h1.symm, h2.symm⟩

/-- Step 2 of an invocation (42_interrupt_mask.md R112). -/
theorem invokeTransmit_ok {ev pm : Bool} {s t : State} (h : invokeTransmit ev s = .ok (t, pm)) :
    (ev = false ∧ t = s ∧ pm = false) ∨
      (ev = true ∧ ∃ r, outputByte s = .ok (t, r) ∧
        pm = if r.status = .ok then emptyR t .tx else true) := by
  simp only [invokeTransmit] at h
  split at h
  · split at h
    · cases h
    · rename_i t' r hb
      injection h with h; injection h with h1 h2
      subst h1
      exact .inr ⟨‹_›, r, hb, h2.symm⟩
  · injection h with h; injection h with h1 h2
    exact .inl ⟨by simpa using ‹¬ev = true›, h1.symm, h2.symm⟩

/-- Step 3 of an invocation (42_interrupt_mask.md R112). -/
theorem invokeReceive_ok {ev pu : Bool} {s t : State} (h : invokeReceive ev s = .ok (t, pu)) :
    (ev = false ∧ t = s ∧ pu = false) ∨
      (ev = true ∧ ∃ r, inputByte s = .ok (t, r) ∧ pu = decide (r.status = .ok)) := by
  simp only [invokeReceive] at h
  split at h
  · split at h
    · cases h
    · rename_i t' r hb
      injection h with h; injection h with h1 h2
      subst h1
      exact .inr ⟨‹_›, r, hb, h2.symm⟩
  · injection h with h; injection h with h1 h2
    exact .inl ⟨by simpa using ‹¬ev = true›, h1.symm, h2.symm⟩

/-- An invocation is its four steps (42_interrupt_mask.md R112). -/
theorem invocation_ok {s v : State} {r : Reply} (h : invocation s = .ok (v, r)) :
    ∃ t pm u pu, invokeTransmit (triggeredTx s) s = .ok (t, pm) ∧
      invokeReceive (triggeredRx s) t = .ok (u, pu) ∧ v = invokeApply pm pu u ∧
      r = { status := .ok, data := invokeRecord (triggeredTx s) (triggeredRx s) pm pu } := by
  simp only [invocation] at h
  split at h
  · cases h
  · rename_i t pm ht
    split at h
    · cases h
    · rename_i u pu hu
      injection h with h; injection h with h1 h2
      exact ⟨t, pm, u, pu, ht, hu, h1.symm, h2.symm⟩

end Sys2Proof.Machine
end

