-- ==== Sys2Proof/Laws/Fifo.lean ====
section
/-!
SUPPORT. What the invariant of a FIFO says of its views, and that each of the four ways a FIFO changes
keeps it (20_memory.md, sections 9 and 11).
-/

namespace Sys2Proof.Machine

variable {n : Nat} {q : Fifo}

theorem Fifo.reset_inv (n : Nat) : Fifo.reset.Inv n := by
  refine ⟨⟨?_, ?_, ?_, ?_, ?_, ?_⟩, ?_, Memory.wf_nil, by simp [Fifo.reset], rfl, ?_⟩ <;>
    simp [Fifo.reset, Ghost.reset, Fifo.tracksGhost, grayOfCount, gray]

/-- The write side is full exactly when N - 1 counts lie between its view of the read count and its
own (20_memory.md R63). -/
theorem Fifo.full_iff (h2 : 2 ≤ n) (h : n ≤ 256) (hi : q.Inv n) :
    inc n q.wbin = bin q.wq2 ↔ q.ghost.w = q.ghost.rq2 + (n - 1) := by
  obtain ⟨⟨c1, c2, c3, c4, c5, c6⟩, ⟨hw, -, -, -, -, -, -, hq⟩, -⟩ := hi
  rw [hw, hq, bin_grayOfCount, inc_ofCount h2 h]
  by_cases he : q.ghost.w = q.ghost.rq2 + (n - 1)
  · simp [he, Nat.add_assoc, show n - 1 + 1 = n by omega]
  · have := ofCount_inj h2 h (a := q.ghost.rq2) (b := q.ghost.w + 1) (by omega) (by omega)
    constructor
    · intro hx
      exact absurd (this.mp hx.symm) (by omega)
    · intro hx
      exact absurd hx he

/-- The read side is empty exactly when its read count has reached its view of the write count
(20_memory.md R63). -/
theorem Fifo.empty_iff (h2 : 2 ≤ n) (h : n ≤ 256) (hi : q.Inv n) :
    bin q.rq2 = q.rbin ↔ q.ghost.r = q.ghost.wq2 := by
  obtain ⟨⟨c1, c2, c3, c4, c5, c6⟩, ⟨-, -, hr, -, -, hq, -, -⟩, -⟩ := hi
  rw [hr, hq, bin_grayOfCount, eq_comm]
  exact ofCount_inj h2 h c3 (by omega)

/-- The cursors lie in `[0, N)` (20_memory.md R40). -/
theorem Fifo.cursor_bounds (h2 : 2 ≤ n) (h : n ≤ 256) (hi : q.Inv n) :
    q.wbin.toNat < n ∧ q.rbin.toNat < n := by
  obtain ⟨-, ⟨hw, -, hr, -⟩, -⟩ := hi
  rw [hw, hr, toNat_ofCount h2 h, toNat_ofCount h2 h]
  exact ⟨Nat.mod_lt _ (by omega), Nat.mod_lt _ (by omega)⟩

/-- The slot a `GET` reads holds the byte of the `PUT` with the same count (20_memory.md R61, R65). -/
theorem Fifo.read_head (h2 : 2 ≤ n) (h : n ≤ 256) (hi : q.Inv n) (hr : q.ghost.r < q.ghost.w) :
    q.mem.read q.rbin.toNat = q.ghost.puts[q.ghost.r]? := by
  obtain ⟨-, ⟨-, -, hb, -⟩, -, -, -, hu⟩ := hi
  rw [hb, toNat_ofCount h2 h]
  exact hu _ hr le_rfl

/-- A successful `PUT` keeps the invariant (20_memory.md R63, R64). -/
theorem Fifo.pushed_inv (h2 : 2 ≤ n) (h : n ≤ 256) (hi : q.Inv n)
    (hf : inc n q.wbin ≠ bin q.wq2) (d : Byte) : (q.pushed n d).Inv n := by
  have hroom : q.ghost.w ≠ q.ghost.rq2 + (n - 1) := fun he => hf ((Fifo.full_iff h2 h hi).mpr he)
  have hb := (Fifo.cursor_bounds h2 h hi).1
  obtain ⟨⟨c1, c2, c3, c4, c5, c6⟩, ⟨hw, hwg, hr, hrg, hq1, hq2, hv1, hv2⟩, hm, hlt, hlen, hu⟩ := hi
  have hlt' : q.ghost.w < q.ghost.rq2 + (n - 1) := by omega
  refine ⟨⟨c1, c2, c3, c4, ?_, ?_⟩, ⟨?_, rfl, hr, hrg, hq1, hq2, hv1, hv2⟩, Memory.write_wf hm _ _,
    Memory.write_bound hlt hb _, ?_, ?_⟩
  · show q.ghost.wq1 ≤ q.ghost.w + 1
    omega
  · show q.ghost.w + 1 ≤ q.ghost.rq2 + (n - 1)
    omega
  · show inc n q.wbin = BitVec.ofNat 8 ((q.ghost.w + 1) % n)
    rw [hw, inc_ofCount h2 h]
  · simp [Fifo.pushed, hlen]
  · intro j hj hrj
    change j < q.ghost.w + 1 at hj
    change q.ghost.r ≤ j at hrj
    show (q.mem.write q.wbin.toNat d).read (j % n) = (q.ghost.puts ++ [d])[j]?
    rw [hw, toNat_ofCount h2 h]
    rcases Nat.lt_or_ge j q.ghost.w with hjw | hjw
    · have hne : j % n ≠ q.ghost.w % n := by
        intro he
        have := (Nat.modEq_iff_dvd' (show j ≤ q.ghost.w by omega)).mp he
        exact absurd (Nat.le_of_dvd (by omega) this) (by omega)
      rw [Memory.read_write_other _ _ hne, hu j hjw hrj, List.getElem?_append_left (by omega)]
    · have : j = q.ghost.w := by omega
      subst this
      rw [Memory.read_write_same, ← hlen, List.getElem?_concat_length]

/-- A successful `GET` keeps the invariant (20_memory.md R63). -/
theorem Fifo.popped_inv (h2 : 2 ≤ n) (h : n ≤ 256) (hi : q.Inv n) (he : bin q.rq2 ≠ q.rbin) :
    (q.popped n).Inv n := by
  have hne : q.ghost.r ≠ q.ghost.wq2 := fun hx => he ((Fifo.empty_iff h2 h hi).mpr hx)
  obtain ⟨⟨c1, c2, c3, c4, c5, c6⟩, ⟨hw, hwg, hr, hrg, hq1, hq2, hv1, hv2⟩, hm, hlt, hlen, hu⟩ := hi
  refine ⟨⟨c1, ?_, ?_, c4, c5, c6⟩, ⟨hw, hwg, ?_, rfl, hq1, hq2, hv1, hv2⟩, hm, hlt, hlen, ?_⟩
  · show q.ghost.rq1 ≤ q.ghost.r + 1
    omega
  · show q.ghost.r + 1 ≤ q.ghost.wq2
    omega
  · show inc n q.rbin = BitVec.ofNat 8 ((q.ghost.r + 1) % n)
    rw [hr, inc_ofCount h2 h]
  · intro j hj hrj
    change q.ghost.r + 1 ≤ j at hrj
    exact hu j hj (by omega)

/-- `SYNC_W2R` keeps the invariant (20_memory.md R63). -/
theorem Fifo.clockedW2R_inv (hi : q.Inv n) : q.clockedW2R.Inv n := by
  obtain ⟨⟨c1, c2, c3, c4, c5, c6⟩, ⟨hw, hwg, hr, hrg, hq1, hq2, hv1, hv2⟩, hu⟩ := hi
  refine ⟨⟨c1, c2, ?_, c5, le_rfl, c6⟩, ⟨hw, hwg, hr, hrg, ?_, hq1, hv1, hv2⟩, hu⟩
  · exact c3.trans c4
  · show q.wgray = grayOfCount n q.ghost.w
    rw [hwg, hw, grayOfCount]

/-- `SYNC_R2W` keeps the invariant (20_memory.md R63). -/
theorem Fifo.clockedR2W_inv (hi : q.Inv n) : q.clockedR2W.Inv n := by
  obtain ⟨⟨c1, c2, c3, c4, c5, c6⟩, ⟨hw, hwg, hr, hrg, hq1, hq2, hv1, hv2⟩, hu⟩ := hi
  refine ⟨⟨c2, le_rfl, c3, c4, c5, ?_⟩, ⟨hw, hwg, hr, hrg, hq1, hq2, ?_, hv1⟩, hu⟩
  · show q.ghost.w ≤ q.ghost.rq1 + (n - 1)
    omega
  · show q.rgray = grayOfCount n q.ghost.r
    rw [hrg, hr, grayOfCount]

end Sys2Proof.Machine
end

