-- ==== Sys2Proof/Laws/Forward.lean ====
section
/-!
SUPPORT. The shared operations read forwards: under the condition of each case, what the operation is.
And the words of the replies.
-/

namespace Sys2Proof.Machine

theorem Reply.word_ok (v : Byte) : Reply.word { status := .ok, data := v } = v ++ 0x00#8 := by
  revert v; decide

theorem Reply.word_receiveBufferFull (v : Byte) :
    Reply.word { status := .receiveBufferFull, data := v } = v ++ 0x04#8 := by
  revert v; decide

@[simp] theorem Reply.word_ok_reply : Status.ok.reply.word = 0x0000 := rfl
@[simp] theorem Reply.word_bufferFull : Status.bufferFull.reply.word = 0x0001 := rfl
@[simp] theorem Reply.word_bufferEmpty : Status.bufferEmpty.reply.word = 0x0002 := rfl
@[simp] theorem Reply.word_hardwareNotReady : Status.hardwareNotReady.reply.word = 0x0003 := rfl
@[simp] theorem Reply.word_illegal : Status.illegal.reply.word = 0x000F := rfl

/-- A command its issuer may issue, in an admitted configuration, is what its rule answers. -/
theorem exec_ok {i : Instr} {body : State → Effect} {s t : State} {r : Reply}
    (hp : s.params.admitted = true) (hi : mayIssue s.issuer i = true)
    (hc : exec i s = command i body s) (hb : body s = .ok (t, r)) :
    exec i s = .next (t.respond r) := by
  rw [hc]; exact command_ok hp hi hb

/-- A command that only reads changes nothing but the response. -/
theorem exec_read {i : Instr} {g : State → Byte} {s : State}
    (hp : s.params.admitted = true) (hi : mayIssue s.issuer i = true)
    (hc : exec i s = command i (readOnly g) s) :
    exec i s = .next { s with response := some (g s ++ 0x00#8) } := by
  rw [exec_ok hp hi hc rfl, State.respond, Reply.word_ok]

theorem exec_illegal {i : Instr} {s : State} (hp : s.params.admitted = true)
    (hi : mayIssue s.issuer i = false) : exec i s = .next s.illegal := by
  rw [exec_command]; exact command_illegal hp hi

theorem exec_refused {i : Instr} {s : State} (hp : s.params.admitted = false) :
    exec i s = .refused .capacityNotAdmitted := by
  rw [exec_command]; exact command_refused hp

/-- `SYNC_W2R(f)` in one equation: the clocked FIFO, and `tx_en` set when the TX read side's view of
the write cursor changes (20_memory.md R52, 42_interrupt_mask.md R114). -/
theorem syncW2R_eq (f : FifoId) (s : State) :
    syncW2R f s = { s.setFifo f (s.fifo f).clockedW2R with
      ier := { s.ier with txEn := s.ier.txEn || (f == .tx && bin s.tx.rq1 != bin s.tx.rq2) } } := by
  cases f with
  | rx =>
    have hn : ¬(FifoId.rx = .tx ∧
        wsyncR (s.setFifo .rx (s.fifo .rx).clockedW2R) .tx ≠ wsyncR s .tx) := fun hc => nomatch hc.1
    have hb : (s.ier.txEn || (FifoId.rx == .tx && bin s.tx.rq1 != bin s.tx.rq2)) = s.ier.txEn := by
      simp
    rw [hb]
    exact if_neg (t := (s.setFifo .rx (s.fifo .rx).clockedW2R).setEnable .tx true) hn
  | tx =>
    by_cases h : bin s.tx.rq1 = bin s.tx.rq2
    · have hn : ¬(FifoId.tx = .tx ∧
          wsyncR (s.setFifo .tx (s.fifo .tx).clockedW2R) .tx ≠ wsyncR s .tx) := fun hc => hc.2 h
      have hb : (s.ier.txEn || (FifoId.tx == .tx && bin s.tx.rq1 != bin s.tx.rq2)) = s.ier.txEn := by
        simp [h]
      rw [hb]
      exact if_neg (t := (s.setFifo .tx (s.fifo .tx).clockedW2R).setEnable .tx true) hn
    · have hc : FifoId.tx = .tx ∧
          wsyncR (s.setFifo .tx (s.fifo .tx).clockedW2R) .tx ≠ wsyncR s .tx := ⟨rfl, h⟩
      have hb : (s.ier.txEn || (FifoId.tx == .tx && bin s.tx.rq1 != bin s.tx.rq2)) = true := by
        simp [h]
      rw [hb]
      exact if_pos (e := s.setFifo .tx (s.fifo .tx).clockedW2R) hc

variable {s : State} {f : FifoId} {d b v : Byte}

theorem putPort_full (h : fullW s f = true) : putPort f d s = .ok (s, Status.bufferFull.reply) := by
  simp [putPort, h]

theorem putPort_store (h : fullW s f = false) (hw : (s.fifo f).wbin.toNat < s.cap f) :
    putPort f d s = .ok (s.setFifo f ((s.fifo f).pushed (s.cap f) d), Status.ok.reply) := by
  simp [putPort, h, hw]

theorem getPort_empty (h : emptyR s f = true) : getPort f s = .ok (s, Status.bufferEmpty.reply) := by
  simp [getPort, h]

theorem getPort_take (h : emptyR s f = false) (hv : (s.fifo f).headIs (s.cap f) v) :
    getPort f s = .ok (s.setFifo f ((s.fifo f).popped (s.cap f)), { status := .ok, data := v }) := by
  simp [getPort, h, hv.1, hv.2]

theorem deviceWrite_ready (h : s.dev.txReady = true) :
    deviceWrite d s = .ok (s.sendByte d, Status.ok.reply) := by
  simp [deviceWrite, h]

theorem deviceWrite_busy (h : s.dev.txReady = false) :
    deviceWrite d s = .ok (s, Status.hardwareNotReady.reply) := by
  simp [deviceWrite, h]

theorem deviceRead_ready (h : s.dev.rxReady = true) (hb : s.dev.rdr = some b) :
    deviceRead s = .ok (s.takeByte, { status := .ok, data := b }) := by
  simp [deviceRead, h, hb]

theorem deviceRead_none (h : s.dev.rxReady = false) :
    deviceRead s = .ok (s, Status.hardwareNotReady.reply) := by
  simp [deviceRead, h]

theorem outputByte_busy (h : s.dev.txReady = false) :
    outputByte s = .ok (s, Status.hardwareNotReady.reply) := by
  simp [outputByte, h]

theorem outputByte_empty (h : s.dev.txReady = true) (he : emptyR s .tx = true) :
    outputByte s = .ok (s, Status.bufferEmpty.reply) := by
  simp [outputByte, h, getPort_empty he, Status.reply]

theorem outputByte_send (h : s.dev.txReady = true) (he : emptyR s .tx = false)
    (hv : s.tx.headIs (s.cap .tx) v) :
    outputByte s = .ok ((s.setFifo .tx (s.tx.popped (s.cap .tx))).sendByte v,
      { status := .ok, data := v }) := by
  have hg : getPort .tx s = _ := getPort_take he hv
  simp only [outputByte, h, if_true, hg]
  rfl

theorem echoByte_off (h : s.params.echo = false) : echoByte b s = .ok s := by
  simp [echoByte, h]

theorem echoByte_full (h : s.params.echo = true) (hf : fullW s .tx = true) :
    echoByte b s = .ok { s with diag := { s.diag with echoDrop := true } } := by
  simp [echoByte, h, putPort_full hf, Status.reply]

theorem echoByte_store (h : s.params.echo = true) (hf : fullW s .tx = false)
    (hw : s.tx.wbin.toNat < s.cap .tx) :
    echoByte b s = .ok (s.setFifo .tx (s.tx.pushed (s.cap .tx) b)) := by
  have hp : putPort .tx b s = _ := putPort_store hf hw
  simp only [echoByte, h, if_true, hp]
  rfl

theorem inputByte_none (h : s.dev.rxReady = false) :
    inputByte s = .ok (s, Status.hardwareNotReady.reply) := by
  simp [inputByte, deviceRead_none h, Status.reply]

theorem inputByte_drop (h : s.dev.rxReady = true) (hb : s.dev.rdr = some b)
    (hf : fullW s .rx = true) :
    inputByte s = .ok ({ s.takeByte with diag := { s.diag with rxDrop := true } },
      { status := .receiveBufferFull, data := b }) := by
  have hp : putPort .rx b s.takeByte = _ := putPort_full (s := s.takeByte) hf
  simp only [inputByte, deviceRead_ready h hb, if_true, receiveByte, hp]
  rfl

/-- With room in RX, `INB` is the echo push after the receive push (41_transport.md R104). -/
theorem inputByte_store (h : s.dev.rxReady = true) (hb : s.dev.rdr = some b)
    (hf : fullW s .rx = false) (hw : s.rx.wbin.toNat < s.cap .rx) :
    inputByte s =
      match echoByte b (s.takeByte.setFifo .rx (s.rx.pushed (s.cap .rx) b)) with
      | .error e => .error e
      | .ok u => .ok (u, { status := .ok, data := b }) := by
  have hp : putPort .rx b s.takeByte = _ := putPort_store (s := s.takeByte) hf hw
  simp only [inputByte, deviceRead_ready h hb, if_true, receiveByte, hp]
  rfl

theorem stored_pushed (n : Nat) (d : Byte) (q : Fifo) : q.stored n d (q.pushed n d) :=
  ⟨Memory.read_write_same _ _ _, fun _ h => Memory.read_write_other _ _ h, rfl, rfl, rfl, rfl, rfl,
    rfl, rfl, rfl, rfl⟩

theorem taken_popped (n : Nat) (q : Fifo) : q.taken n (q.popped n) :=
  ⟨fun _ => rfl, rfl, rfl, rfl, rfl, rfl, rfl, rfl, rfl, rfl⟩

end Sys2Proof.Machine
end

