-- ==== Sys2Proof/Laws/Invariant.lean ====
section
/-!
SUPPORT. Each shared operation keeps the invariant of the block, and meets no fault from it
(20_memory.md section 11).
-/

namespace Sys2Proof.Machine

variable {s t : State} {f : FifoId} {q : Fifo} {r : Reply}

theorem State.Inv.cap2 (h : s.Inv) (f : FifoId) : 2 ≤ s.cap f := (State.cap_bounds h.1 f).1

theorem State.Inv.cap256 (h : s.Inv) (f : FifoId) : s.cap f ≤ 256 := (State.cap_bounds h.1 f).2

theorem State.Inv.fifo (h : s.Inv) : ∀ f, (s.fifo f).Inv (s.cap f)
  | .tx => h.2.1
  | .rx => h.2.2.1

theorem State.Inv.dev (h : s.Inv) : s.dev.Inv := h.2.2.2

/-- Replacing one FIFO by one of the invariant. -/
theorem State.Inv.setFifo (h : s.Inv) (hq : q.Inv (s.cap f)) : (s.setFifo f q).Inv := by
  cases f with
  | tx => exact ⟨h.1, hq, h.2.2⟩
  | rx => exact ⟨h.1, h.2.1, hq, h.2.2.2⟩

/-- The invariant reads only the parameters, the FIFOs and the device registers. -/
theorem State.Inv.congr (h : s.Inv) (hp : t.params = s.params) (htx : t.tx = s.tx)
    (hrx : t.rx = s.rx) (hd : t.dev.Inv) : t.Inv := by
  have hc : ∀ f, t.cap f = s.cap f := fun f => by rw [State.cap, State.cap, hp]
  refine ⟨by rw [hp]; exact h.1, ?_, ?_, hd⟩
  · rw [htx, hc]; exact h.2.1
  · rw [hrx, hc]; exact h.2.2.1

theorem State.Inv.fullW_iff (h : s.Inv) (f : FifoId) :
    fullW s f = true ↔ (s.fifo f).ghost.w = (s.fifo f).ghost.rq2 + (s.cap f - 1) := by
  rw [← Fifo.full_iff (h.cap2 f) (h.cap256 f) (h.fifo f)]
  simp [fullW, rsyncW]

theorem State.Inv.emptyR_iff (h : s.Inv) (f : FifoId) :
    emptyR s f = true ↔ (s.fifo f).ghost.r = (s.fifo f).ghost.wq2 := by
  rw [← Fifo.empty_iff (h.cap2 f) (h.cap256 f) (h.fifo f)]
  simp [emptyR, wsyncR]

theorem State.Inv.wbin_lt (h : s.Inv) (f : FifoId) : (s.fifo f).wbin.toNat < s.cap f :=
  (Fifo.cursor_bounds (h.cap2 f) (h.cap256 f) (h.fifo f)).1

theorem State.Inv.pushed (h : s.Inv) (hf : fullW s f = false) (d : Byte) :
    (s.setFifo f ((s.fifo f).pushed (s.cap f) d)).Inv :=
  h.setFifo (Fifo.pushed_inv (h.cap2 f) (h.cap256 f) (h.fifo f)
    (by simpa [fullW, rsyncW] using hf) d)

theorem State.Inv.popped (h : s.Inv) (he : emptyR s f = false) :
    (s.setFifo f ((s.fifo f).popped (s.cap f))).Inv :=
  h.setFifo (Fifo.popped_inv (h.cap2 f) (h.cap256 f) (h.fifo f)
    (by simpa [emptyR, wsyncR] using he))

/-- A visible byte stands at the read cursor, and it is the byte of the `PUT` with the same count
(20_memory.md R61, R65). -/
theorem State.Inv.head (h : s.Inv) (he : emptyR s f = false) :
    ∃ v, (s.fifo f).headIs (s.cap f) v ∧ (s.fifo f).ghost.puts[(s.fifo f).ghost.r]? = some v := by
  have hne : (s.fifo f).ghost.r ≠ (s.fifo f).ghost.wq2 := fun hx => by
    rw [(h.emptyR_iff f).mpr hx] at he; cases he
  have hi := h.fifo f
  have hread := Fifo.read_head (h.cap2 f) (h.cap256 f) hi
  have hb := (Fifo.cursor_bounds (h.cap2 f) (h.cap256 f) hi).2
  obtain ⟨⟨c1, c2, c3, c4, c5, c6⟩, -, -, -, hlen, -⟩ := hi
  have hlt : (s.fifo f).ghost.r < (s.fifo f).ghost.puts.length := by omega
  refine ⟨(s.fifo f).ghost.puts[(s.fifo f).ghost.r], ⟨hb, ?_⟩, List.getElem?_eq_getElem hlt⟩
  rw [hread (by omega), List.getElem?_eq_getElem hlt]

theorem putPort_total (h : s.Inv) (f : FifoId) (d : Byte) :
    ∃ t r, putPort f d s = .ok (t, r) ∧ t.Inv := by
  cases hf : fullW s f with
  | true => exact ⟨_, _, putPort_full hf, h⟩
  | false => exact ⟨_, _, putPort_store hf (h.wbin_lt f), h.pushed hf d⟩

theorem getPort_total (h : s.Inv) (f : FifoId) : ∃ t r, getPort f s = .ok (t, r) ∧ t.Inv := by
  cases he : emptyR s f with
  | true => exact ⟨_, _, getPort_empty he, h⟩
  | false =>
    obtain ⟨v, hv, -⟩ := h.head he
    exact ⟨_, _, getPort_take he hv, h.popped he⟩

theorem State.Inv.sendByte (h : s.Inv) (d : Byte) : (s.sendByte d).Inv :=
  h.congr rfl rfl rfl ⟨fun _ => rfl, h.dev.2⟩

theorem State.Inv.takeByte (h : s.Inv) : s.takeByte.Inv :=
  h.congr rfl rfl rfl ⟨h.dev.1, fun hx => by cases hx⟩

theorem deviceWrite_total (h : s.Inv) (d : Byte) :
    ∃ t r, deviceWrite d s = .ok (t, r) ∧ t.Inv := by
  cases hr : s.dev.txReady with
  | true => exact ⟨_, _, deviceWrite_ready hr, h.sendByte d⟩
  | false => exact ⟨_, _, deviceWrite_busy hr, h⟩

theorem State.Inv.rdr (h : s.Inv) (hr : s.dev.rxReady = true) : ∃ b, s.dev.rdr = some b :=
  Option.isSome_iff_exists.mp (h.dev.2 hr)

theorem deviceRead_total (h : s.Inv) : ∃ t r, deviceRead s = .ok (t, r) ∧ t.Inv := by
  cases hr : s.dev.rxReady with
  | true =>
    obtain ⟨b, hb⟩ := h.rdr hr
    exact ⟨_, _, deviceRead_ready hr hb, h.takeByte⟩
  | false => exact ⟨_, _, deviceRead_none hr, h⟩

theorem outputByte_total (h : s.Inv) : ∃ t r, outputByte s = .ok (t, r) ∧ t.Inv := by
  cases hr : s.dev.txReady with
  | false => exact ⟨_, _, outputByte_busy hr, h⟩
  | true =>
    cases he : emptyR s .tx with
    | true => exact ⟨_, _, outputByte_empty hr he, h⟩
    | false =>
      obtain ⟨v, hv, -⟩ := h.head he
      exact ⟨_, _, outputByte_send hr he hv, (h.popped he).sendByte v⟩

theorem echoByte_total (h : s.Inv) (b : Byte) : ∃ t, echoByte b s = .ok t ∧ t.Inv := by
  cases he : s.params.echo with
  | false => exact ⟨_, echoByte_off he, h⟩
  | true =>
    cases hf : fullW s .tx with
    | true => exact ⟨_, echoByte_full he hf, h.congr rfl rfl rfl h.dev⟩
    | false => exact ⟨_, echoByte_store he hf (h.wbin_lt .tx), h.pushed hf b⟩

theorem inputByte_total (h : s.Inv) : ∃ t r, inputByte s = .ok (t, r) ∧ t.Inv := by
  cases hr : s.dev.rxReady with
  | false => exact ⟨_, _, inputByte_none hr, h⟩
  | true =>
    obtain ⟨b, hb⟩ := h.rdr hr
    cases hf : fullW s .rx with
    | true => exact ⟨_, _, inputByte_drop hr hb hf, h.takeByte.congr rfl rfl rfl h.takeByte.dev⟩
    | false =>
      obtain ⟨t, ht, hi⟩ := echoByte_total
        (State.Inv.pushed (s := s.takeByte) (f := .rx) h.takeByte hf b) b
      refine ⟨t, { status := .ok, data := b }, ?_, hi⟩
      rw [inputByte_store hr hb hf (h.wbin_lt .rx)]
      have ht' : echoByte b (s.takeByte.setFifo .rx (s.rx.pushed (s.cap .rx) b)) = .ok t := ht
      rw [ht']

theorem State.Inv.setEnable (h : s.Inv) (e : Event) (b : Bool) : (s.setEnable e b).Inv := by
  cases e <;> exact h

theorem invocation_total (h : s.Inv) : ∃ t r, invocation s = .ok (t, r) ∧ t.Inv := by
  obtain ⟨t, pm, ht, hti⟩ : ∃ t pm, invokeTransmit (triggeredTx s) s = .ok (t, pm) ∧ t.Inv := by
    cases hx : triggeredTx s with
    | false => exact ⟨s, false, rfl, h⟩
    | true =>
      obtain ⟨t, r, ht, hi⟩ := outputByte_total h
      exact ⟨t, if r.status = .ok then emptyR t .tx else true,
        by simp only [invokeTransmit, if_true, ht], hi⟩
  obtain ⟨u, pu, hu, hui⟩ : ∃ u pu, invokeReceive (triggeredRx s) t = .ok (u, pu) ∧ u.Inv := by
    cases hx : triggeredRx s with
    | false => exact ⟨t, false, rfl, hti⟩
    | true =>
      obtain ⟨u, r, hu, hi⟩ := inputByte_total hti
      exact ⟨u, decide (r.status = .ok), by simp only [invokeReceive, if_true, hu], hi⟩
  refine ⟨invokeApply pm pu u,
    { status := .ok, data := invokeRecord (triggeredTx s) (triggeredRx s) pm pu },
    by simp only [invocation, ht, hu], ?_⟩
  unfold invokeApply
  split
  · exact hui.setEnable _ _
  · split
    · exact hui.setEnable _ _
    · exact hui

end Sys2Proof.Machine
end

