-- ==== Sys2Proof/Laws/PerInstr.lean ====
section
/-!
SUPPORT. Statements made per command: the family EncodedInItsRow.
-/

namespace Sys2Proof.Laws.EncodedInItsRow

/-- The row of 30_encoding.md R79 with the command's own mnemonic selects its word, and its `op`
field is the command's opcode (30_encoding.md R78). -/
def Statement (i : Instr) : Prop :=
  (∀ r ∈ rows, r.selects (encode i) = true ↔ r.mnemonic = i.mnemonic) ∧
    fieldOp (encode i) = i.opcode

theorem put (f : FifoId) (d : Byte) : Statement (.put f d) := by
  revert d; cases f <;> unfold Statement <;> decide

theorem get (f : FifoId) : Statement (.get f) := by
  cases f <;> unfold Statement <;> decide

theorem empty (f : FifoId) (v : Side) : Statement (.empty f v) := by
  cases f <;> cases v <;> unfold Statement <;> decide

theorem full (f : FifoId) (v : Side) : Statement (.full f v) := by
  cases f <;> cases v <;> unfold Statement <;> decide

theorem dsize (f : FifoId) (v : Side) : Statement (.dsize f v) := by
  cases f <;> cases v <;> unfold Statement <;> decide

theorem outb : Statement .outb := by unfold Statement; decide

theorem inb : Statement .inb := by unfold Statement; decide

theorem eni (e : Event) : Statement (.eni e) := by cases e <;> unfold Statement <;> decide

theorem disi (e : Event) : Statement (.disi e) := by cases e <;> unfold Statement <;> decide

theorem trig : Statement .trig := by unfold Statement; decide

theorem stat : Statement .stat := by unfold Statement; decide

theorem hwwr (d : Byte) : Statement (.hwwr d) := by revert d; unfold Statement; decide

theorem hwrd : Statement .hwrd := by unfold Statement; decide

theorem invoke : Statement .invoke := by unfold Statement; decide

end Sys2Proof.Laws.EncodedInItsRow
end

