-- ==== Sys2Proof/Tests/Slice0.lean ====
section
/-!
SUPPORT. The tests of the checks, the decoder and the commands, and a witness for the hypotheses of
every statement. Expected values are the spec's: words bit by bit from 30_encoding.md R79, results from
95_test_vectors.md (each test names its vector), states written out by hand.
-/

namespace Sys2Proof.Tests

open Sys2Proof Sys2Proof.Machine Sys2Proof.Config

/-! ## Helpers -/

/-- The state after reset, N_TX = 2^a and N_RX = 2^b. -/
def small (a b : Nat) (echo : Bool) : State := { State.reset with params := ⟨a, b, echo⟩ }

/-- N = 4 for both, with `ECHO`: the configuration of 95_test_vectors.md. -/
abbrev n4 : State := small 2 2 true

/-- The same block with a word about to be handled for `who`. -/
def State.at (s : State) (who : Issuer) : State := { s with issuer := who }

/-- The state after a few moves, `s` itself if one of them stops. -/
def go (ms : List Move) (s : State) : State :=
  match moves ms s with
  | .next t => t
  | .fault _ => s
  | .refused _ => s

/-- The outcome is a next state of which `p` holds. -/
def after (o : Outcome) (p : State → Bool) : Bool :=
  match o with
  | .next t => p t
  | .fault _ => false
  | .refused _ => false

/-- The outcome is a next state that hands this response word to the issuer. -/
def answers (o : Outcome) (w : Word) : Bool := after o fun t => decide (t.response = some w)

/-- `s` is admitted, and the issuer of the word in hand may issue `i`. -/
def may (s : State) (i : Instr) : Bool := s.params.admitted && mayIssue s.issuer i

/-- The bytes put into TX by `FG`, in order. -/
def fill (bs : List Byte) : List Move := bs.map fun b => .port .fg (encode (.put .tx b))

/-- The write cursor of `f` carried across to its read side. -/
def across (f : FifoId) : List Move := [.agent (.syncW2R f), .agent (.syncW2R f)]

/-- One byte in TX, not yet visible to the read side (95_test_vectors.md T2). -/
def inFlight : State := go (fill [0x41]) n4

/-- One byte in TX, visible (T3). -/
def visible : State := go (across .tx) inFlight

/-- TX full on the write side: three bytes, N = 4 (F7). -/
def filled : State := go (fill [0x01, 0x02, 0x03]) n4

/-- N = 2, and one byte has gone through TX: both cursors of TX name the last slot. -/
def halfway : State :=
  go (fill [1] ++ across .tx ++
    [.port .disp 0x2000, .agent (.syncR2W .tx), .agent (.syncR2W .tx)]) (small 1 1 true)

/-- A byte waits at the device (T7). -/
def waiting : State := go [.agent (.devRxArrive 0x41)] n4

/-- RX full: three bytes in it, N = 4 (the "RBF" rows of 95_test_vectors.md). -/
def rxFilled : State :=
  go [.port .disp 0x1171, .port .disp 0x1172, .port .disp 0x1173, .agent (.devRxArrive 0x41)] n4

/-- The moves of the program P3, as a run of the agents: the host's `ENQUEUE TX, 0x41`, an invocation
that sees nothing yet, the arrival re-arm, the invocation that sends the byte, the device, and the slot's
way back. -/
def p3Moves : List Move :=
  [.agent .fg, .agent .fg, .agent .irq, .agent (.syncW2R .tx), .agent (.syncW2R .tx), .agent .irq,
    .agent .devTxDone, .agent (.syncR2W .tx), .agent (.syncR2W .tx)]

/-- The start of P3: the host is about to issue `ENQUEUE TX, 0x41`. -/
def p3Start : State := { n4 with fg := { program := [.enqueue 0 [0x41]], stored := 0 } }

/-- The state before step `n` of P3, the last state from then on. -/
def p3 (n : Nat) : State := go (p3Moves.take n) p3Start

/-- The synchronisers, in turn. -/
def turn (n : Nat) : Move :=
  if n % 4 = 0 then .agent (.syncW2R .tx)
  else if n % 4 = 1 then .agent (.syncW2R .rx)
  else if n % 4 = 2 then .agent (.syncR2W .tx)
  else .agent (.syncR2W .rx)

/-- The moves of P3, then the synchronisers in turn for ever. -/
def p3Move (n : Nat) : Move := if n < 9 then p3Moves.getD n .reset else turn n

/-- The synchronisers in turn, and every fifth time a `STAT` from the foreground, for ever. -/
def pollMove (n : Nat) : Move := if n % 5 = 4 then .port .fg 0xB000 else turn (n % 5)

/-- The state before step `n` of that run from reset: `STAT` leaves its response, and no more. -/
def poll (n : Nat) : State := if n % 5 = 0 then { n4 with response := some 0x0600 } else n4

/-! ## The checks refuse ill-formed terms -/

theorem test_log2_zero_refused : admittedLog2 0 = false := by decide

theorem test_log2_nine_refused : admittedLog2 9 = false := by decide

theorem test_log2_bounds_admitted : admittedLog2 1 = true ∧ admittedLog2 8 = true := by decide

theorem test_params_refused_if_either_is :
    Params.admitted ⟨9, 8, true⟩ = false ∧ Params.admitted ⟨8, 0, true⟩ = false := by decide

theorem test_data_256_refused : dataOperandOk 256 = false ∧ dataOperandOk 255 = true := by decide

theorem test_put_256_refused : Asm.wellFormed (.put .tx 256) = false := by decide

theorem test_hwwr_300_refused : Asm.wellFormed (.hwwr 300) = false := by decide

theorem test_plain_put_refused :
    Asm.wellFormed (.plain (.put .tx 0)) = false ∧
      Asm.wellFormed (.plain (.hwwr 0)) = false := by decide

theorem test_enqueue_rx_refused : Asm.wellFormed (.enqueue .rx []) = false := by decide

theorem test_enqueue_256_refused : Asm.wellFormed (.enqueue .tx [0, 256]) = false := by decide

/-- 30_encoding.md R93: `ENQUEUE` with n = 0 is `ENI TX` alone. -/
theorem test_enqueue_nothing_admitted : assemble (.enqueue .tx []) = some [0x8000] := by decide

/-- 30_encoding.md R91: an issuer prefix is no part of the encoding; 256 is a syntax error. -/
theorem test_parse_text :
    parseAsm ['F', 'G', ':', ' ', 'P', 'U', 'T', ' ', 'T', 'X', ',', ' ', '6', '5'] =
      some (some .fg, .put .tx 65) ∧
    parseAsm ['P', 'U', 'T', ' ', 'T', 'X', ',', ' ', '2', '5', '6'] = none := by decide

/-- 30_encoding.md R92. -/
theorem test_show_word :
    disassemble 0xF123 = ['.', 'w', 'o', 'r', 'd', ' ', '0', 'x', 'F', '1', '2', '3'] := by decide

/-- The model's choice of spelling (log 20). -/
theorem test_parse_digits_and_case :
    readNumber ['0', 'x', '5'] = some 5 ∧ readNumber ['0', '0', '7'] = some 7 ∧
    parseAsm ['o', 'u', 't', 'b'] = none := by decide

/-- The model's choice: a prefix restricts no line (log 20). -/
theorem test_parse_enqueue_prefix :
    parseAsm ['D', 'I', 'S', 'P', ':', ' ', 'E', 'N', 'Q', 'U', 'E', 'U', 'E', ' ', 'T', 'X'] =
      some (some .disp, .enqueue .tx []) := by decide

/-! ## Words written out from the table of 30_encoding.md R79 -/

theorem test_decode_put_tx : decode 0b0001000001000001 = some (.put .tx 0x41) := by decide

theorem test_decode_put_rx : decode 0b0001000111111111 = some (.put .rx 0xFF) := by decide

theorem test_decode_get_tx : decode 0b0010000000000000 = some (.get .tx) := by decide

theorem test_decode_get_rx : decode 0b0010000100000000 = some (.get .rx) := by decide

theorem test_decode_empty_rx_r : decode 0b0011010100000000 = some (.empty .rx .r) := by decide

theorem test_decode_empty_tx_w : decode 0b0011000000000000 = some (.empty .tx .w) := by decide

theorem test_decode_full_tx_r : decode 0b0100010000000000 = some (.full .tx .r) := by decide

theorem test_decode_full_rx_w : decode 0b0100000100000000 = some (.full .rx .w) := by decide

theorem test_decode_dsize_rx_r : decode 0b0101010100000000 = some (.dsize .rx .r) := by decide

theorem test_decode_outb : decode 0b0110000000000000 = some .outb := by decide

theorem test_decode_inb : decode 0b0111000000000000 = some .inb := by decide

theorem test_decode_eni_tx : decode 0b1000000000000000 = some (.eni .tx) := by decide

theorem test_decode_eni_rx : decode 0b1000001000000000 = some (.eni .rx) := by decide

theorem test_decode_disi_rx : decode 0b1001001000000000 = some (.disi .rx) := by decide

theorem test_decode_trig : decode 0b1010000000000000 = some .trig := by decide

theorem test_decode_stat : decode 0b1011000000000000 = some .stat := by decide

theorem test_decode_hwwr : decode 0b1100000000001010 = some (.hwwr 0x0A) := by decide

theorem test_decode_hwrd : decode 0b1101000000000000 = some .hwrd := by decide

theorem test_decode_invoke : decode 0b1110000000000000 = some .invoke := by decide

/-- 30_encoding.md R87. -/
theorem test_decode_reserved_opcodes : decode 0x0000 = none ∧ decode 0xF123 = none := by decide

/-- 30_encoding.md R88: `PUT` with `z`, `s` or `e` 1, `GET` with `d` not 0. -/
theorem test_decode_must_be_zero :
    decode 0x1800 = none ∧ decode 0x1400 = none ∧ decode 0x1200 = none ∧
      decode 0x2001 = none := by decide

theorem test_decode_table_word :
    decodeTableWord 16 0x1041 = some (.put .tx 0x41) ∧ decodeTableWord 16 0x0000 = none := by decide

/-- A word of each row placed after reset is handled by the next step, and not as `Illegal`. -/
theorem test_every_row_runs_from_reset :
    ∀ w ∈ [0x1041, 0x2000, 0x3000, 0x4000, 0x5000, 0x6000, 0x7000, 0x8000, 0x9000, 0xA000,
      0xB000, 0xC00A, 0xD000, 0xE000],
    after (step (State.reset.withFetchWord 16 w)) fun t => !t.diag.illegal := by decide

/-! ## One step -/

/-- 40_fifo_core.md R96, example. -/
theorem test_put_stores :
    after (exec (.put .tx 0x41) n4) fun t =>
      decide (t.tx.mem.read 0 = some 0x41 ∧ t.tx.wbin = 1 ∧ t.tx.wgray = 0b01 ∧
      t.response = some 0x0000) := by decide

/-- F15: with N = 2 the second byte does not fit. -/
theorem test_put_two_slots :
    answers (exec (.put .tx 0x78) (go (fill [0x77]) (small 1 1 true))) 0x0001 := by decide

/-- P1, step 5: the byte is in flight. -/
theorem test_get_in_flight : answers (exec (.get .tx) (State.at inFlight .disp)) 0x0002 := by decide

/-- 40_fifo_core.md R97, example; the slot keeps its byte. -/
theorem test_get_visible :
    after (exec (.get .tx) (State.at visible .disp)) fun t =>
      decide (t.response = some 0x4100 ∧ t.tx.rbin = 1 ∧ t.tx.rgray = 0b01 ∧
      t.tx.mem.read 0 = some 0x41) := by decide

/-- F16. -/
theorem test_empty_after_reset : answers (exec (.empty .rx .r) n4) 0x0100 := by decide

/-- 40_fifo_core.md R99, example. -/
theorem test_full_with_three : answers (exec (.full .tx .w) filled) 0x0100 := by decide

/-- 40_fifo_core.md R100: three bytes on the write side, none visible on the read side. -/
theorem test_dsize_views_differ :
    answers (exec (.dsize .tx .w) filled) 0x0300 ∧
    answers (exec (.dsize .tx .r) (State.at filled .disp)) 0x0000 := by decide

/-- T3. -/
theorem test_outb_sends :
    after (exec .outb (State.at visible .disp)) fun t =>
      decide (t.response = some 0x4100 ∧ t.tx.rbin = 1 ∧ t.dev.tdr = some 0x41 ∧
      t.dev.txReady = false) := by decide

/-- E1: the device test comes before the empty test. -/
theorem test_outb_device_first :
    answers (exec .outb (State.at (go [.port .disp 0xC00A] n4) .disp)) 0x0003 := by decide

/-- T7. -/
theorem test_inb_echoes :
    after (exec .inb (State.at waiting .disp)) fun t =>
      decide (t.response = some 0x4100 ∧ t.rx.mem.read 0 = some 0x41 ∧ t.tx.mem.read 0 = some 0x41 ∧
        t.rx.wbin = 1 ∧ t.tx.wbin = 1 ∧ t.dev.rxReady = false) := by decide

/-- T9, with another byte: RX has no room; nothing is echoed. -/
theorem test_inb_drops :
    after (exec .inb (State.at rxFilled .disp)) fun t =>
      decide (t.response = some 0x4104 ∧ t.dev.rxReady = false ∧ t.diag.rxDrop = true ∧
      t.tx.wbin = 0) := by decide

/-- M1. -/
theorem test_eni_tx :
    after (exec (.eni .tx) n4) fun t => decide (t.ier.txEn = true ∧ irq t = true) := by decide

/-- 30_encoding.md R86. -/
theorem test_eni_rx_from_fg : answers (exec (.eni .rx) n4) 0x000F := by decide

/-- M3. -/
theorem test_disi_rx :
    after (exec (.disi .rx) (State.at n4 .disp)) fun t =>
      decide (t.ier.rxEn = false ∧ t.response = some 0x0000) := by decide

/-- M4. -/
theorem test_trig_masked : answers (exec .trig n4) 0x0000 := by decide

/-- M6. -/
theorem test_trig_receive : answers (exec .trig waiting) 0x0200 := by decide

/-- M7. -/
theorem test_stat_after_reset : answers (exec .stat n4) 0x0600 := by decide

/-- M8. -/
theorem test_stat_unmasked : answers (exec .stat (go [.port .fg 0x8000] n4)) 0x8700 := by decide

/-- T11. -/
theorem test_hwwr :
    after (exec (.hwwr 0x0A) (State.at n4 .disp)) fun t =>
      decide (t.dev.tdr = some 0x0A ∧ t.dev.txReady = false ∧ t.response = some 0x0000) := by decide

/-- T13. -/
theorem test_hwrd :
    after (exec .hwrd (State.at waiting .disp)) fun t =>
      decide (t.response = some 0x4100 ∧ t.dev.rxReady = false ∧ t.dev.rdr = some 0x41) := by decide

/-- I2. -/
theorem test_invoke_echo :
    after (exec .invoke (State.at waiting .irq)) fun t =>
      decide (t.response = some 0x2A00 ∧ t.ier.txEn = true ∧ t.tx.wbin = 1 ∧
      t.rx.wbin = 1) := by decide

/-- I9: the pop empties the view and a byte is received: UNMASK wins. -/
theorem test_invoke_last_byte_and_receive :
    after (exec .invoke (State.at (go [.agent (.devRxArrive 0x41)] visible) .irq)) fun t =>
      decide (t.response = some 0x2F00 ∧ t.ier.txEn = true ∧ t.dev.tdr = some 0x41) := by decide

/-- A2. -/
theorem test_rearm :
    after (move (.agent (.syncW2R .tx)) (go [.agent (.syncW2R .tx)] inFlight)) fun t =>
      decide (t.tx.rq2 = 0b01 ∧ t.ier.txEn = true) := by decide

/-- A4, with three bytes. -/
theorem test_rearm_is_tx_only :
    after (moves (across .rx) rxFilled) fun t =>
      decide (t.rx.rq2 = 0b10 ∧ t.ier.txEn = false) := by decide

/-- F19. -/
theorem test_gray_of_255 :
    gray 255 = 0x80 ∧ gray 254 = 0x81 ∧ gray 128 = 0xC0 ∧ gray 0x41 = 0x61 := by decide

/-! ## Witnesses: the hypotheses of each statement are met together -/

theorem test_witness_EveryWordIsOneRowOrNoCommand :
    (∃ r ∈ rows, r.selects 0x10FF = true) ∧ (∀ r ∈ rows, r.selects 0xF000 = false) := by decide

theorem test_witness_IssuerTable :
    State.reset.params.admitted = true ∧
      mayIssue State.reset.issuer (.disi .tx) = false := by decide

/-- One state with an agenda and one without. -/
theorem test_witness_StepTakesTheNextMove :
    let s : State := { n4 with agenda := [.reset] }
    s.params.admitted = true ∧ s.agenda = .reset :: [] ∧ n4.agenda = [] := ⟨by decide, rfl, rfl⟩

theorem test_witness_StepHandles_port :
    ({ n4 with agenda := [.port .disp 0x6000] } : State).agenda = .port .disp 0x6000 :: [] ∧
      decode 0x6000 = some .outb := ⟨rfl, by decide⟩

theorem test_witness_StepHandles_fg :
    let s : State := { n4 with agenda := [.agent .fg], fg := { program := [.word 0x2100], stored := 0 } }
    s.agenda = .agent .fg :: [] ∧ s.fg.program = .word 0x2100 :: [] ∧
      decode 0x2100 = some (.get .rx) := ⟨rfl, rfl, by decide⟩

theorem test_witness_StepHandles_irq :
    let s : State := { waiting with agenda := [.agent .irq] }
    s.agenda = .agent .irq :: [] ∧ irq s = true := ⟨rfl, by decide⟩

/-- A word for each port. -/
theorem test_witness_PlacedWordIsHandledNext :
    decode 0x1041 = some (.put .tx 0x41) ∧ decode 0x2000 = some (.get .tx) ∧
      decode 0xE000 = some .invoke := by decide

theorem test_witness_IllegalWord_kinds :
    fieldOp 0x0000 = 0x0 ∧ fieldOp 0xFFFF = 0xF ∧
    (∃ r ∈ rows, fieldOp r.pattern = fieldOp 0x1800 ∧ 0x1800 &&& r.mask ≠ r.pattern) ∧
    (decode 0x2000 = some (.get .tx) ∧ mayIssue .fg (.get .tx) = false) := by decide

/-- With any word, each of those above too. -/
theorem test_witness_IllegalWord_agenda :
    ∀ w : Word, let s : State := { n4 with agenda := [.port .fg w] }
    s.params.admitted = true ∧ s.agenda = .port .fg w :: [] := fun _ => ⟨rfl, rfl⟩

theorem test_witness_IllegalWord_sticky :
    let s := go [.port .fg 0x0000] n4
    s.diag.illegal = true ∧ after (move (.port .fg 0xB000) s) fun _ => true := by decide

theorem test_witness_OtherCapacitiesAreRefused :
    ¬ (1 ≤ (small 0 8 true).params.txLog2) ∧ ¬ ((small 8 9 true).params.rxLog2 ≤ 8) := by decide

/-- Also of `CommandsLeaveTheOutsideAlone`. -/
theorem test_witness_EveryResponse :
    (after (exec .outb (State.at n4 .disp)) fun _ => mayIssue .disp .outb) ∧
    (after (exec .outb n4) fun _ => !mayIssue .fg .outb) := by decide

/-- N - 1 bytes. -/
theorem test_witness_Put_full :
    may filled (.put .tx 0) = true ∧ fullW filled .tx = true := by decide

/-- The last slot, from which the cursor wraps. -/
theorem test_witness_Put_last_slot :
    may halfway (.put .tx 0) = true ∧ fullW halfway .tx = false ∧
    halfway.tx.wbin.toNat < halfway.cap .tx ∧ halfway.tx.wbin.toNat = halfway.cap .tx - 1 := by
  refine ⟨?_, ?_, ?_, ?_⟩ <;> decide

theorem test_witness_Put_rx :
    may (State.at n4 .disp) (.put .rx 0) = true ∧ fullW n4 .rx = false ∧
      n4.rx.wbin.toNat < n4.cap .rx := by decide

theorem test_witness_Get_empty : may n4 (.get .rx) = true ∧ emptyR n4 .rx = true := by decide

theorem test_witness_Get_first :
    may (State.at visible .disp) (.get .tx) = true ∧ emptyR visible .tx = false ∧
      visible.tx.headIs (visible.cap .tx) 0x41 := by decide

/-- The last slot, from which the cursor wraps. -/
theorem test_witness_Get_last_slot :
    let s := State.at (go (fill [2] ++ across .tx) halfway) .disp
    may s (.get .tx) = true ∧ emptyR s .tx = false ∧ s.tx.headIs (s.cap .tx) 2 ∧
      s.tx.rbin.toNat = s.cap .tx - 1 := by
  refine ⟨?_, ?_, ⟨?_, ?_⟩, ?_⟩ <;> decide

theorem test_witness_StatusCommands :
    may n4 (.empty .tx .w) = true ∧ may n4 (.full .rx .r) = true ∧
    may (State.at n4 .disp) (.dsize .tx .r) = true ∧
      may (State.at n4 .disp) (.dsize .rx .w) = true := by decide

/-- The largest and the smallest size. -/
theorem test_witness_StatusCommands_sizes :
    dsizeW filled .tx = filled.cap .tx - 1 ∧ dsizeR filled .tx = 0 := by decide

theorem test_witness_Slots_out_of_range :
    let s : State := { n4 with tx := { n4.tx with wbin := 4, rbin := 4 }, issuer := .disp }
    may s (.put .tx 0) = true ∧ may s (.get .tx) = true ∧ fullW s .tx = false ∧
      emptyR s .tx = false ∧
      s.cap .tx ≤ s.tx.wbin.toNat ∧ s.cap .tx ≤ s.tx.rbin.toNat := by decide

theorem test_witness_Slots_unwritten :
    let s : State := { n4 with tx := { n4.tx with rq2 := 1 }, issuer := .disp }
    may s (.get .tx) = true ∧ emptyR s .tx = false ∧ s.tx.rbin.toNat < s.cap .tx ∧
      s.tx.mem.read s.tx.rbin.toNat = none := by decide

/-- Also of `OneByteAtATime`. -/
theorem test_witness_CursorsMoveOnlyByOne :
    (after (exec (.put .tx 1) n4) fun t => t.tx.wbin != n4.tx.wbin) ∧
    (after (exec .outb (State.at visible .disp)) fun t => t.tx.rbin != visible.tx.rbin) := by decide

theorem test_witness_EachContextKeepsToItsPorts :
    (after (exec (.eni .tx) n4) fun t => t.ier.txEn && !n4.ier.txEn) ∧
    (after (exec .inb (State.at waiting .disp)) fun t => t.rx.wbin != waiting.rx.wbin) := by decide

theorem test_witness_Outb_not_ready :
    let s := go [.port .disp 0xC00A] n4
    may s .outb = true ∧ s.dev.txReady = false := by decide

theorem test_witness_Outb_empty :
    may (State.at inFlight .disp) .outb = true ∧ inFlight.dev.txReady = true ∧
      emptyR inFlight .tx = true := by decide

theorem test_witness_Outb_sends :
    may (State.at visible .disp) .outb = true ∧ visible.dev.txReady = true ∧
      emptyR visible .tx = false ∧
    visible.tx.headIs (visible.cap .tx) 0x41 := by decide

theorem test_witness_Inb_not_ready :
    may (State.at n4 .disp) .inb = true ∧ n4.dev.rxReady = false := by decide

theorem test_witness_Inb_full :
    may (State.at rxFilled .disp) .inb = true ∧ rxFilled.dev.rxReady = true ∧
      rxFilled.dev.rdr = some 0x41 ∧ fullW rxFilled .rx = true := by decide

theorem test_witness_Inb_no_echo :
    let s := State.at (go [.agent (.devRxArrive 0x41)] (small 2 2 false)) .disp
    may s .inb = true ∧ s.dev.rxReady = true ∧ s.dev.rdr = some 0x41 ∧ fullW s .rx = false ∧
      s.rx.wbin.toNat < s.cap .rx ∧
      s.params.echo = false := by decide

theorem test_witness_Inb_echo_dropped :
    let s := State.at (go [.agent (.devRxArrive 0x41)] filled) .disp
    may s .inb = true ∧ s.dev.rxReady = true ∧ s.dev.rdr = some 0x41 ∧ fullW s .rx = false ∧
      s.rx.wbin.toNat < s.cap .rx ∧
      s.params.echo = true ∧ fullW s .tx = true := by decide

theorem test_witness_Inb_echo :
    may (State.at waiting .disp) .inb = true ∧ waiting.dev.rxReady = true ∧
      waiting.dev.rdr = some 0x41 ∧ fullW waiting .rx = false ∧
    waiting.rx.wbin.toNat < waiting.cap .rx ∧ waiting.params.echo = true ∧
      fullW waiting .tx = false ∧
    waiting.tx.wbin.toNat < waiting.cap .tx := by decide

theorem test_witness_Hwwr :
    may (State.at n4 .disp) (.hwwr 0) = true ∧ n4.dev.txReady = true ∧
      (go [.port .disp 0xC00A] n4).dev.txReady = false := by decide

theorem test_witness_Hwrd :
    may (State.at n4 .disp) .hwrd = true ∧ n4.dev.rxReady = false ∧ waiting.dev.rxReady = true ∧
      waiting.dev.rdr = some 0x41 := by decide

theorem test_witness_Eni :
    may n4 (.eni .tx) = true ∧ may (State.at n4 .disp) (.eni .rx) = true := by decide

theorem test_witness_Disi :
    may (State.at n4 .disp) (.disi .tx) = true ∧
      may (State.at n4 .disp) (.disi .rx) = true := by decide

theorem test_witness_Trig_Stat : may n4 .trig = true ∧ may n4 .stat = true := by decide

/-- An invocation with both events (I9); also of `InvokeFollowsTheDecisionTable`. -/
theorem test_witness_Invoke_both :
    let s := State.at (go [.agent (.devRxArrive 0x41)] visible) .irq
    s.Inv ∧ triggeredTx s = true ∧ triggeredRx s = true := by
  refine ⟨⟨?_, ?_, ?_, ?_⟩, ?_, ?_⟩ <;> decide

theorem test_witness_Invoke_neither :
    (State.at n4 .irq).Inv ∧ triggeredTx n4 = false ∧ triggeredRx n4 = false := by
  refine ⟨⟨?_, ?_, ?_, ?_⟩, ?_, ?_⟩ <;> decide

theorem test_witness_OneByteAtATime_received :
    after (exec .invoke (State.at waiting .irq)) fun t =>
      decide (t.rx.ghost.puts = waiting.rx.ghost.puts ++ [0x41] ∧
      t.tx.ghost.puts = waiting.tx.ghost.puts ++ [0x41]) := by decide

theorem test_witness_OneByteAtATime_sent :
    after (exec .invoke (State.at visible .irq)) fun t =>
      decide (t.tx.ghost.r = visible.tx.ghost.r + 1) := by decide

/-- The second case: the invocation applied UNMASK. -/
theorem test_witness_AtMostTwoInvocationsInARow :
    waiting.Inv ∧ irq waiting = true ∧
    after (move (.agent .irq) waiting) fun t => irq t && triggeredRx waiting && t.ier.txEn && !t.dev.rxReady := by
  refine ⟨⟨?_, ?_, ?_, ?_⟩, ?_, ?_⟩ <;> decide

theorem test_witness_OnlyTheseEvents_masked :
    Move.ofRun (.agent .irq) = true ∧ visible.ier.txEn = true ∧
    after (move (.agent .irq) visible) fun t => !t.ier.txEn := by decide

theorem test_witness_OnlyTheseEvents_unmasked :
    (after (move (.port .fg 0x8000) n4) fun t => t.ier.txEn && !n4.ier.txEn) ∧
    (after (move (.agent .irq) waiting) fun t => t.ier.txEn && !waiting.ier.txEn) ∧
    (after (move (.agent (.syncW2R .tx)) (go [.agent (.syncW2R .tx)] inFlight)) fun t =>
      t.ier.txEn && !inFlight.ier.txEn) := by decide

theorem test_witness_SyncW2R_arrival :
    let s := go [.agent (.syncW2R .tx)] inFlight
    s.Inv ∧ after (move (.agent (.syncW2R .tx)) s) fun t => bin t.tx.rq2 != bin s.tx.rq2 := by
  refine ⟨⟨?_, ?_, ?_, ?_⟩, ?_⟩ <;> decide

theorem test_witness_ChangesCross_put : n4.Inv ∧ answers (exec (.put .tx 0x41) n4) 0x0000 := by
  refine ⟨⟨?_, ?_, ?_, ?_⟩, ?_⟩ <;> decide

theorem test_witness_ChangesCross_get :
    (State.at visible .disp).Inv ∧
      answers (exec (.get .tx) (State.at visible .disp)) (0x41#8 ++ 0x00#8) := by
  refine ⟨⟨?_, ?_, ?_, ?_⟩, ?_⟩ <;> decide

/-- The last cursor of the smallest and of the largest FIFO. -/
theorem test_witness_GrayCode :
    (1 : Cursor).toNat < 2 ^ 1 ∧ (255 : Cursor).toNat < 2 ^ 8 := by decide

theorem test_witness_DeviceSteps :
    let s := go [.port .disp 0xC00A] n4
    s.dev.txReady = false ∧ s.dev.tdr = some 0x0A ∧ s.dev.rxReady = false ∧ n4.dev.txReady = true ∧
      waiting.dev.rxReady = true := by decide

theorem test_witness_OnlyTheDevice_moves :
    (after (move (.agent .devTxDone) (go [.port .disp 0xC00A] n4)) fun t => t.dev.txReady) ∧
    (after (move (.agent (.devRxArrive 0x41)) n4) fun t => t.dev.rxReady && !n4.dev.rxReady) := by decide

theorem test_witness_OnlyTheDevice_commands :
    (after (exec (.hwwr 0x0A) (State.at n4 .disp)) fun t => n4.dev.txReady && !t.dev.txReady) ∧
    (after (exec .hwrd (State.at waiting .disp)) fun t => waiting.dev.rxReady && !t.dev.rxReady) := by decide

theorem test_witness_IrqAgent :
    (waiting.dev.rxReady = true ∧ waiting.ier.rxEn = true) ∧
    ¬ ((n4.dev.txReady = true ∧ n4.ier.txEn = true) ∨ (n4.dev.rxReady = true ∧
      n4.ier.rxEn = true)) := by decide

theorem test_witness_DiagFlagsAreSticky :
    let s := go [.port .disp 0x7000] rxFilled
    s.diag.rxDrop = true ∧ (after (move (.agent .irq) s) fun _ => true) ∧
      (after (exec .inb (State.at rxFilled .disp)) fun t => t.diag.rxDrop && !rxFilled.diag.rxDrop) := by decide

theorem test_witness_CleanReset : n4.CleanReset := by decide

/-- Also of `NoStepStopsFromTheInvariant` and `ViewsAreConservative`. -/
theorem test_witness_EveryStepKeepsTheInvariant :
    let s : State := { visible with agenda := [.agent .irq] }
    s.Inv ∧ after (step s) fun _ => true := by
  refine ⟨⟨?_, ?_, ?_, ?_⟩, ?_⟩ <;> decide

theorem test_witness_EveryStepKeepsTheRunInvariant :
    let s : State := { visible with agenda := [.agent .irq] }
    s.RunInv ∧ after (step s) fun _ => true := by
  refine ⟨⟨⟨?_, ?_, ?_, ?_⟩, ?_, ?_, ?_, ?_⟩, ?_⟩ <;> decide

theorem test_witness_PutNeverOverwrites :
    inFlight.Inv ∧ answers (exec (.put .tx 0x42) inFlight) 0x0000 ∧
    inFlight.tx.ghost.r ≤ 0 ∧ 0 < inFlight.tx.ghost.w := by
  refine ⟨⟨?_, ?_, ?_, ?_⟩, ?_, ?_, ?_⟩ <;> decide

theorem test_witness_BytesLeaveInOrder :
    let s := State.at visible .disp
    s.Inv ∧ mayIssue s.issuer (.get .tx) = true ∧ emptyR s .tx = false ∧
      mayIssue s.issuer (.put .tx 0x42) = true ∧ fullW s .tx = false := by
  refine ⟨⟨?_, ?_, ?_, ?_⟩, ?_, ?_, ?_, ?_⟩ <;> decide

theorem test_witness_Echo_stored :
    let s := State.at waiting .disp
    s.Inv ∧ s.params.echo = true ∧ s.dev.rxReady = true ∧ fullW s .rx = false ∧
      dsizeW s .tx < s.cap .tx - 1 := by
  refine ⟨⟨?_, ?_, ?_, ?_⟩, ?_, ?_, ?_, ?_⟩ <;> decide

theorem test_witness_Echo_dropped :
    let s := State.at (go [.agent (.devRxArrive 0x41)] filled) .disp
    s.Inv ∧ s.params.echo = true ∧ s.dev.rxReady = true ∧ fullW s .rx = false ∧
      ¬ dsizeW s .tx < s.cap .tx - 1 := by
  refine ⟨⟨?_, ?_, ?_, ?_⟩, ?_, ?_, ?_, ?_⟩ <;> decide

theorem test_witness_MaskedNonEmptyTxIsReArmed :
    inFlight.RunInv ∧ inFlight.ier.txEn = false ∧ 0 < occ inFlight .tx := by
  refine ⟨⟨⟨?_, ?_, ?_, ?_⟩, ?_, ?_, ?_, ?_⟩, ?_, ?_⟩ <;> decide

theorem test_witness_DrainRounds : filled.RunInv ∧ occ filled .tx = 3 := by
  refine ⟨⟨⟨?_, ?_, ?_, ?_⟩, ?_, ?_, ?_, ?_⟩, ?_⟩ <;> decide

/-- The end of P3. -/
theorem test_witness_Quiescent :
    (p3 9).RunInv ∧ (p3 9).Quiescent ∧ (p3 9).dev.lineOut = [0x41] := by
  refine ⟨⟨⟨?_, ?_, ?_, ?_⟩, ?_, ?_, ?_, ?_⟩, ⟨?_, ?_, ?_, ?_, ?_⟩, ?_⟩ <;> decide

/-- With a move on the agenda that is no arrival. -/
theorem test_witness_QuiescentStepsChangeNothing :
    let s : State := { p3 9 with agenda := [.agent .irq] }
    s.RunInv ∧ s.Quiescent ∧ (nextMove s).1 = .agent .irq := by
  refine ⟨⟨⟨?_, ?_, ?_, ?_⟩, ?_, ?_, ?_, ?_⟩, ⟨?_, ?_, ?_, ?_, ?_⟩, ?_⟩ <;> decide

/-- 70_reset_and_hazards.md R163: a foreground command or a byte arrival still to come. -/
theorem test_foreground_word_to_come_is_not_quiescent :
    ¬ State.Quiescent { State.reset with agenda := [.port .fg 0x1041] } ∧
    ¬ State.Quiescent { State.reset with agenda := [.agent (.devRxArrive 0x41)] } ∧
      State.reset.Quiescent := by decide

/-- The table of 10_state.md R23. -/
theorem test_clock_domains :
    Params.domain ⟨8, 8, true⟩ (.side .tx .w) = .I ∧
      Params.domain ⟨8, 8, false⟩ (.side .tx .w) = .P ∧
    Params.domain ⟨8, 8, true⟩ (.side .rx .r) = .P ∧ Params.domain ⟨8, 8, true⟩ .ier = .I ∧
    Params.domain ⟨8, 8, true⟩ .devicePort = .I := by decide

theorem test_witness_EnqueueStops_full :
    let s : State := { filled with fg := { program := [.enqueue 3 [0x0A]], stored := 0 } }
    s.params.admitted = true ∧ s.fg.program = .enqueue 3 [0x0A] :: [] ∧
      fullW s .tx = true := ⟨by decide, rfl, by decide⟩

theorem test_witness_EnqueueStops_room :
    p3Start.fg.program = .enqueue 0 [0x41] :: [] ∧ fullW p3Start .tx = false ∧
      p3Start.tx.wbin.toNat < p3Start.cap .tx := by decide

theorem test_witness_EnqueueStops_end :
    (p3 1).fg.program = .enqueue 1 [] :: [] ∧ (p3 1).params.admitted = true := by decide

theorem test_witness_EnqueueAlone : p3Start.Inv ∧ p3Start.fg.program = .enqueue 0 [0x41] :: [] := by
  refine ⟨⟨?_, ?_, ?_, ?_⟩, ?_⟩ <;> decide

/-- Once P3 is over, its run stays where it is. -/
theorem p3_after (n : Nat) (h : 9 ≤ n) : p3 n = p3 9 := by
  unfold p3
  rw [List.take_of_length_le (show p3Moves.length ≤ n from h)]
  rfl

/-- Each synchroniser has its turn again. -/
theorem turn_again (n : Nat) :
    turn (4 * n) = .agent (.syncW2R .tx) ∧ turn (4 * n + 1) = .agent (.syncW2R .rx) ∧
      turn (4 * n + 2) = .agent (.syncR2W .tx) ∧ turn (4 * n + 3) = .agent (.syncR2W .rx) := by
  have h (k : Nat) (hk : k < 4) : (4 * n + k) % 4 = k := by omega
  refine ⟨?_, ?_, ?_, ?_⟩ <;> unfold turn
  · rw [show 4 * n % 4 = 0 by omega]; rfl
  · rw [h 1 (by decide)]; rfl
  · rw [h 2 (by decide)]; rfl
  · rw [h 3 (by decide)]; rfl

/-- A property of the four synchroniser steps is one of every `turn`. -/
theorem turn_all {P : Move → Prop} (h : ∀ f, P (.agent (.syncW2R f)) ∧ P (.agent (.syncR2W f)))
    (n : Nat) : P (turn n) := by
  unfold turn
  split
  · exact (h .tx).1
  split
  · exact (h .rx).1
  split
  · exact (h .tx).2
  · exact (h .rx).2

/-- Each of the first nine moves of P3 leads to the next state. -/
theorem p3_steps : ∀ n < 9, after (move (p3Move n) (p3 n)) fun t => decide (t = p3 (n + 1)) := by
  decide

/-- An outcome of which `after` says that it is the state `t` is that state. -/
theorem after_eq (o : Outcome) (t : State) (h : after o (fun u => decide (u = t)) = true) :
    o = .next t := by
  cases o with
  | next u => exact congrArg _ (of_decide_eq_true h)
  | fault _ => cases h
  | refused _ => cases h

/-- P3 is a fair run of the agents: the premises of `FairRunsSendEveryByte`. -/
theorem test_witness_FairRuns : (p3 0).RunInv ∧ FairRun p3 p3Move := by
  refine ⟨by refine ⟨⟨?_, ?_, ?_, ?_⟩, ?_, ?_, ?_, ?_⟩ <;> decide, ?_, ?_, ?_, ?_, ?_, ?_⟩
  · intro n
    by_cases h : n < 9
    · exact (by decide : ∀ n < 9, (p3Move n).ofRun = true ∧ p3Move n ≠ .reset) n h
    · rw [p3Move, if_neg h]
      exact turn_all (P := fun m => m.ofRun = true ∧ m ≠ .reset)
        (fun f => by cases f <;> decide) n
  · intro n
    by_cases h : n < 9
    · exact after_eq _ _ (p3_steps n h)
    · rw [p3_after n (by omega), p3_after (n + 1) (by omega), p3Move, if_neg h]
      exact turn_all (P := fun m => move m (p3 9) = .next (p3 9))
        (fun f => by cases f <;> exact ⟨rfl, rfl⟩) n
  · intro f n
    cases f with
    | tx => exact ⟨4 * (n + 3), by omega, by
        rw [p3Move, if_neg (by omega)]; exact (turn_again (n + 3)).1⟩
    | rx => exact ⟨4 * (n + 3) + 1, by omega, by
        rw [p3Move, if_neg (by omega)]; exact (turn_again (n + 3)).2.1⟩
  · intro f n
    cases f with
    | tx => exact ⟨4 * (n + 3) + 2, by omega, by
        rw [p3Move, if_neg (by omega)]; exact (turn_again (n + 3)).2.2.1⟩
    | rx => exact ⟨4 * (n + 3) + 3, by omega, by
        rw [p3Move, if_neg (by omega)]; exact (turn_again (n + 3)).2.2.2⟩
  · intro n h
    have := h (n + 9) (by omega)
    rw [p3_after (n + 9) (by omega)] at this
    exact absurd this (by decide)
  · intro n h
    have := h (n + 9) (by omega)
    rw [p3_after (n + 9) (by omega)] at this
    exact absurd this (by decide)

/-- Each of five moves in a row leads to the next state, and may stand in a run. -/
theorem poll_steps : ∀ k < 5,
    (after (move (pollMove k) (poll k)) fun t => decide (t = poll (k + 1))) = true ∧
      (pollMove k).ofRun = true ∧ pollMove k ≠ .reset := by
  decide

/-- A fair run whose foreground never stops: it polls with `STAT` for ever (also
`FairRunsSendEveryByte`). -/
theorem test_witness_FairRuns_endless_foreground :
    (poll 0).RunInv ∧ FairRun poll pollMove ∧ ∀ n, ∃ m, n ≤ m ∧ pollMove m = .port .fg 0xB000 := by
  have hm (n : Nat) : pollMove n = pollMove (n % 5) := by unfold pollMove; rw [Nat.mod_mod]
  have hs (n : Nat) : poll n = poll (n % 5) := by unfold poll; rw [Nat.mod_mod]
  have hk (n k : Nat) (h : k < 5) : pollMove (5 * n + k) = pollMove k := by
    rw [hm, Nat.mul_add_mod, Nat.mod_eq_of_lt h]
  have quiet (n : Nat) : irq (poll n) = false ∧ (poll n).dev.txReady = true := by
    unfold poll; split <;> decide
  refine ⟨by refine ⟨⟨?_, ?_, ?_, ?_⟩, ?_, ?_, ?_, ?_⟩ <;> decide, ⟨?_, ?_, ?_, ?_, ?_, ?_⟩,
    fun n => ⟨5 * n + 4, by omega, hk n 4 (by decide)⟩⟩
  · intro n
    rw [hm]
    exact (poll_steps _ (Nat.mod_lt _ (by decide))).2
  · intro n
    have e : poll (n + 1) = poll (n % 5 + 1) := by
      rw [hs (n + 1), hs (n % 5 + 1), Nat.mod_add_mod]
    rw [hm, hs n, e]
    exact after_eq _ _ (poll_steps _ (Nat.mod_lt _ (by decide))).1
  · intro f n
    cases f with
    | tx => exact ⟨5 * n + 0, by omega, hk n 0 (by decide)⟩
    | rx => exact ⟨5 * n + 1, by omega, hk n 1 (by decide)⟩
  · intro f n
    cases f with
    | tx => exact ⟨5 * n + 2, by omega, hk n 2 (by decide)⟩
    | rx => exact ⟨5 * n + 3, by omega, hk n 3 (by decide)⟩
  · intro n h
    exact absurd ((quiet n).1.symm.trans (h n (Nat.le_refl n))) (by decide)
  · intro n h
    exact absurd ((quiet n).2.symm.trans (h n (Nat.le_refl n))) (by decide)

/-- From step 2 of P3 the host has nothing more to issue and no byte arrives: the premises of
`FairRunsBecomeQuiescent`, with `test_witness_FairRuns`. -/
theorem test_witness_FairRunsBecomeQuiescent :
    (p3 2).awaitsNothing ∧ ∀ m, 2 ≤ m → (p3Move m).fromOutside = false := by
  refine ⟨by decide, fun m hm => ?_⟩
  by_cases h : m < 9
  · exact (by decide : ∀ m < 9, (p3Move m).fromOutside = false) m h
  · rw [p3Move, if_neg h]
    exact turn_all (P := fun m => m.fromOutside = false) (fun f => by cases f <;> decide) m

end Sys2Proof.Tests
end

section
/-!
Family 00_scope.md: a configuration that is not admitted is refused, and what lies outside the block
is left alone by every command.
-/

namespace Sys2Proof.Machine

variable {s t : State} {r : Reply} {f : FifoId} {d b : Byte} {e : Event} {ev pm pu x : Bool}

/-! ## Configurations that are not admitted -/

theorem admitted_iff {p : Config.Params} :
    p.admitted = true ↔ 1 ≤ p.txLog2 ∧ p.txLog2 ≤ 8 ∧ 1 ≤ p.rxLog2 ∧ p.rxLog2 ≤ 8 := by
  simp [Config.Params.admitted, admittedLog2, and_assoc]

theorem step_refused (hp : s.params.admitted = false) : step s = .refused .capacityNotAdmitted := by
  simp [step, whenAdmitted, hp]

/-- Settles O10: the step and every command test the configuration before anything else. -/
theorem otherCapacitiesAreRefused : Obligations.OtherCapacitiesAreRefused := by
  intro s hs
  have hp : s.params.admitted = false := Bool.eq_false_iff.mpr fun h => hs (admitted_iff.mp h)
  exact ⟨step_refused hp, fun _ => exec_refused hp⟩

/-! ## What no command changes -/

/-- What a command leaves as it is: the parameters, the host's foreground and `line_out` (00_scope.md
R8, 10_state.md R15, R26), and the model's agenda, tick and issuer. As one value, so that a command
made of several operations keeps it by a chain of equations. -/
def State.outside (s : State) :
    Config.Params × Foreground × List Move × Nat × Issuer × List Byte :=
  (s.params, s.fg, s.agenda, s.tick, s.issuer, s.dev.lineOut)

theorem State.outside_eq_iff :
    t.outside = s.outside ↔
      t.params = s.params ∧ t.fg = s.fg ∧ t.agenda = s.agenda ∧ t.tick = s.tick ∧
        t.issuer = s.issuer ∧ t.dev.lineOut = s.dev.lineOut := by
  simp [State.outside]

@[simp] theorem State.setFifo_outside (q : Fifo) : (s.setFifo f q).outside = s.outside := by
  simp [State.outside]

@[simp] theorem State.setEnable_outside : (s.setEnable e x).outside = s.outside := by
  simp [State.outside]

@[simp] theorem State.respond_outside : (s.respond r).outside = s.outside := rfl
@[simp] theorem State.sendByte_outside : (s.sendByte d).outside = s.outside := rfl
@[simp] theorem State.takeByte_outside : s.takeByte.outside = s.outside := rfl
@[simp] theorem State.illegal_outside : s.illegal.outside = s.outside := rfl
@[simp] theorem State.withDiag_outside (g : Diag) : { s with diag := g }.outside = s.outside := rfl

theorem putPort_outside (h : putPort f d s = .ok (t, r)) : t.outside = s.outside := by
  obtain ⟨-, rfl, -⟩ | ⟨-, -, rfl, -⟩ := putPort_ok h
  · rfl
  · exact State.setFifo_outside _

theorem getPort_outside (h : getPort f s = .ok (t, r)) : t.outside = s.outside := by
  obtain ⟨-, rfl, -⟩ | ⟨-, -, _, -, rfl, -⟩ := getPort_ok h
  · rfl
  · exact State.setFifo_outside _

theorem deviceWrite_outside (h : deviceWrite d s = .ok (t, r)) : t.outside = s.outside := by
  obtain ⟨-, rfl, -⟩ | ⟨-, rfl, -⟩ := deviceWrite_ok h <;> rfl

theorem deviceRead_outside (h : deviceRead s = .ok (t, r)) : t.outside = s.outside := by
  obtain ⟨-, _, -, rfl, -⟩ | ⟨-, rfl, -⟩ := deviceRead_ok h <;> rfl

/-- Handing a byte to the device does not yet put it on the line (41_transport.md R103). -/
theorem outputByte_outside (h : outputByte s = .ok (t, r)) : t.outside = s.outside := by
  obtain ⟨-, rfl, -⟩ | ⟨-, -, rfl, -⟩ | ⟨-, -, -, v, -, rfl, -⟩ := outputByte_ok h
  · rfl
  · rfl
  · rw [State.sendByte_outside, State.setFifo_outside]

theorem echoByte_outside (h : echoByte b s = .ok t) : t.outside = s.outside := by
  obtain ⟨-, rfl⟩ | ⟨-, -, rfl⟩ | ⟨-, -, -, rfl⟩ := echoByte_ok h
  · rfl
  · exact State.withDiag_outside _
  · exact State.setFifo_outside _

theorem inputByte_outside (h : inputByte s = .ok (t, r)) : t.outside = s.outside := by
  obtain ⟨-, rfl, -⟩ | ⟨-, b, -, ⟨-, -, rfl⟩ | ⟨-, -, -, hecho⟩⟩ := inputByte_ok h
  · rfl
  · rw [State.withDiag_outside, State.takeByte_outside]
  · rw [echoByte_outside hecho, State.setFifo_outside, State.takeByte_outside]

theorem invokeTransmit_outside (h : invokeTransmit ev s = .ok (t, pm)) : t.outside = s.outside := by
  obtain ⟨-, rfl, -⟩ | ⟨-, _, hout, -⟩ := invokeTransmit_ok h
  · rfl
  · exact outputByte_outside hout

theorem invokeReceive_outside (h : invokeReceive ev s = .ok (t, pu)) : t.outside = s.outside := by
  obtain ⟨-, rfl, -⟩ | ⟨-, _, hin, -⟩ := invokeReceive_ok h
  · rfl
  · exact inputByte_outside hin

@[simp] theorem invokeApply_outside : (invokeApply pm pu s).outside = s.outside := by
  unfold invokeApply
  split
  · exact State.setEnable_outside
  · split
    · exact State.setEnable_outside
    · rfl

theorem invocation_outside (h : invocation s = .ok (t, r)) : t.outside = s.outside := by
  obtain ⟨u, pm, v, pu, hu, hv, rfl, -⟩ := invocation_ok h
  rw [invokeApply_outside, invokeReceive_outside hv, invokeTransmit_outside hu]

theorem readOnly_outside {data : State → Byte} (h : readOnly data s = .ok (t, r)) :
    t.outside = s.outside := by
  cases h; rfl

/-- A command keeps what lies outside the block, whether its issuer may issue it or not. -/
theorem exec_outside {i : Instr} (h : exec i s = .next t) : t.outside = s.outside := by
  rw [exec_command] at h
  obtain ⟨-, ⟨-, rfl⟩ | ⟨-, u, r, hb, rfl⟩⟩ := command_next h
  · exact State.illegal_outside
  · rw [State.respond_outside]
    cases i with
    | put f d => exact putPort_outside hb
    | get f => exact getPort_outside hb
    | empty f v => exact readOnly_outside hb
    | full f v => exact readOnly_outside hb
    | dsize f v => exact readOnly_outside hb
    | outb => exact outputByte_outside hb
    | inb => exact inputByte_outside hb
    | eni e => cases hb; exact State.setEnable_outside
    | disi e => cases hb; exact State.setEnable_outside
    | trig => exact readOnly_outside hb
    | stat => exact readOnly_outside hb
    | hwwr d => exact deviceWrite_outside hb
    | hwrd => exact deviceRead_outside hb
    | invoke => exact invocation_outside hb

/-- Settles O12: an answered command is either `Illegal` for its issuer or its rule, and each rule is
made of operations that keep `State.outside`. -/
theorem commandsLeaveTheOutsideAlone : Obligations.CommandsLeaveTheOutsideAlone := fun _ _ _ h =>
  State.outside_eq_iff.mp (exec_outside h)

end Sys2Proof.Machine
end

section
/-!
Family 10_state.md: no step reads the ghosts, `line_out` or an earlier response (R26, R31, R32), and the
`DIAG` flags are sticky (R27).
-/

namespace Sys2Proof.Machine

open Sys2Proof.Config (AgentStep)

variable {s t : State} {f : FifoId} {d b : Byte} {e : Event} {i : Instr} {α : Type}

/-! ## Two states that differ only in what no step reads -/

/-- The simulation relation between two runs: the states differ at most in the ghosts, `line_out` and
the last response. -/
def Alike (s t : State) : Prop := s.observable = t.observable

theorem alike_observable (s : State) : Alike s s.observable := rfl

namespace Alike

/-- What does not depend on the blanked parts reads the same in both states. -/
theorem read (h : Alike s t) (g : State → α) (hg : ∀ u, g u.observable = g u) : g s = g t := by
  rw [← hg s, ← hg t, h]

/-- A change that does not depend on the blanked parts leaves the states alike. -/
theorem keep (h : Alike s t) (g : State → State)
    (hg : ∀ u, (g u.observable).observable = (g u).observable) : Alike (g s) (g t) :=
  h.read (fun u => (g u).observable) hg

variable (h : Alike s t)
include h

theorem params_eq : s.params = t.params := h.read State.params fun _ => rfl
theorem issuer_eq : s.issuer = t.issuer := h.read State.issuer fun _ => rfl
theorem fg_eq : s.fg = t.fg := h.read State.fg fun _ => rfl
theorem txReady_eq : s.dev.txReady = t.dev.txReady := h.read (·.dev.txReady) fun _ => rfl
theorem tdr_eq : s.dev.tdr = t.dev.tdr := h.read (·.dev.tdr) fun _ => rfl
theorem rxReady_eq : s.dev.rxReady = t.dev.rxReady := h.read (·.dev.rxReady) fun _ => rfl
theorem rdr_eq : s.dev.rdr = t.dev.rdr := h.read (·.dev.rdr) fun _ => rfl
theorem cap_eq : s.cap f = t.cap f := h.read (·.cap f) fun _ => rfl

theorem mem_eq : (s.fifo f).mem = (t.fifo f).mem :=
  h.read (fun u => (u.fifo f).mem) fun _ => by cases f <;> rfl

theorem wbin_eq : (s.fifo f).wbin = (t.fifo f).wbin :=
  h.read (fun u => (u.fifo f).wbin) fun _ => by cases f <;> rfl

theorem rbin_eq : (s.fifo f).rbin = (t.fifo f).rbin :=
  h.read (fun u => (u.fifo f).rbin) fun _ => by cases f <;> rfl

theorem fullW_eq : fullW s f = fullW t f := h.read (fullW · f) fun _ => by cases f <;> rfl
theorem emptyR_eq : emptyR s f = emptyR t f := h.read (emptyR · f) fun _ => by cases f <;> rfl

theorem triggeredTx_eq : triggeredTx s = triggeredTx t := h.read triggeredTx fun _ => rfl
theorem triggeredRx_eq : triggeredRx s = triggeredRx t := h.read triggeredRx fun _ => rfl
theorem irq_eq : irq s = irq t := h.read irq fun _ => rfl

theorem pushed {n : Nat} :
    Alike (s.setFifo f ((s.fifo f).pushed n d)) (t.setFifo f ((t.fifo f).pushed n d)) :=
  h.keep (fun u => u.setFifo f ((u.fifo f).pushed n d)) fun _ => by cases f <;> rfl

theorem popped {n : Nat} :
    Alike (s.setFifo f ((s.fifo f).popped n)) (t.setFifo f ((t.fifo f).popped n)) :=
  h.keep (fun u => u.setFifo f ((u.fifo f).popped n)) fun _ => by cases f <;> rfl

theorem sendByte : Alike (s.sendByte d) (t.sendByte d) := h.keep (·.sendByte d) fun _ => rfl
theorem takeByte : Alike s.takeByte t.takeByte := h.keep State.takeByte fun _ => rfl
theorem illegal : Alike s.illegal t.illegal := h.keep State.illegal fun _ => rfl
theorem quiet : Alike s.quiet t.quiet := h.keep State.quiet fun _ => rfl
theorem respond {r : Reply} : Alike (s.respond r) (t.respond r) := h.keep (·.respond r) fun _ => rfl

theorem setEnable {x : Bool} : Alike (s.setEnable e x) (t.setEnable e x) :=
  h.keep (·.setEnable e x) fun _ => by cases e <;> rfl

theorem withDiag (g : Diag → Diag) : Alike { s with diag := g s.diag } { t with diag := g t.diag } :=
  h.keep (fun u => { u with diag := g u.diag }) fun _ => rfl

theorem withIssuer (who : Issuer) : Alike { s with issuer := who } { t with issuer := who } :=
  h.keep (fun u => { u with issuer := who }) fun _ => rfl

theorem withForeground (g : Foreground) : Alike { s with fg := g } { t with fg := g } :=
  h.keep (fun u => { u with fg := g }) fun _ => rfl

theorem withProgram (p : List FgItem) : Alike (s.withProgram p) (t.withProgram p) :=
  h.keep (·.withProgram p) fun _ => rfl

theorem afterApply {pm pu : Bool} : Alike (invokeApply pm pu s) (invokeApply pm pu t) := by
  unfold invokeApply
  split
  · exact h.setEnable
  split
  · exact h.setEnable
  · exact h

theorem afterSyncW2R : Alike (syncW2R f s) (syncW2R f t) :=
  h.keep (syncW2R f) fun _ => by
    rw [syncW2R_eq, syncW2R_eq]
    cases f <;> rfl

theorem afterSyncR2W : Alike (syncR2W f s) (syncR2W f t) :=
  h.keep (syncR2W f) fun _ => by cases f <;> rfl

theorem afterReset : Alike (resetEvent s) (resetEvent t) := h.keep resetEvent fun _ => rfl

/-- Which move is next does not depend on the blanked parts. -/
theorem nextMove_fst : (nextMove s).1 = (nextMove t).1 :=
  h.read (fun u => (nextMove u).1) fun u => by
    obtain ⟨_, _, _, _, _, _, _, _, _, agenda, _⟩ := u
    cases agenda <;> rfl

theorem nextMove_snd : Alike (nextMove s).2 (nextMove t).2 :=
  h.keep (fun u => (nextMove u).2) fun u => by
    obtain ⟨_, _, _, _, _, _, _, _, _, agenda, _⟩ := u
    cases agenda <;> rfl

end Alike

/-! ## The operations, side by side -/

/-- Two effects that meet the same fault, or leave results related by `R`. -/
inductive EffectsAgree (R : α → α → Prop) : Except Fault α → Except Fault α → Prop
  | error (e : Fault) : EffectsAgree R (.error e) (.error e)
  | ok {x y : α} (h : R x y) : EffectsAgree R (.ok x) (.ok y)

/-- Alike states, with the same answer beside them. -/
inductive SameAnswer : State × α → State × α → Prop
  | mk {s t : State} (a : α) (h : Alike s t) : SameAnswer (s, a) (t, a)

theorem Alike.answered {a : α} (h : Alike s t) : EffectsAgree SameAnswer (.ok (s, a)) (.ok (t, a)) :=
  .ok (.mk a h)

theorem putPort_agrees (h : Alike s t) : EffectsAgree SameAnswer (putPort f d s) (putPort f d t) := by
  simp only [putPort, h.fullW_eq, h.wbin_eq, h.cap_eq]
  split
  · exact h.answered
  split
  · exact h.pushed.answered
  · exact .error _

theorem getPort_agrees (h : Alike s t) : EffectsAgree SameAnswer (getPort f s) (getPort f t) := by
  simp only [getPort, h.emptyR_eq, h.rbin_eq, h.cap_eq, h.mem_eq]
  split
  · exact h.answered
  split
  · split
    · exact h.popped.answered
    · exact .error _
  · exact .error _

theorem deviceWrite_agrees (h : Alike s t) :
    EffectsAgree SameAnswer (deviceWrite d s) (deviceWrite d t) := by
  unfold deviceWrite
  rw [h.txReady_eq]
  split
  · exact h.sendByte.answered
  · exact h.answered

theorem deviceRead_agrees (h : Alike s t) :
    EffectsAgree SameAnswer (deviceRead s) (deviceRead t) := by
  unfold deviceRead
  rw [h.rxReady_eq, h.rdr_eq]
  split
  · split
    · exact h.takeByte.answered
    · exact .error _
  · exact h.answered

theorem outputByte_agrees (h : Alike s t) :
    EffectsAgree SameAnswer (outputByte s) (outputByte t) := by
  unfold outputByte
  rw [h.txReady_eq]
  split
  · match getPort .tx s, getPort .tx t, getPort_agrees (f := .tx) h with
    | _, _, .error e => exact .error e
    | _, _, .ok (.mk r h') =>
      dsimp only
      split
      · exact h'.sendByte.answered
      · exact h'.answered
  · exact h.answered

theorem echoByte_agrees (h : Alike s t) : EffectsAgree Alike (echoByte b s) (echoByte b t) := by
  unfold echoByte
  rw [h.params_eq]
  split
  · match putPort .tx b s, putPort .tx b t, putPort_agrees (f := .tx) (d := b) h with
    | _, _, .error e => exact .error e
    | _, _, .ok (.mk r h') =>
      dsimp only
      split
      · exact .ok h'
      · exact .ok (h'.withDiag fun g => { g with echoDrop := true })
  · exact .ok h

theorem receiveByte_agrees (h : Alike s t) :
    EffectsAgree SameAnswer (receiveByte b s) (receiveByte b t) := by
  unfold receiveByte
  match putPort .rx b s, putPort .rx b t, putPort_agrees (f := .rx) (d := b) h with
  | _, _, .error e => exact .error e
  | _, _, .ok (.mk (s := u) (t := w) r h') =>
    dsimp only
    split
    · match echoByte b u, echoByte b w, echoByte_agrees (b := b) h' with
      | _, _, .error e => exact .error e
      | _, _, .ok h'' => exact h''.answered
    · exact (h'.withDiag fun g => { g with rxDrop := true }).answered

theorem inputByte_agrees (h : Alike s t) : EffectsAgree SameAnswer (inputByte s) (inputByte t) := by
  unfold inputByte
  match deviceRead s, deviceRead t, deviceRead_agrees h with
  | _, _, .error e => exact .error e
  | _, _, .ok (.mk r h') =>
    dsimp only
    split
    · exact receiveByte_agrees h'
    · exact h'.answered

theorem invokeTransmit_agrees {ev : Bool} (h : Alike s t) :
    EffectsAgree SameAnswer (invokeTransmit ev s) (invokeTransmit ev t) := by
  unfold invokeTransmit
  split
  · match outputByte s, outputByte t, outputByte_agrees h with
    | _, _, .error e => exact .error e
    | _, _, .ok (.mk r h') =>
      dsimp only
      rw [h'.emptyR_eq]
      exact h'.answered
  · exact h.answered

theorem invokeReceive_agrees {ev : Bool} (h : Alike s t) :
    EffectsAgree SameAnswer (invokeReceive ev s) (invokeReceive ev t) := by
  unfold invokeReceive
  split
  · match inputByte s, inputByte t, inputByte_agrees h with
    | _, _, .error e => exact .error e
    | _, _, .ok (.mk r h') => exact h'.answered
  · exact h.answered

theorem invocation_agrees (h : Alike s t) : EffectsAgree SameAnswer (invocation s) (invocation t) := by
  unfold invocation
  rw [h.triggeredTx_eq, h.triggeredRx_eq]
  match invokeTransmit (triggeredTx t) s, invokeTransmit (triggeredTx t) t,
      invokeTransmit_agrees h with
  | _, _, .error e => exact .error e
  | _, _, .ok (.mk (s := u) (t := w) pm h') =>
    dsimp only
    match invokeReceive (triggeredRx t) u, invokeReceive (triggeredRx t) w,
        invokeReceive_agrees h' with
    | _, _, .error e => exact .error e
    | _, _, .ok (.mk pu h'') => exact h''.afterApply.answered

theorem readOnly_agrees {data : State → Byte} (h : Alike s t)
    (hd : ∀ u, data u.observable = data u) :
    EffectsAgree SameAnswer (readOnly data s) (readOnly data t) := by
  unfold readOnly
  rw [h.read data hd]
  exact h.answered

/-! ## Commands and moves, side by side -/

/-- Two outcomes that stop alike, or lead to states related by `R`. -/
inductive OutcomesAgree (R : State → State → Prop) : Outcome → Outcome → Prop
  | fault (e : Fault) : OutcomesAgree R (.fault e) (.fault e)
  | refused (e : Refusal) : OutcomesAgree R (.refused e) (.refused e)
  | next {s t : State} (h : R s t) : OutcomesAgree R (.next s) (.next t)

/-- Alike states that a command left with the same response. -/
def SameResponse (s t : State) : Prop := Alike s t ∧ s.response = t.response

theorem OutcomesAgree.alike {x y : Outcome} (h : OutcomesAgree SameResponse x y) :
    OutcomesAgree Alike x y := by
  cases h with
  | fault e => exact .fault e
  | refused e => exact .refused e
  | next h => exact .next h.1

theorem OutcomesAgree.mapNext_observable {x y : Outcome} (h : OutcomesAgree Alike x y) :
    mapNext State.observable x = mapNext State.observable y := by
  cases h with
  | fault e => rfl
  | refused e => rfl
  | next h => exact congrArg Host.Outcome.next h

theorem whenAdmitted_agrees {R : State → State → Prop} {x y : Outcome} (h : Alike s t)
    (hxy : OutcomesAgree R x y) : OutcomesAgree R (whenAdmitted s x) (whenAdmitted t y) := by
  unfold whenAdmitted
  rw [h.params_eq]
  split
  · exact hxy
  · exact .refused _

theorem illegal_agrees (h : Alike s t) :
    OutcomesAgree SameResponse (.next s.illegal) (.next t.illegal) := .next ⟨h.illegal, rfl⟩

theorem command_agrees {body : State → Effect} (h : Alike s t)
    (hb : EffectsAgree SameAnswer (body s) (body t)) :
    OutcomesAgree SameResponse (command i body s) (command i body t) := by
  refine whenAdmitted_agrees h ?_
  rw [h.issuer_eq]
  split
  · match body s, body t, hb with
    | _, _, .error e => exact .fault e
    | _, _, .ok (.mk r h') => exact .next ⟨h'.respond, rfl⟩
  · exact illegal_agrees h

/-- Every command does the same in alike states, and answers the same response. -/
theorem exec_agrees (h : Alike s t) : OutcomesAgree SameResponse (exec i s) (exec i t) := by
  rw [exec_command, exec_command]
  apply command_agrees h
  cases i with
  | put f d => exact putPort_agrees h
  | get f => exact getPort_agrees h
  | empty f v => exact readOnly_agrees h fun _ => by cases f <;> cases v <;> rfl
  | full f v => exact readOnly_agrees h fun _ => by cases f <;> cases v <;> rfl
  | dsize f v => exact readOnly_agrees h fun _ => by cases f <;> cases v <;> rfl
  | outb => exact outputByte_agrees h
  | inb => exact inputByte_agrees h
  | eni e => exact h.setEnable.answered
  | disi e => exact h.setEnable.answered
  | trig => exact readOnly_agrees h fun _ => rfl
  | stat => exact readOnly_agrees h fun _ => rfl
  | hwwr d => exact deviceWrite_agrees h
  | hwrd => exact deviceRead_agrees h
  | invoke => exact invocation_agrees h

theorem handleWord_agrees {who : Issuer} {w : Word} (h : Alike s t) :
    OutcomesAgree SameResponse (handleWord who w s) (handleWord who w t) := by
  unfold handleWord
  cases decode w with
  | some i => exact exec_agrees (h.withIssuer who)
  | none => exact whenAdmitted_agrees (h.withIssuer who) (illegal_agrees (h.withIssuer who))

theorem notEnabled_agrees (h : Alike s t) : OutcomesAgree Alike (notEnabled s) (notEnabled t) :=
  .next h.quiet

theorem devTxDone_agrees (h : Alike s t) : OutcomesAgree Alike (devTxDone s) (devTxDone t) := by
  unfold devTxDone
  rw [h.txReady_eq, h.tdr_eq]
  split
  · exact notEnabled_agrees h
  · cases t.dev.tdr with
    | none => exact .fault _
    | some b =>
      exact .next (h.keep (fun u => { u with
        dev := { u.dev with lineOut := u.dev.lineOut ++ [b], txReady := true } }.quiet) fun _ => rfl)

theorem devRxArrive_agrees (h : Alike s t) :
    OutcomesAgree Alike (devRxArrive b s) (devRxArrive b t) := by
  unfold devRxArrive
  rw [h.rxReady_eq]
  split
  · exact notEnabled_agrees h
  · exact .next (h.keep (fun u => { u with dev := { u.dev with rdr := some b, rxReady := true } }.quiet)
      fun _ => rfl)

theorem irqStep_agrees (h : Alike s t) : OutcomesAgree Alike (irqStep s) (irqStep t) := by
  unfold irqStep
  rw [h.irq_eq]
  split
  · exact (handleWord_agrees h).alike
  · exact notEnabled_agrees h

/-- The host reads the response of the `PUT` just issued, which is the same on both sides. -/
theorem enqueuePut_agrees {stored : Nat} {rest : List Byte} {later : List FgItem} (h : Alike s t) :
    OutcomesAgree Alike (enqueuePut stored b rest later s) (enqueuePut stored b rest later t) := by
  unfold enqueuePut
  match handleWord .fg (encode (.put .tx b)) s, handleWord .fg (encode (.put .tx b)) t,
      handleWord_agrees h with
  | _, _, .fault e => exact .fault e
  | _, _, .refused e => exact .refused e
  | _, _, .next ⟨h', hr⟩ =>
    dsimp only
    rw [hr]
    exact .next (h'.withProgram _)

theorem fgStep_agrees (h : Alike s t) : OutcomesAgree Alike (fgStep s) (fgStep t) := by
  unfold fgStep
  rw [h.fg_eq]
  split
  · exact notEnabled_agrees h
  · exact (handleWord_agrees (h.withProgram _)).alike
  · exact (handleWord_agrees (h.withForeground _)).alike
  · exact enqueuePut_agrees h

theorem agentStep_agrees {a : AgentStep} (h : Alike s t) :
    OutcomesAgree Alike (agentStep a s) (agentStep a t) := by
  cases a with
  | fg => exact fgStep_agrees h
  | irq => exact irqStep_agrees h
  | devTxDone => exact devTxDone_agrees h
  | devRxArrive b => exact devRxArrive_agrees h
  | syncW2R f => exact .next h.afterSyncW2R.quiet
  | syncR2W f => exact .next h.afterSyncR2W.quiet

theorem move_agrees {m : Move} (h : Alike s t) : OutcomesAgree Alike (move m s) (move m t) := by
  cases m with
  | agent a => exact agentStep_agrees h
  | port who w => exact (handleWord_agrees h).alike
  | reset => exact .next h.afterReset

theorem step_agrees (h : Alike s t) : OutcomesAgree Alike (step s) (step t) := by
  unfold step
  rw [h.nextMove_fst]
  exact whenAdmitted_agrees h (move_agrees h.nextMove_snd)

/-- Settles O50: a state and the state with the unread parts blanked are alike, and steps from alike
states agree. -/
theorem noStepReadsGhostsOrObservations : Obligations.NoStepReadsGhostsOrObservations := fun s =>
  (step_agrees (alike_observable s)).mapNext_observable

/-! ## The sticky flags -/

section Diag

variable {r : Reply} {g g' : Diag} {ev pm pu : Bool}

/-- Every flag set in `g` is set in `g'`. -/
def Diag.Kept (g g' : Diag) : Prop :=
  (g.rxDrop = true → g'.rxDrop = true) ∧ (g.echoDrop = true → g'.echoDrop = true) ∧
    (g.illegal = true → g'.illegal = true)

/-- What the transport may do to the flags (41_transport.md R104): it adds drop flags at most. -/
def Diag.DropsAdded (g g' : Diag) : Prop := g.Kept g' ∧ g'.illegal = g.illegal

theorem Diag.Kept.of_eq (h : g' = g) : g.Kept g' := h ▸ ⟨id, id, id⟩

theorem Diag.DropsAdded.of_eq (h : g' = g) : g.DropsAdded g' := ⟨.of_eq h, congrArg Diag.illegal h⟩

theorem putPort_diag (h : putPort f d s = .ok (t, r)) : t.diag = s.diag := by
  obtain ⟨-, rfl, -⟩ | ⟨-, -, rfl, -⟩ := putPort_ok h
  · rfl
  · exact State.setFifo_diag ..

theorem getPort_diag (h : getPort f s = .ok (t, r)) : t.diag = s.diag := by
  obtain ⟨-, rfl, -⟩ | ⟨-, -, _, -, rfl, -⟩ := getPort_ok h
  · rfl
  · exact State.setFifo_diag ..

theorem deviceWrite_diag (h : deviceWrite d s = .ok (t, r)) : t.diag = s.diag := by
  obtain ⟨-, rfl, -⟩ | ⟨-, rfl, -⟩ := deviceWrite_ok h <;> rfl

theorem deviceRead_diag (h : deviceRead s = .ok (t, r)) : t.diag = s.diag := by
  obtain ⟨-, _, -, rfl, -⟩ | ⟨-, rfl, -⟩ := deviceRead_ok h <;> rfl

theorem outputByte_diag (h : outputByte s = .ok (t, r)) : t.diag = s.diag := by
  obtain ⟨-, rfl, -⟩ | ⟨-, -, rfl, -⟩ | ⟨-, -, -, _, -, rfl, -⟩ := outputByte_ok h <;> rfl

theorem readOnly_diag {data : State → Byte} (h : readOnly data s = .ok (t, r)) :
    t.diag = s.diag := by
  cases h; rfl

theorem echoByte_diag (h : echoByte b s = .ok t) : s.diag.DropsAdded t.diag := by
  obtain ⟨-, rfl⟩ | ⟨-, -, rfl⟩ | ⟨-, -, -, rfl⟩ := echoByte_ok h
  · exact .of_eq rfl
  · exact ⟨⟨id, fun _ => rfl, id⟩, rfl⟩
  · exact .of_eq rfl

theorem inputByte_diag (h : inputByte s = .ok (t, r)) : s.diag.DropsAdded t.diag := by
  obtain ⟨-, rfl, -⟩ | ⟨-, b, -, ⟨-, -, rfl⟩ | ⟨-, -, -, hecho⟩⟩ := inputByte_ok h
  · exact .of_eq rfl
  · exact ⟨⟨fun _ => rfl, id, id⟩, rfl⟩
  · have hd := echoByte_diag hecho
    rwa [State.setFifo_diag, State.takeByte_diag] at hd

theorem invokeTransmit_diag (h : invokeTransmit ev s = .ok (t, pm)) : t.diag = s.diag := by
  obtain ⟨-, rfl, -⟩ | ⟨-, _, hout, -⟩ := invokeTransmit_ok h
  · rfl
  · exact outputByte_diag hout

theorem invokeReceive_diag (h : invokeReceive ev s = .ok (t, pu)) : s.diag.DropsAdded t.diag := by
  obtain ⟨-, rfl, -⟩ | ⟨-, _, hin, -⟩ := invokeReceive_ok h
  · exact .of_eq rfl
  · exact inputByte_diag hin

@[simp] theorem invokeApply_diag : (invokeApply pm pu s).diag = s.diag := by
  unfold invokeApply
  split
  · exact State.setEnable_diag ..
  split
  · exact State.setEnable_diag ..
  · rfl

theorem invocation_diag (h : invocation s = .ok (t, r)) : s.diag.DropsAdded t.diag := by
  obtain ⟨u, pm, v, pu, hu, hv, rfl, -⟩ := invocation_ok h
  rw [invokeApply_diag, ← invokeTransmit_diag hu]
  exact invokeReceive_diag hv

@[simp] theorem syncW2R_diag : (syncW2R f s).diag = s.diag := by
  rw [syncW2R_eq]
  exact State.setFifo_diag ..

@[simp] theorem syncR2W_diag : (syncR2W f s).diag = s.diag := State.setFifo_diag ..

theorem notEnabled_diag (h : notEnabled s = .next t) : t.diag = s.diag := by
  cases h; rfl

theorem devTxDone_diag (h : devTxDone s = .next t) : t.diag = s.diag := by
  unfold devTxDone at h
  split at h
  · exact notEnabled_diag h
  split at h
  · cases h; rfl
  · cases h

theorem devRxArrive_diag (h : devRxArrive b s = .next t) : t.diag = s.diag := by
  unfold devRxArrive at h
  split at h
  · exact notEnabled_diag h
  · cases h; rfl

/-- All a command can do to the flags (10_state.md R27): `Illegal` for its issuer it sets `illegal`;
otherwise only `INB` and `INVOKE` change them, by drops. -/
theorem exec_diag (h : exec i s = .next t) :
    (mayIssue s.issuer i = false ∧ t.diag = { s.diag with illegal := true }) ∨
      (mayIssue s.issuer i = true ∧
        (t.diag = s.diag ∨ ((i = .inb ∨ i = .invoke) ∧ s.diag.DropsAdded t.diag))) := by
  rw [exec_command] at h
  obtain ⟨-, ⟨hi, rfl⟩ | ⟨hi, u, r, hb, rfl⟩⟩ := command_next h
  · exact .inl ⟨hi, State.illegal_diag s⟩
  · rw [State.respond_diag]
    refine .inr ⟨hi, ?_⟩
    cases i with
    | put f d => exact .inl (putPort_diag hb)
    | get f => exact .inl (getPort_diag hb)
    | empty f v => exact .inl (readOnly_diag hb)
    | full f v => exact .inl (readOnly_diag hb)
    | dsize f v => exact .inl (readOnly_diag hb)
    | outb => exact .inl (outputByte_diag hb)
    | inb => exact .inr ⟨.inl rfl, inputByte_diag hb⟩
    | eni e => cases hb; exact .inl (State.setEnable_diag ..)
    | disi e => cases hb; exact .inl (State.setEnable_diag ..)
    | trig => exact .inl (readOnly_diag hb)
    | stat => exact .inl (readOnly_diag hb)
    | hwwr d => exact .inl (deviceWrite_diag hb)
    | hwrd => exact .inl (deviceRead_diag hb)
    | invoke => exact .inr ⟨.inr rfl, invocation_diag hb⟩

/-! Every move but reset keeps the flags. -/

theorem State.illegal_kept (s : State) : s.diag.Kept s.illegal.diag := ⟨id, id, fun _ => rfl⟩

theorem exec_kept (h : exec i s = .next t) : s.diag.Kept t.diag := by
  obtain ⟨-, hd⟩ | ⟨-, hd | ⟨-, hd⟩⟩ := exec_diag h
  · rw [hd]; exact s.illegal_kept
  · exact .of_eq hd
  · exact hd.1

theorem whenAdmitted_next {o : Outcome} (h : whenAdmitted s o = .next t) : o = .next t := by
  unfold whenAdmitted at h
  split at h
  · exact h
  · cases h

theorem handleWord_kept {who : Issuer} {w : Word} (h : handleWord who w s = .next t) :
    s.diag.Kept t.diag := by
  unfold handleWord at h
  split at h
  · exact exec_kept (s := { s with issuer := who }) h
  · cases whenAdmitted_next h
    exact s.illegal_kept

theorem irqStep_kept (h : irqStep s = .next t) : s.diag.Kept t.diag := by
  unfold irqStep at h
  split at h
  · exact handleWord_kept h
  · exact .of_eq (notEnabled_diag h)

theorem enqueuePut_kept {stored : Nat} {rest : List Byte} {later : List FgItem}
    (h : enqueuePut stored b rest later s = .next t) : s.diag.Kept t.diag := by
  unfold enqueuePut at h
  split at h
  · rename_i u hu
    cases h
    exact handleWord_kept (t := u) hu
  · cases h
  · cases h

theorem fgStep_kept (h : fgStep s = .next t) : s.diag.Kept t.diag := by
  unfold fgStep at h
  split at h
  · exact .of_eq (notEnabled_diag h)
  · rename_i later _
    exact handleWord_kept (s := s.withProgram later) h
  · rename_i stored later _
    exact handleWord_kept (s := { s with fg := { program := later, stored := stored } }) h
  · exact enqueuePut_kept h

theorem agentStep_kept {a : AgentStep} (h : agentStep a s = .next t) : s.diag.Kept t.diag := by
  cases a with
  | fg => exact fgStep_kept h
  | irq => exact irqStep_kept h
  | devTxDone => exact .of_eq (devTxDone_diag h)
  | devRxArrive b => exact .of_eq (devRxArrive_diag h)
  | syncW2R f => cases h; exact .of_eq syncW2R_diag
  | syncR2W f => cases h; exact .of_eq syncR2W_diag

theorem move_kept {m : Move} (hm : m ≠ .reset) (h : move m s = .next t) : s.diag.Kept t.diag := by
  cases m with
  | agent a => exact agentStep_kept h
  | port who w => exact handleWord_kept h
  | reset => exact absurd rfl hm

/-! Which command sets which flag. -/

/-- A command that changes a drop flag while it may be issued is `INB` or `INVOKE`. -/
theorem exec_dropFlags (h : exec i s = .next t) :
    (t.diag.rxDrop = s.diag.rxDrop ∧ t.diag.echoDrop = s.diag.echoDrop) ∨ i = .inb ∨ i = .invoke := by
  obtain ⟨-, hd⟩ | ⟨-, hd | ⟨hi, -⟩⟩ := exec_diag h
  · rw [hd]; exact .inl ⟨rfl, rfl⟩
  · rw [hd]; exact .inl ⟨rfl, rfl⟩
  · exact .inr hi

theorem exec_illegal_iff (h : exec i s = .next t) :
    t.diag.illegal = true ↔ s.diag.illegal = true ∨ mayIssue s.issuer i = false := by
  obtain ⟨hi, hd⟩ | ⟨hi, hd | ⟨-, -, hd⟩⟩ := exec_diag h <;> simp [hi, hd]

end Diag

/-- Settles O39: `move_kept` for the first part, and for the second what `exec_diag` says of each
flag. -/
theorem diagFlagsAreSticky : Obligations.DiagFlagsAreSticky :=
  ⟨fun _ _ _ hm h => move_kept hm h, fun _ _ _ h =>
    ⟨fun hr => (exec_dropFlags h).imp_left fun ⟨hrx, _⟩ => hrx ▸ hr,
      fun he => (exec_dropFlags h).imp_left fun ⟨_, hecho⟩ => hecho ▸ he,
      exec_illegal_iff h⟩⟩

end Sys2Proof.Machine
end

section
/-!
Family 20_memory.md: the FIFOs. The invariant of section 11 (R63) and what follows from it for the
views (R66, R67), the unread slots (R64) and the byte order (R61); how the cursors move (R47); gray
code (R49, R50); and the synchronisers (R52, R53).
-/

namespace Sys2Proof.Machine

open Sys2Proof.Config (AgentStep)

variable {s t : State} {f g : FifoId} {q : Fifo} {d b : Byte} {i : Instr} {r : Reply} {n : Nat}
variable {ev pm pu : Bool}

/-! ## Every step keeps the invariant -/

/-! The invariant reads neither the model's own fields nor the flags and the mask. -/

theorem State.Inv.respond (h : s.Inv) (r : Reply) : (s.respond r).Inv := h
theorem State.Inv.quiet (h : s.Inv) : s.quiet.Inv := h
theorem State.Inv.illegal (h : s.Inv) : s.illegal.Inv := h
theorem State.Inv.withIssuer (h : s.Inv) (who : Issuer) : { s with issuer := who }.Inv := h
theorem State.Inv.withForeground (h : s.Inv) (w : Foreground) : { s with fg := w }.Inv := h
theorem State.Inv.withIer (h : s.Inv) (m : Ier) : { s with ier := m }.Inv := h
theorem State.Inv.withProgram (h : s.Inv) (p : List FgItem) : (s.withProgram p).Inv := h

theorem State.Inv.withDev {v : Dev} (h : s.Inv) (hv : v.Inv) : { s with dev := v }.Inv :=
  h.congr rfl rfl rfl hv

theorem whenAdmitted_admitted (hp : s.params.admitted = true) (o : Outcome) :
    whenAdmitted s o = o := if_pos hp

theorem readOnly_total (h : s.Inv) (data : State → Byte) :
    ∃ t r, readOnly data s = .ok (t, r) ∧ t.Inv := ⟨s, _, rfl, h⟩

/-- A command keeps the invariant when its rule answers and keeps it. -/
theorem exec_total_of_rule {body : State → Effect} (h : s.Inv) (hc : exec i s = command i body s)
    (hb : ∃ t r, body s = .ok (t, r) ∧ t.Inv) : ∃ t, exec i s = .next t ∧ t.Inv := by
  cases hi : mayIssue s.issuer i with
  | false => exact ⟨_, exec_illegal h.1 hi, h.illegal⟩
  | true =>
    obtain ⟨t, r, hb, ht⟩ := hb
    exact ⟨_, exec_ok h.1 hi hc hb, ht.respond r⟩

/-- From a state of the invariant every command completes, in a state of the invariant. -/
theorem exec_total (h : s.Inv) (i : Instr) : ∃ t, exec i s = .next t ∧ t.Inv := by
  refine exec_total_of_rule h (exec_command i s) ?_
  cases i with
  | put f d => exact putPort_total h f d
  | get f => exact getPort_total h f
  | empty f v => exact readOnly_total h _
  | full f v => exact readOnly_total h _
  | dsize f v => exact readOnly_total h _
  | outb => exact outputByte_total h
  | inb => exact inputByte_total h
  | eni e => exact ⟨_, _, rfl, h.setEnable e true⟩
  | disi e => exact ⟨_, _, rfl, h.setEnable e false⟩
  | trig => exact readOnly_total h _
  | stat => exact readOnly_total h _
  | hwwr d => exact deviceWrite_total h d
  | hwrd => exact deviceRead_total h
  | invoke => exact invocation_total h

theorem handleWord_total (h : s.Inv) (who : Issuer) (w : Word) :
    ∃ t, handleWord who w s = .next t ∧ t.Inv := by
  unfold handleWord
  split
  · exact exec_total (h.withIssuer who) _
  · exact ⟨_, whenAdmitted_admitted h.1 _, (h.withIssuer who).illegal⟩

theorem notEnabled_total (h : s.Inv) : ∃ t, notEnabled s = .next t ∧ t.Inv := ⟨_, rfl, h.quiet⟩

theorem irqStep_total (h : s.Inv) : ∃ t, irqStep s = .next t ∧ t.Inv := by
  unfold irqStep
  split
  · exact handleWord_total h _ _
  · exact notEnabled_total h

theorem devTxDone_total (h : s.Inv) : ∃ t, devTxDone s = .next t ∧ t.Inv := by
  unfold devTxDone
  cases hr : s.dev.txReady with
  | true => exact notEnabled_total h
  | false =>
    obtain ⟨b, hb⟩ := Option.isSome_iff_exists.mp (h.dev.1 hr)
    simp only [hb]
    exact ⟨_, rfl, h.withDev ⟨fun hx => (Bool.noConfusion hx), h.dev.2⟩⟩

theorem devRxArrive_total (h : s.Inv) (b : Byte) : ∃ t, devRxArrive b s = .next t ∧ t.Inv := by
  unfold devRxArrive
  split
  · exact notEnabled_total h
  · exact ⟨_, rfl, h.withDev ⟨h.dev.1, fun _ => rfl⟩⟩

theorem enqueuePut_total (h : s.Inv) (stored : Nat) (b : Byte) (rest : List Byte)
    (later : List FgItem) : ∃ t, enqueuePut stored b rest later s = .next t ∧ t.Inv := by
  obtain ⟨t, ht, hi⟩ := handleWord_total h .fg (encode (.put .tx b))
  simp only [enqueuePut, ht]
  exact ⟨_, rfl, hi.withProgram _⟩

theorem fgStep_total (h : s.Inv) : ∃ t, fgStep s = .next t ∧ t.Inv := by
  unfold fgStep
  split
  · exact notEnabled_total h
  · exact handleWord_total (h.withForeground _) _ _
  · exact handleWord_total (h.withForeground _) _ _
  · exact enqueuePut_total h _ _ _ _

theorem State.Inv.afterSyncW2R (h : s.Inv) (f : FifoId) : (syncW2R f s).Inv := by
  rw [syncW2R_eq]
  exact (h.setFifo (Fifo.clockedW2R_inv (h.fifo f))).withIer _

theorem State.Inv.afterSyncR2W (h : s.Inv) (f : FifoId) : (syncR2W f s).Inv :=
  h.setFifo (Fifo.clockedR2W_inv (h.fifo f))

theorem agentStep_total (h : s.Inv) (a : AgentStep) : ∃ t, agentStep a s = .next t ∧ t.Inv := by
  cases a with
  | fg => exact fgStep_total h
  | irq => exact irqStep_total h
  | devTxDone => exact devTxDone_total h
  | devRxArrive b => exact devRxArrive_total h b
  | syncW2R f => exact ⟨_, rfl, (h.afterSyncW2R f).quiet⟩
  | syncR2W f => exact ⟨_, rfl, (h.afterSyncR2W f).quiet⟩

/-- At reset no device register may be read yet (70_reset_and_hazards.md R144). -/
theorem Dev.reset_inv : Dev.reset.Inv := by decide

/-- Reset makes the block's part of the invariant true; the parameters it keeps must be admitted
(70_reset_and_hazards.md R143). -/
theorem resetEvent_inv (hp : s.params.admitted = true) : (resetEvent s).Inv :=
  ⟨hp, Fifo.reset_inv _, Fifo.reset_inv _, Dev.reset_inv⟩

theorem move_total (h : s.Inv) (m : Move) : ∃ t, move m s = .next t ∧ t.Inv := by
  cases m with
  | agent a => exact agentStep_total h a
  | port who w => exact handleWord_total h who w
  | reset => exact ⟨_, rfl, resetEvent_inv h.1⟩

theorem State.Inv.afterNextMove (h : s.Inv) : (nextMove s).2.Inv := by
  unfold nextMove
  split <;> exact h

/-- From a state of the invariant a step is taken, to a state of the invariant. -/
theorem step_total (h : s.Inv) : ∃ t, step s = .next t ∧ t.Inv := by
  rw [step, whenAdmitted_admitted h.1]
  exact move_total h.afterNextMove _

/-- Settles O44: the one state `step_total` gives is the one the step answered. -/
theorem everyStepKeepsTheInvariant : Obligations.EveryStepKeepsTheInvariant := by
  intro s t h hst
  obtain ⟨u, hu, hi⟩ := step_total h
  cases hst.symm.trans hu
  exact hi

/-- Settles O43: the parameters of this hardware are admitted, and the other parts of `State.RunInv`
speak of an empty agenda, a mask at its reset value and empty lists. -/
theorem resetMeetsTheInvariants : Obligations.ResetMeetsTheInvariants := by
  have h : State.reset.Inv := ⟨rfl, Fifo.reset_inv _, Fifo.reset_inv _, Dev.reset_inv⟩
  exact ⟨h, h, fun _ hm => absurd hm List.not_mem_nil, rfl, fun _ => rfl, rfl⟩

/-! ## How the cursors move

`inc` is the successor mod N of R47. -/

theorem setFifo_pushed_rbin (g : FifoId) :
    ((s.setFifo f ((s.fifo f).pushed n d)).fifo g).rbin = (s.fifo g).rbin := by
  by_cases h : g = f
  · subst h; simp
  · rw [State.fifo_setFifo_other _ _ _ _ h]

theorem setFifo_pushed_wbin (g : FifoId) :
    ((s.setFifo f ((s.fifo f).pushed (s.cap f) d)).fifo g).wbin = (s.fifo g).wbin ∨
      g = f ∧ ((s.setFifo f ((s.fifo f).pushed (s.cap f) d)).fifo g).wbin =
        inc (s.cap g) (s.fifo g).wbin := by
  by_cases h : g = f
  · subst h; simp
  · rw [State.fifo_setFifo_other _ _ _ _ h]; exact .inl rfl

theorem setFifo_popped_wbin (g : FifoId) :
    ((s.setFifo f ((s.fifo f).popped n)).fifo g).wbin = (s.fifo g).wbin := by
  by_cases h : g = f
  · subst h; simp
  · rw [State.fifo_setFifo_other _ _ _ _ h]

theorem setFifo_popped_rbin (g : FifoId) :
    ((s.setFifo f ((s.fifo f).popped (s.cap f))).fifo g).rbin = (s.fifo g).rbin ∨
      g = f ∧ ((s.setFifo f ((s.fifo f).popped (s.cap f))).fifo g).rbin =
        inc (s.cap g) (s.fifo g).rbin := by
  by_cases h : g = f
  · subst h; simp
  · rw [State.fifo_setFifo_other _ _ _ _ h]; exact .inl rfl

theorem putPort_rbin (h : putPort f d s = .ok (t, r)) (g : FifoId) :
    (t.fifo g).rbin = (s.fifo g).rbin := by
  obtain ⟨-, rfl, -⟩ | ⟨-, -, rfl, -⟩ := putPort_ok h
  · rfl
  · exact setFifo_pushed_rbin g

theorem putPort_wbin (h : putPort f d s = .ok (t, r)) (g : FifoId) :
    (t.fifo g).wbin = (s.fifo g).wbin ∨
      g = f ∧ (t.fifo g).wbin = inc (s.cap g) (s.fifo g).wbin := by
  obtain ⟨-, rfl, -⟩ | ⟨-, -, rfl, -⟩ := putPort_ok h
  · exact .inl rfl
  · exact setFifo_pushed_wbin g

theorem getPort_wbin (h : getPort f s = .ok (t, r)) (g : FifoId) :
    (t.fifo g).wbin = (s.fifo g).wbin := by
  obtain ⟨-, rfl, -⟩ | ⟨-, -, _, -, rfl, -⟩ := getPort_ok h
  · rfl
  · exact setFifo_popped_wbin g

theorem getPort_rbin (h : getPort f s = .ok (t, r)) (g : FifoId) :
    (t.fifo g).rbin = (s.fifo g).rbin ∨
      g = f ∧ (t.fifo g).rbin = inc (s.cap g) (s.fifo g).rbin := by
  obtain ⟨-, rfl, -⟩ | ⟨-, -, _, -, rfl, -⟩ := getPort_ok h
  · exact .inl rfl
  · exact setFifo_popped_rbin g

theorem outputByte_wbin (h : outputByte s = .ok (t, r)) (g : FifoId) :
    (t.fifo g).wbin = (s.fifo g).wbin := by
  obtain ⟨-, rfl, -⟩ | ⟨-, -, rfl, -⟩ | ⟨-, -, -, _, -, rfl, -⟩ := outputByte_ok h
  · rfl
  · rfl
  · rw [State.sendByte_fifo]; exact setFifo_popped_wbin (f := .tx) g

theorem outputByte_rbin (h : outputByte s = .ok (t, r)) (g : FifoId) :
    (t.fifo g).rbin = (s.fifo g).rbin ∨
      g = .tx ∧ (t.fifo g).rbin = inc (s.cap g) (s.fifo g).rbin := by
  obtain ⟨-, rfl, -⟩ | ⟨-, -, rfl, -⟩ | ⟨-, -, -, _, -, rfl, -⟩ := outputByte_ok h
  · exact .inl rfl
  · exact .inl rfl
  · rw [State.sendByte_fifo]; exact setFifo_popped_rbin (f := .tx) g

theorem echoByte_rbin (h : echoByte b s = .ok t) (g : FifoId) :
    (t.fifo g).rbin = (s.fifo g).rbin := by
  obtain ⟨-, rfl⟩ | ⟨-, -, rfl⟩ | ⟨-, -, -, rfl⟩ := echoByte_ok h
  · rfl
  · cases g <;> rfl
  · exact setFifo_pushed_rbin (f := .tx) g

theorem echoByte_wbin (h : echoByte b s = .ok t) (g : FifoId) :
    (t.fifo g).wbin = (s.fifo g).wbin ∨
      g = .tx ∧ (t.fifo g).wbin = inc (s.cap g) (s.fifo g).wbin := by
  obtain ⟨-, rfl⟩ | ⟨-, -, rfl⟩ | ⟨-, -, -, rfl⟩ := echoByte_ok h
  · exact .inl rfl
  · exact .inl (by cases g <;> rfl)
  · exact setFifo_pushed_wbin (f := .tx) g

theorem inputByte_rbin (h : inputByte s = .ok (t, r)) (g : FifoId) :
    (t.fifo g).rbin = (s.fifo g).rbin := by
  obtain ⟨-, rfl, -⟩ | ⟨-, b, -, ⟨-, -, rfl⟩ | ⟨-, -, -, hecho⟩⟩ := inputByte_ok h
  · rfl
  · cases g <;> rfl
  · rw [echoByte_rbin hecho g]
    exact setFifo_pushed_rbin (s := s.takeByte) (f := .rx) g

/-- `INB` pushes at most once into each FIFO: the received byte into RX, its echo into TX
(41_transport.md R104). -/
theorem inputByte_wbin (h : inputByte s = .ok (t, r)) (g : FifoId) :
    (t.fifo g).wbin = (s.fifo g).wbin ∨ (t.fifo g).wbin = inc (s.cap g) (s.fifo g).wbin := by
  obtain ⟨-, rfl, -⟩ | ⟨-, b, -, ⟨-, -, rfl⟩ | ⟨-, -, -, hecho⟩⟩ := inputByte_ok h
  · exact .inl rfl
  · exact .inl (by cases g <;> rfl)
  · cases g with
    | tx => exact (echoByte_wbin hecho .tx).imp_right And.right
    | rx =>
      obtain hkeep | ⟨hne, -⟩ := echoByte_wbin hecho .rx
      · exact .inr hkeep
      · cases hne

@[simp] theorem invokeApply_fifo (f : FifoId) : (invokeApply pm pu s).fifo f = s.fifo f := by
  unfold invokeApply
  split
  · exact State.setEnable_fifo ..
  split
  · exact State.setEnable_fifo ..
  · rfl

theorem invokeTransmit_wbin (h : invokeTransmit ev s = .ok (t, pm)) (g : FifoId) :
    (t.fifo g).wbin = (s.fifo g).wbin := by
  obtain ⟨-, rfl, -⟩ | ⟨-, _, hout, -⟩ := invokeTransmit_ok h
  · rfl
  · exact outputByte_wbin hout g

theorem invokeTransmit_rbin (h : invokeTransmit ev s = .ok (t, pm)) (g : FifoId) :
    (t.fifo g).rbin = (s.fifo g).rbin ∨
      g = .tx ∧ (t.fifo g).rbin = inc (s.cap g) (s.fifo g).rbin := by
  obtain ⟨-, rfl, -⟩ | ⟨-, _, hout, -⟩ := invokeTransmit_ok h
  · exact .inl rfl
  · exact outputByte_rbin hout g

theorem invokeReceive_rbin (h : invokeReceive ev s = .ok (t, pu)) (g : FifoId) :
    (t.fifo g).rbin = (s.fifo g).rbin := by
  obtain ⟨-, rfl, -⟩ | ⟨-, _, hin, -⟩ := invokeReceive_ok h
  · rfl
  · exact inputByte_rbin hin g

theorem invokeReceive_wbin (h : invokeReceive ev s = .ok (t, pu)) (g : FifoId) :
    (t.fifo g).wbin = (s.fifo g).wbin ∨ (t.fifo g).wbin = inc (s.cap g) (s.fifo g).wbin := by
  obtain ⟨-, rfl, -⟩ | ⟨-, _, hin, -⟩ := invokeReceive_ok h
  · exact .inl rfl
  · exact inputByte_wbin hin g

theorem State.cap_of_outside (h : t.outside = s.outside) (g : FifoId) : t.cap g = s.cap g :=
  congrArg (Config.Params.capacity · g) (congrArg Prod.fst h)

/-- The write cursors move only in step 3 of an invocation. -/
theorem invocation_wbin (h : invocation s = .ok (t, r)) (g : FifoId) :
    (t.fifo g).wbin = (s.fifo g).wbin ∨ (t.fifo g).wbin = inc (s.cap g) (s.fifo g).wbin := by
  obtain ⟨u, pm, v, pu, hu, hv, rfl, -⟩ := invocation_ok h
  rw [invokeApply_fifo, ← invokeTransmit_wbin hu g,
    ← State.cap_of_outside (invokeTransmit_outside hu) g]
  exact invokeReceive_wbin hv g

/-- The read cursors move only in step 2 of an invocation. -/
theorem invocation_rbin (h : invocation s = .ok (t, r)) (g : FifoId) :
    (t.fifo g).rbin = (s.fifo g).rbin ∨
      g = .tx ∧ (t.fifo g).rbin = inc (s.cap g) (s.fifo g).rbin := by
  obtain ⟨u, pm, v, pu, hu, hv, rfl, -⟩ := invocation_ok h
  rw [invokeApply_fifo, invokeReceive_rbin hv g]
  exact invokeTransmit_rbin hu g

/-! The commands that touch no FIFO. -/

theorem readOnly_fifo {data : State → Byte} (h : readOnly data s = .ok (t, r)) (g : FifoId) :
    t.fifo g = s.fifo g := by
  cases h; rfl

theorem deviceWrite_fifo (h : deviceWrite d s = .ok (t, r)) (g : FifoId) : t.fifo g = s.fifo g := by
  obtain ⟨-, rfl, -⟩ | ⟨-, rfl, -⟩ := deviceWrite_ok h
  · exact State.sendByte_fifo ..
  · rfl

theorem deviceRead_fifo (h : deviceRead s = .ok (t, r)) (g : FifoId) : t.fifo g = s.fifo g := by
  obtain ⟨-, _, -, rfl, -⟩ | ⟨-, rfl, -⟩ := deviceRead_ok h
  · exact State.takeByte_fifo ..
  · rfl

/-- What R47 and R69 let a command do to the two cursors of FIFO `f`. -/
def CursorsFollow (i : Instr) (f : FifoId) (s t : State) : Prop :=
  ((t.fifo f).wbin = (s.fifo f).wbin ∨
    (t.fifo f).wbin = inc (s.cap f) (s.fifo f).wbin ∧
      ((∃ d, i = .put f d) ∨ i = .inb ∨ i = .invoke)) ∧
  ((t.fifo f).rbin = (s.fifo f).rbin ∨
    (t.fifo f).rbin = inc (s.cap f) (s.fifo f).rbin ∧
      (i = .get f ∨ f = .tx ∧ (i = .outb ∨ i = .invoke)))

theorem CursorsFollow.of_fifo_eq (h : t.fifo f = s.fifo f) : CursorsFollow i f s t :=
  ⟨.inl (congrArg Fifo.wbin h), .inl (congrArg Fifo.rbin h)⟩

theorem exec_cursorsFollow (h : exec i s = .next t) (f : FifoId) : CursorsFollow i f s t := by
  rw [exec_command] at h
  obtain ⟨-, ⟨-, rfl⟩ | ⟨-, u, r, hb, rfl⟩⟩ := command_next h
  · exact .of_fifo_eq (State.illegal_fifo ..)
  · suffices CursorsFollow i f s u by simpa [CursorsFollow] using this
    cases i with
    | put g d =>
      exact ⟨(putPort_wbin hb f).imp_right fun ⟨hf, hw⟩ => ⟨hw, .inl ⟨d, by rw [hf]⟩⟩,
        .inl (putPort_rbin hb f)⟩
    | get g =>
      exact ⟨.inl (getPort_wbin hb f),
        (getPort_rbin hb f).imp_right fun ⟨hf, hr⟩ => ⟨hr, .inl (by rw [hf])⟩⟩
    | empty g v => exact .of_fifo_eq (readOnly_fifo hb f)
    | full g v => exact .of_fifo_eq (readOnly_fifo hb f)
    | dsize g v => exact .of_fifo_eq (readOnly_fifo hb f)
    | outb =>
      exact ⟨.inl (outputByte_wbin hb f),
        (outputByte_rbin hb f).imp_right fun ⟨hf, hr⟩ => ⟨hr, .inr ⟨hf, .inl rfl⟩⟩⟩
    | inb =>
      exact ⟨(inputByte_wbin hb f).imp_right fun hw => ⟨hw, .inr (.inl rfl)⟩,
        .inl (inputByte_rbin hb f)⟩
    | eni e => cases hb; exact .of_fifo_eq (State.setEnable_fifo ..)
    | disi e => cases hb; exact .of_fifo_eq (State.setEnable_fifo ..)
    | trig => exact .of_fifo_eq (readOnly_fifo hb f)
    | stat => exact .of_fifo_eq (readOnly_fifo hb f)
    | hwwr d => exact .of_fifo_eq (deviceWrite_fifo hb f)
    | hwrd => exact .of_fifo_eq (deviceRead_fifo hb f)
    | invoke =>
      exact ⟨(invocation_wbin hb f).imp_right fun hw => ⟨hw, .inr (.inr rfl)⟩,
        (invocation_rbin hb f).imp_right fun ⟨hf, hr⟩ => ⟨hr, .inr ⟨hf, .inr rfl⟩⟩⟩

/-- Settles O17: each operation advances a cursor at most once, and an invocation moves the read
cursor in its `OUTB` and the write cursors in its `INB`. -/
theorem cursorsMoveOnlyByOne : Obligations.CursorsMoveOnlyByOne := fun _ f _ _ h =>
  exec_cursorsFollow h f

/-! ## The views -/

theorem Fifo.occ_eq (h2 : 2 ≤ n) (h : n ≤ 256) (hi : q.Inv n) :
    diff n q.wbin q.rbin = q.ghost.w - q.ghost.r := by
  obtain ⟨⟨c1, c2, c3, c4, c5, c6⟩, ⟨hw, -, hr, -⟩, -⟩ := hi
  rw [hw, hr]
  exact diff_ofCount h2 h (by omega) (by omega)

theorem Fifo.dsizeR_eq (h2 : 2 ≤ n) (h : n ≤ 256) (hi : q.Inv n) :
    diff n (bin q.rq2) q.rbin = q.ghost.wq2 - q.ghost.r := by
  obtain ⟨⟨c1, c2, c3, c4, c5, c6⟩, ⟨-, -, hr, -, -, hq, -, -⟩, -⟩ := hi
  rw [hr, hq, bin_grayOfCount]
  exact diff_ofCount h2 h c3 (by omega)

theorem Fifo.dsizeW_eq (h2 : 2 ≤ n) (h : n ≤ 256) (hi : q.Inv n) :
    diff n q.wbin (bin q.wq2) = q.ghost.w - q.ghost.rq2 := by
  obtain ⟨⟨c1, c2, c3, c4, c5, c6⟩, ⟨hw, -, -, -, -, -, -, hq⟩, -⟩ := hi
  rw [hw, hq, bin_grayOfCount]
  exact diff_ofCount h2 h (by omega) (by omega)

/-- A read side that shows N - 1 bytes has the successor of its view at its own cursor
(20_memory.md R57). -/
theorem Fifo.wq2_of_fullR (h2 : 2 ≤ n) (h : n ≤ 256) (hi : q.Inv n)
    (hf : inc n (bin q.rq2) = q.rbin) : q.ghost.wq2 = q.ghost.r + (n - 1) := by
  obtain ⟨⟨c1, c2, c3, c4, c5, c6⟩, ⟨-, -, hr, -, -, hq, -, -⟩, -⟩ := hi
  rw [hr, hq, bin_grayOfCount, inc_ofCount h2 h] at hf
  by_contra hne
  have := (ofCount_inj h2 h (by omega) (by omega)).mp hf.symm
  omega

/-- A write side that shows no byte has its view of the read count at its own (20_memory.md R56). -/
theorem Fifo.rq2_of_emptyW (h2 : 2 ≤ n) (h : n ≤ 256) (hi : q.Inv n) (he : q.wbin = bin q.wq2) :
    q.ghost.rq2 = q.ghost.w := by
  obtain ⟨⟨c1, c2, c3, c4, c5, c6⟩, ⟨hw, -, -, -, -, -, -, hq⟩, -⟩ := hi
  rw [hw, hq, bin_grayOfCount] at he
  exact (ofCount_inj h2 h (by omega) (by omega)).mp he.symm

theorem State.Inv.chain (h : s.Inv) (f : FifoId) : (s.fifo f).ghost.chain (s.cap f) := (h.fifo f).1

theorem State.Inv.occ_eq (h : s.Inv) (f : FifoId) :
    occ s f = (s.fifo f).ghost.w - (s.fifo f).ghost.r :=
  Fifo.occ_eq (h.cap2 f) (h.cap256 f) (h.fifo f)

theorem State.Inv.dsizeR_eq (h : s.Inv) (f : FifoId) :
    dsizeR s f = (s.fifo f).ghost.wq2 - (s.fifo f).ghost.r :=
  Fifo.dsizeR_eq (h.cap2 f) (h.cap256 f) (h.fifo f)

theorem State.Inv.dsizeW_eq (h : s.Inv) (f : FifoId) :
    dsizeW s f = (s.fifo f).ghost.w - (s.fifo f).ghost.rq2 :=
  Fifo.dsizeW_eq (h.cap2 f) (h.cap256 f) (h.fifo f)

theorem State.Inv.r_lt_wq2 (h : s.Inv) (he : emptyR s f = false) :
    (s.fifo f).ghost.r < (s.fifo f).ghost.wq2 := by
  obtain ⟨-, -, hle, -⟩ := h.chain f
  exact lt_of_le_of_ne hle fun hx => Bool.eq_false_iff.mp he ((h.emptyR_iff f).mpr hx)

theorem State.Inv.w_lt_of_room (h : s.Inv) (hf : fullW s f = false) :
    (s.fifo f).ghost.w < (s.fifo f).ghost.rq2 + (s.cap f - 1) := by
  obtain ⟨-, -, -, -, -, hle⟩ := h.chain f
  exact lt_of_le_of_ne hle fun hx => Bool.eq_false_iff.mp hf ((h.fullW_iff f).mpr hx)

/-- The smallest block (N = 2), with one byte put into TX and not yet carried across. -/
def oneByteInFlight : State :=
  { State.reset with params := ⟨1, 1, true⟩, tx := Fifo.reset.pushed 2 0x41 }

/-- The same byte carried across and popped, the freed slot not yet carried back. -/
def oneSlotInFlight : State :=
  { oneByteInFlight with tx := oneByteInFlight.tx.clockedW2R.clockedW2R.popped 2 }

theorem oneByteInFlight_inv : oneByteInFlight.Inv :=
  ⟨rfl, Fifo.pushed_inv le_rfl (by decide) (Fifo.reset_inv 2) (by decide) _, Fifo.reset_inv _,
    Dev.reset_inv⟩

theorem oneSlotInFlight_inv : oneSlotInFlight.Inv :=
  ⟨rfl, Fifo.popped_inv le_rfl (by decide)
      (Fifo.clockedW2R_inv (Fifo.clockedW2R_inv (oneByteInFlight_inv.fifo .tx))) (by decide),
    oneByteInFlight_inv.fifo .rx, oneByteInFlight_inv.dev⟩

/-- Settles O47: in counts the sizes are `Wq2 - R`, `W - R` and `W - Rq2`, ordered by the chain of
R63; a byte in flight and a slot in flight refute the converses. -/
theorem viewsAreConservative : Obligations.ViewsAreConservative := by
  refine ⟨fun s f h => ?_, ⟨oneByteInFlight, oneByteInFlight_inv, by decide⟩,
    ⟨oneSlotInFlight, oneSlotInFlight_inv, by decide⟩⟩
  obtain ⟨c1, c2, c3, c4, c5, c6⟩ := h.chain f
  rw [h.occ_eq, h.dsizeR_eq, h.dsizeW_eq]
  refine ⟨rfl, by omega, by omega, by omega, fun he => ?_, fun hf => ?_, fun hf => ?_, fun he => ?_⟩
  · have := h.r_lt_wq2 he
    omega
  · have := h.w_lt_of_room hf
    omega
  · have := Fifo.wq2_of_fullR (h.cap2 f) (h.cap256 f) (h.fifo f) (beq_iff_eq.mp hf)
    omega
  · have := Fifo.rq2_of_emptyW (h.cap2 f) (h.cap256 f) (h.fifo f) (beq_iff_eq.mp he)
    omega

/-! ## The unread bytes -/

/-- The slots of the unread counts read after a push as before: both reads are the byte of that
`PUT` (20_memory.md R64). -/
theorem State.Inv.read_pushed (h : s.Inv) (hf : fullW s f = false) (d : Byte) {j : Nat}
    (hr : (s.fifo f).ghost.r ≤ j) (hw : j < (s.fifo f).ghost.w) :
    ((s.fifo f).pushed (s.cap f) d).mem.read (j % s.cap f) = (s.fifo f).mem.read (j % s.cap f) := by
  obtain ⟨-, -, -, -, hlen, hold⟩ := h.fifo f
  have hi := (h.pushed hf d).fifo f
  rw [State.fifo_setFifo_same, State.setFifo_cap] at hi
  obtain ⟨-, -, -, -, -, hnew⟩ := hi
  calc ((s.fifo f).pushed (s.cap f) d).mem.read (j % s.cap f)
      = ((s.fifo f).ghost.puts ++ [d])[j]? := hnew j (Nat.lt_succ_of_lt hw) hr
    _ = (s.fifo f).ghost.puts[j]? := List.getElem?_append_left (hlen.symm ▸ hw)
    _ = (s.fifo f).mem.read (j % s.cap f) := (hold j hw hr).symm

/-- Settles O48: only a `PUT` with room in the write-side view stores, and `State.Inv.read_pushed`
says what it leaves. -/
theorem putNeverOverwritesAnUnreadByte : Obligations.PutNeverOverwritesAnUnreadByte := by
  intro f d s t h hx
  obtain ⟨-, ⟨-, rfl⟩ | ⟨-, u, r, hb, rfl⟩⟩ := command_next (body := putPort f d) hx
  · exact ⟨fun hr => absurd (Option.some.inj hr) (by decide),
      fun j _ _ => by rw [State.illegal_fifo]⟩
  · obtain ⟨-, rfl, rfl⟩ | ⟨hf, -, rfl, rfl⟩ := putPort_ok hb
    · exact ⟨fun hr => absurd (Option.some.inj hr) (by decide),
        fun j _ _ => by rw [State.respond_fifo]⟩
    · refine ⟨fun _ => ?_, fun j hr hw => ?_⟩
      · have := h.w_lt_of_room hf
        obtain ⟨c1, c2, -⟩ := h.chain f
        omega
      · rw [State.respond_fifo, State.fifo_setFifo_same]
        exact h.read_pushed hf d hr hw

/-- Settles O49: a visible byte at the read cursor is the byte of the next count
(`State.Inv.head`), and a push appends its byte. -/
theorem bytesLeaveInTheOrderTheyEntered : Obligations.BytesLeaveInTheOrderTheyEntered := by
  constructor
  · intro f s h hi he
    obtain ⟨v, hv, hput⟩ := h.head he
    refine ⟨_, v, exec_ok h.1 hi rfl (getPort_take he hv), hput, ?_, ?_, ?_⟩
    · rw [State.respond_response, Reply.word_ok]
    · rw [State.respond_fifo, State.fifo_setFifo_same]; rfl
    · rw [State.respond_fifo, State.fifo_setFifo_same]; rfl
  · intro f d s h hi hf
    refine ⟨_, exec_ok h.1 hi rfl (putPort_store hf (h.wbin_lt f)), ?_, ?_⟩
    · rw [State.respond_fifo, State.fifo_setFifo_same]; rfl
    · rw [State.respond_fifo, State.fifo_setFifo_same]; rfl

/-! ## Slots that cannot be read -/

theorem putPort_outOfRange (hf : fullW s f = false) (hw : s.cap f ≤ (s.fifo f).wbin.toNat) :
    putPort f d s = .error (.slotOutOfRange f (s.fifo f).wbin.toNat) := by
  simp [putPort, hf, Nat.not_lt.mpr hw]

theorem getPort_outOfRange (he : emptyR s f = false) (hr : s.cap f ≤ (s.fifo f).rbin.toNat) :
    getPort f s = .error (.slotOutOfRange f (s.fifo f).rbin.toNat) := by
  simp [getPort, he, Nat.not_lt.mpr hr]

theorem getPort_unwritten (he : emptyR s f = false) (hr : (s.fifo f).rbin.toNat < s.cap f)
    (hn : (s.fifo f).mem.read (s.fifo f).rbin.toNat = none) :
    getPort f s = .error (.slotUnwritten f (s.fifo f).rbin.toNat) := by
  simp [getPort, he, hr, hn]

/-- A command its issuer may issue, in an admitted configuration, stops where its rule stops. -/
theorem exec_fault {body : State → Effect} {e : Fault} (hp : s.params.admitted = true)
    (hi : mayIssue s.issuer i = true) (hc : exec i s = command i body s) (hb : body s = .error e) :
    exec i s = .fault e := by
  rw [hc, command_legal hp hi, hb]

/-- Settles O16: the ports test the cursor, and the read port the slot, before they change
anything. -/
theorem slotsThatCannotBeReadStop : Obligations.SlotsThatCannotBeReadStop := fun _ _ hp =>
  ⟨fun _ hi hf hw => exec_fault hp hi rfl (putPort_outOfRange hf hw), fun hi he =>
    ⟨fun hr => exec_fault hp hi rfl (getPort_outOfRange he hr),
      fun hr hn => exec_fault hp hi rfl (getPort_unwritten he hr hn)⟩⟩

/-! ## Gray code -/

/-- Between a number and its successor one bit of the gray code changes; unless it wraps to 0 the
successor is at least that power of two, so in a k-bit cursor the bit is below `k`. -/
theorem gray_succ (b : Cursor) :
    ∃ j < 8, gray (b + 1) ^^^ gray b = BitVec.ofNat 8 (2 ^ j) ∧
      (b.toNat + 1 < 256 → 2 ^ j ≤ b.toNat + 1) := by
  revert b; decide

/-- The gray code of the last cursor is the top bit alone (20_memory.md R50). -/
theorem gray_lastCursor : ∀ k ∈ [1, 2, 3, 4, 5, 6, 7, 8],
    gray (BitVec.ofNat 8 (2 ^ k - 1)) = BitVec.ofNat 8 (2 ^ (k - 1)) := by
  decide

/-- One step of a k-bit cursor changes one of the k low bits of its gray code (20_memory.md R50). -/
theorem gray_inc {k : Nat} (hk : k ∈ [1, 2, 3, 4, 5, 6, 7, 8]) (hb : b.toNat < 2 ^ k) :
    ∃ j < k, gray (inc (2 ^ k) b) ^^^ gray b = BitVec.ofNat 8 (2 ^ j) := by
  have hk' : 1 ≤ k ∧ k ≤ 8 := by
    simp only [List.mem_cons, List.not_mem_nil, or_false] at hk
    omega
  have hpow : 2 ^ k ≤ 256 := Nat.pow_le_pow_right (n := 2) (by decide) hk'.2
  rcases Nat.lt_or_ge (b.toNat + 1) (2 ^ k) with hlt | hge
  · have hinc : inc (2 ^ k) b = b + 1 := by
      rw [inc, Nat.mod_eq_of_lt hlt]
      bv_omega
    obtain ⟨j, -, hj, hle⟩ := gray_succ b
    refine ⟨j, ?_, hinc ▸ hj⟩
    exact (Nat.pow_lt_pow_iff_right (by decide)).mp ((hle (by omega)).trans_lt hlt)
  · have hlast : b.toNat = 2 ^ k - 1 := by omega
    have hinc : inc (2 ^ k) b = 0 := by
      rw [inc, hlast, Nat.sub_add_cancel Nat.one_le_two_pow, Nat.mod_self]
      rfl
    refine ⟨k - 1, by omega, ?_⟩
    rw [hinc, ← gray_lastCursor k hk, ← hlast, BitVec.ofNat_toNat, BitVec.setWidth_eq]
    exact BitVec.zero_xor

theorem getLsbD_bin (g : Cursor) :
    ∀ i < 8, (bin g).getLsbD i = ((bin g).getLsbD (i + 1) ^^ g.getLsbD i) := by
  revert g; decide

/-- Settles O35: `gray_inc` for the steps of a cursor; the conversions are finite facts about eight
bits. -/
theorem grayCodeChangesOneBitAStep : Obligations.GrayCodeChangesOneBitAStep :=
  ⟨fun b => ⟨rfl, bin_gray b⟩, getLsbD_bin, fun k hk => ⟨gray_lastCursor k hk, rfl⟩,
    fun _ hk _ hb => gray_inc hk hb⟩

/-! ## The synchronisers -/

@[simp] theorem syncW2R_fifo_same : (syncW2R f s).fifo f = (s.fifo f).clockedW2R := by
  rw [syncW2R_eq]
  cases f <;> rfl

/-- The step looks at the stage it is about to overwrite: the new `rq2` is the old `rq1`. -/
theorem syncW2R_txEn : (syncW2R f s).ier.txEn =
    (s.ier.txEn || (f == .tx && bin (syncW2R f s).tx.rq2 != bin s.tx.rq2)) := by
  rw [syncW2R_eq]
  cases f <;> rfl

@[simp] theorem syncW2R_rxEn : (syncW2R f s).ier.rxEn = s.ier.rxEn := by rw [syncW2R_eq]

theorem syncW2R_frame : syncW2R f s =
    { s.setFifo f ((syncW2R f s).fifo f) with ier := (syncW2R f s).ier } := by
  rw [syncW2R_fifo_same, syncW2R_eq]

theorem syncW2R_rx_tx : (syncW2R .rx s).tx = s.tx := by
  rw [syncW2R_eq]
  rfl

/-- A write count that arrives at the read side is a new one, so the TX read-side view shows a byte:
the read count is at most the old view (42_interrupt_mask.md R114, 20_memory.md R63). -/
theorem State.Inv.emptyR_of_arrival (h : s.Inv) (hne : bin (syncW2R f s).tx.rq2 ≠ bin s.tx.rq2) :
    emptyR (syncW2R f s) .tx = false := by
  cases f with
  | rx => exact absurd (by rw [syncW2R_rx_tx]) hne
  | tx =>
    have htx : (syncW2R .tx s).tx = s.tx.clockedW2R := syncW2R_fifo_same (f := .tx)
    obtain ⟨-, -, c3, c4, -⟩ := h.chain .tx
    obtain ⟨-, ⟨-, -, -, -, hq1, hq2, -, -⟩, -⟩ := h.fifo .tx
    rw [Bool.eq_false_iff, Ne, (h.afterSyncW2R .tx).emptyR_iff .tx, State.fifo_tx, htx]
    intro (hr : s.tx.ghost.r = s.tx.ghost.wq1)
    have hsame : s.tx.ghost.wq1 = s.tx.ghost.wq2 := le_antisymm (hr ▸ c3) c4
    rw [htx] at hne
    refine hne ?_
    calc bin s.tx.clockedW2R.rq2
        = bin (grayOfCount (s.cap .tx) s.tx.ghost.wq1) := congrArg bin hq1
      _ = bin s.tx.rq2 := by rw [hsame]; exact congrArg bin hq2.symm

/-- Settles O32: `syncW2R_frame` with what the step does to the FIFO and to `tx_en`, and
`State.Inv.emptyR_of_arrival` for what the view then shows. -/
theorem syncW2RShiftsAndReArms : Obligations.SyncW2RShiftsAndReArms := fun f s =>
  ⟨(syncW2R f s).quiet, rfl, syncW2R_fifo_same, syncW2R_txEn, syncW2R_rxEn,
    congrArg State.quiet syncW2R_frame, fun h hne => h.emptyR_of_arrival hne⟩

/-- Settles O33: the step is the clocked FIFO and nothing else. -/
theorem syncR2WShifts : Obligations.SyncR2WShifts := by
  intro f s
  have hf : (syncR2W f s).quiet.fifo f = (s.fifo f).clockedR2W := State.fifo_setFifo_same ..
  exact ⟨(syncR2W f s).quiet, rfl, hf, by rw [hf]; rfl⟩

end Sys2Proof.Machine
end

section
/-!
Family 30_encoding.md: decoding and encoding (R76 to R83, R87 to R90, R95), the text form (R91 to
R93), the issuer table (R86), and how a step handles a word (R85).
-/

namespace Sys2Proof.Machine

variable {d : Byte} {f : FifoId} {e : Event} {v : Side} {i : Instr} {w : Word} {r : Row}
variable {op : BitVec 4} {x y z : Bool}
variable {s t : State} {who : Issuer} {m : Move} {rest : List Move} {later : List FgItem}

/-! ## The fields of a word -/

@[simp] theorem bit_fieldF (w : Word) : (fieldF w).bit = w.getLsbD 8 := by
  unfold fieldF; cases w.getLsbD 8 <;> rfl

@[simp] theorem bit_fieldE (w : Word) : (fieldE w).bit = w.getLsbD 9 := by
  unfold fieldE; cases w.getLsbD 9 <;> rfl

@[simp] theorem bit_fieldS (w : Word) : (fieldS w).bit = w.getLsbD 10 := by
  unfold fieldS; cases w.getLsbD 10 <;> rfl

/-- The layout of 30_encoding.md R76, bit by bit. -/
theorem getLsbD_assembleWord (op : BitVec 4) (s e f : Bool) (d : Byte) (k : Nat) :
    (assembleWord op s e f d).getLsbD k =
      if k < 8 then d.getLsbD k else if k = 8 then f else if k = 9 then e else if k = 10 then s
      else decide (12 ≤ k) && op.getLsbD (k - 12) := by
  change BitVec.getLsbD (w := 4 + 1 + 1 + 1 + 1 + 8) _ k = _
  unfold assembleWord
  simp only [BitVec.getLsbD_append, BitVec.getLsbD_ofBool]
  grind

@[simp] theorem fieldF_assembleWord : fieldF (assembleWord op x y f.bit d) = f := by
  rw [fieldF, getLsbD_assembleWord]; cases f <;> rfl

@[simp] theorem fieldE_assembleWord : fieldE (assembleWord op x e.bit y d) = e := by
  rw [fieldE, getLsbD_assembleWord]; cases e <;> rfl

@[simp] theorem fieldS_assembleWord : fieldS (assembleWord op v.bit x y d) = v := by
  rw [fieldS, getLsbD_assembleWord]; cases v <;> rfl

@[simp] theorem fieldD_assembleWord : fieldD (assembleWord op x y z d) = d :=
  BitVec.eq_of_getLsbD_eq fun k hk => by simp [fieldD, getLsbD_assembleWord, hk]

/-! A mask of ones, as the literals of the table spell it. -/

theorem and_ffff (w : Word) : w &&& 65535#16 = w := BitVec.and_allOnes
theorem ff_and (d : Byte) : 255#8 &&& d = d := BitVec.allOnes_and

/-! ## Decoding is the inverse of encoding -/

theorem encodedInItsRow (i : Instr) : Laws.EncodedInItsRow.Statement i :=
  match i with
  | .put f d => Laws.EncodedInItsRow.put f d
  | .get f => Laws.EncodedInItsRow.get f
  | .empty f v => Laws.EncodedInItsRow.empty f v
  | .full f v => Laws.EncodedInItsRow.full f v
  | .dsize f v => Laws.EncodedInItsRow.dsize f v
  | .outb => Laws.EncodedInItsRow.outb
  | .inb => Laws.EncodedInItsRow.inb
  | .eni e => Laws.EncodedInItsRow.eni e
  | .disi e => Laws.EncodedInItsRow.disi e
  | .trig => Laws.EncodedInItsRow.trig
  | .stat => Laws.EncodedInItsRow.stat
  | .hwwr d => Laws.EncodedInItsRow.hwwr d
  | .hwrd => Laws.EncodedInItsRow.hwrd
  | .invoke => Laws.EncodedInItsRow.invoke

/-- The row that selects a command's word is the branch `decode` takes, and the fields read the
operands back. -/
theorem decode_encode (i : Instr) : decode (encode i) = some i := by
  obtain ⟨hrow, -⟩ := encodedInItsRow i
  cases i with
  | outb | inb | trig | stat | hwrd | invoke => decide
  | put f d | get f | empty f v | full f v | dsize f v | eni e | disi e | hwwr d =>
    simp [rows, Row.selects, Instr.mnemonic, and_ffff] at hrow
    simp [decode, hrow]
    simp [encode]

/-- Settles O2: `decode_encode`, by the row of each command. -/
theorem decodeOfEncodeIsTheCommand : Obligations.DecodeOfEncodeIsTheCommand := decode_encode

/-- Settles O1: 22 closed words. -/
theorem workedWordsDecode : Obligations.WorkedWordsDecode := by
  unfold Obligations.WorkedWordsDecode; decide

/-! ## Every word is one row or none -/

/-- Every row fixes `op` and `z`, and its pattern is its opcode with every other field 0. -/
theorem rows_fix_opcode : ∀ r ∈ rows, ∀ k < 16,
    (k < 12 → r.pattern.getLsbD k = false) ∧ (11 ≤ k → r.mask.getLsbD k = true) := by
  decide

/-- A word a row selects is the row's opcode with the word's own fields where the mask leaves them
free. -/
theorem assembleWord_of_selects (hr : r ∈ rows) (h : r.selects w = true) :
    assembleWord (fieldOp r.pattern) (!r.mask.getLsbD 10 && w.getLsbD 10)
      (!r.mask.getLsbD 9 && w.getLsbD 9) (!r.mask.getLsbD 8 && w.getLsbD 8)
      (~~~fieldD r.mask &&& fieldD w) = w := by
  have hw : w &&& r.mask = r.pattern := by simpa [Row.selects] using h
  refine BitVec.eq_of_getLsbD_eq fun k hk => ?_
  have hbit : (w.getLsbD k && r.mask.getLsbD k) = r.pattern.getLsbD k := by
    rw [← hw, BitVec.getLsbD_and]
  obtain ⟨hp, hm⟩ := rows_fix_opcode r hr k hk
  simp only [getLsbD_assembleWord, fieldOp, fieldD, BitVec.getLsbD_extractLsb', BitVec.getLsbD_and,
    BitVec.getLsbD_not]
  grind

/-- A word a row selects is the word of a command: row by row, with the operands in the fields the
mask leaves free. -/
theorem exists_encode_of_selects (hr : r ∈ rows) (h : r.selects w = true) : ∃ i, encode i = w := by
  have hw := assembleWord_of_selects hr h
  simp only [rows, List.mem_cons, List.not_mem_nil, or_false] at hr
  rcases hr with rfl | rfl | rfl | rfl | rfl | rfl | rfl | rfl | rfl | rfl | rfl | rfl | rfl | rfl <;>
    simp [fieldOp, fieldD, ff_and] at hw
  · exact ⟨.put (fieldF w) (fieldD w), by simpa [encode, fieldD] using hw⟩
  · exact ⟨.get (fieldF w), by simpa [encode] using hw⟩
  · exact ⟨.empty (fieldF w) (fieldS w), by simpa [encode] using hw⟩
  · exact ⟨.full (fieldF w) (fieldS w), by simpa [encode] using hw⟩
  · exact ⟨.dsize (fieldF w) (fieldS w), by simpa [encode] using hw⟩
  · exact ⟨.outb, hw⟩
  · exact ⟨.inb, hw⟩
  · exact ⟨.eni (fieldE w), by simpa [encode] using hw⟩
  · exact ⟨.disi (fieldE w), by simpa [encode] using hw⟩
  · exact ⟨.trig, hw⟩
  · exact ⟨.stat, hw⟩
  · exact ⟨.hwwr (fieldD w), by simpa [encode, fieldD] using hw⟩
  · exact ⟨.hwrd, hw⟩
  · exact ⟨.invoke, hw⟩

/-- `decode` answers nothing exactly where no row selects: its branches are the rows. -/
theorem decode_eq_none_iff : decode w = none ↔ ∀ r ∈ rows, r.selects w = false := by
  simp [decode, rows, Row.selects, and_ffff, ite_eq_iff]

/-- A command has no other word than its own (30_encoding.md R89). -/
theorem encode_of_decode (h : decode w = some i) : encode i = w := by
  have hsome : ¬ ∀ r ∈ rows, r.selects w = false := fun hn => by
    rw [decode_eq_none_iff.mpr hn] at h
    cases h
  obtain ⟨r, hr, hsel⟩ : ∃ r ∈ rows, r.selects w = true := by simpa using hsome
  obtain ⟨j, rfl⟩ := exists_encode_of_selects hr hsel
  rw [decode_encode] at h
  rw [Option.some.inj h]

theorem exists_row_of_mnemonic (i : Instr) : ∃ r ∈ rows, r.mnemonic = i.mnemonic := by
  cases i <;> simp only [Instr.mnemonic] <;> decide

theorem rows_mnemonic_injective :
    ∀ r ∈ rows, ∀ r' ∈ rows, r'.mnemonic = r.mnemonic → r' = r := by decide

/-- Settles O3: a decoded word is its command's word (`encode_of_decode`), which the row of that
mnemonic selects and no other. -/
theorem everyWordIsOneRowOrNoCommand : Obligations.EveryWordIsOneRowOrNoCommand := fun w => by
  cases hd : decode w with
  | none => exact .inr ⟨decode_eq_none_iff.mp hd, rfl⟩
  | some i =>
    obtain rfl := encode_of_decode hd
    obtain ⟨hrow, -⟩ := encodedInItsRow i
    obtain ⟨r, hr, hmn⟩ := exists_row_of_mnemonic i
    exact .inl ⟨r, hr, (hrow r hr).mpr hmn,
      fun r' hr' hsel => rows_mnemonic_injective r hr r' hr' (((hrow r' hr').mp hsel).trans hmn.symm),
      i, rfl, hmn.symm, rfl⟩

/-! ## The text form -/

theorem hexValue_hexDigit : ∀ n < 16, hexValue (hexDigit n) = some n := by decide

theorem hexDigit_ne_separator : ∀ n < 16, hexDigit n ≠ ' ' ∧ hexDigit n ≠ ',' := by decide

theorem readNumber_showByte (d : Byte) : readNumber (showByte d) = some d.toNat := by
  have hd := d.isLt
  simp [showByte, readNumber, readDigits, hexValue_hexDigit (d.toNat / 16) (by omega),
    hexValue_hexDigit (d.toNat % 16) (by omega)]
  omega

theorem readFifo_showFifo (f : FifoId) : readFifo (showFifo f) = some f := by cases f <;> rfl

theorem showByte_digits_ne_separator (d : Byte) :
    (hexDigit (d.toNat / 16) ≠ ' ' ∧ hexDigit (d.toNat / 16) ≠ ',') ∧
      hexDigit (d.toNat % 16) ≠ ' ' ∧ hexDigit (d.toNat % 16) ≠ ',' := by
  have hd := d.isLt
  exact ⟨hexDigit_ne_separator _ (by omega), hexDigit_ne_separator _ (by omega)⟩

/-- Neither digit of a byte is a blank or a comma, so the text is cut where `showInstr` put them. -/
theorem readLine_put (f : FifoId) (d : Byte) :
    readLine (showInstr (.put f d)) = (['P', 'U', 'T'], [showFifo f, showByte d]) := by
  have hd := showByte_digits_ne_separator d
  cases f <;> simp [readLine, showInstr, showFifo, showByte, trim, trimLeft, splitAt, hd]

theorem readLine_hwwr (d : Byte) :
    readLine (showInstr (.hwwr d)) = (['H', 'W', 'W', 'R'], [showByte d]) := by
  have hd := showByte_digits_ne_separator d
  simp [readLine, showInstr, showByte, trim, trimLeft, splitAt, hd]

/-- No canonical text begins as a shown issuer does. -/
theorem readIssuer_showInstr (i : Instr) : readIssuer (showInstr i) = (none, showInstr i) := by
  cases i <;> rfl

/-- The assembler's term for a command (30_encoding.md R91). -/
def lineOf : Instr → Asm
  | .put f d => .put f d.toNat
  | .hwwr d => .hwwr d.toNat
  | i => .plain i

theorem dataOperandOk_toNat (d : Byte) : dataOperandOk d.toNat = true :=
  decide_eq_true (Nat.le_of_lt_succ d.isLt)

theorem readCommand_put {x y : List Char} {n : Nat} (hx : readFifo x = some f)
    (hy : readNumber y = some n) : readCommand ['P', 'U', 'T'] [x, y] = some (.put f n) := by
  change (match readFifo x, readNumber y with
    | some f, some d => some (Asm.put f d)
    | _, _ => none) = some (.put f n)
  rw [hx, hy]

theorem readCommand_hwwr {y : List Char} {n : Nat} (hy : readNumber y = some n) :
    readCommand ['H', 'W', 'W', 'R'] [y] = some (.hwwr n) := congrArg (Option.map Asm.hwwr) hy

/-- A line that shows no issuer is read as its mnemonic and operands are. -/
theorem parseAsm_of_readCommand {text name : List Char} {operands : List (List Char)} {a : Asm}
    (hi : readIssuer text = (none, text)) (hl : readLine text = (name, operands))
    (hc : readCommand name operands = some a) (hw : a.wellFormed = true) :
    parseAsm text = some (none, a) := by
  simp [parseAsm, hi, hl, hc, hw]

theorem parseAsm_showInstr (i : Instr) : parseAsm (showInstr i) = some (none, lineOf i) := by
  cases i with
  | put f d =>
    exact parseAsm_of_readCommand (readIssuer_showInstr _) (readLine_put f d)
      (readCommand_put (readFifo_showFifo f) (readNumber_showByte d)) (dataOperandOk_toNat d)
  | hwwr d =>
    exact parseAsm_of_readCommand (readIssuer_showInstr _) (readLine_hwwr d)
      (readCommand_hwwr (readNumber_showByte d)) (dataOperandOk_toNat d)
  | get f => cases f <;> decide
  | empty f v | full f v | dsize f v => cases f <;> cases v <;> decide
  | eni e | disi e => cases e <;> decide
  | outb | inb | trig | stat | hwrd | invoke => decide

theorem assemble_lineOf (i : Instr) : assemble (lineOf i) = some [encode i] := by
  cases i with
  | put f d | hwwr d => simp [assemble, lineOf, Asm.wellFormed, dataOperandOk_toNat]
  | _ => rfl

theorem disassemble_encode (i : Instr) : disassemble (encode i) = showInstr i := by
  simp [disassemble, decode_encode]

theorem encode_put_tx (b : Byte) : encode (.put .tx b) = 0x10#8 ++ b := rfl

theorem assemble_enqueue (bs : List Byte) : assemble (.enqueue .tx (bs.map BitVec.toNat)) =
    some (bs.map (fun b => 0x10#8 ++ b) ++ [encode (.eni .tx)]) := by
  have hok : (bs.map BitVec.toNat).all dataOperandOk = true := by simp [dataOperandOk_toNat]
  simp [assemble, Asm.wellFormed, hok, encode_put_tx, Function.comp_def]

/-- Settles O4: the text reads back as the command's line, and the line assembles to its word. -/
theorem assemblerReadsWhatTheDisassemblerWrites :
    Obligations.AssemblerReadsWhatTheDisassemblerWrites :=
  ⟨fun i => ⟨disassemble_encode i, by rw [parseAsm_showInstr]; exact assemble_lineOf i⟩,
    assemble_enqueue⟩

/-! ## The issuer table -/

/-- The rows of 30_encoding.md R86, read by issuer. -/
theorem mayIssue_iff (i : Instr) :
    (mayIssue .fg i = true ↔
      (∃ d, i = .put .tx d) ∨ i = .get .rx ∨ i = .empty .tx .w ∨ i = .empty .rx .r ∨
        i = .full .tx .w ∨ i = .full .rx .r ∨ i = .dsize .tx .w ∨ i = .dsize .rx .r ∨
        i = .eni .tx ∨ i = .trig ∨ i = .stat) ∧
    (mayIssue .disp i = true ↔
      i ≠ .get .rx ∧ i ≠ .empty .rx .r ∧ i ≠ .full .rx .r ∧ i ≠ .dsize .rx .r ∧ i ≠ .invoke) ∧
    (mayIssue .irq i = true ↔ i = .invoke) := by
  cases i with
  | put f d | get f => cases f <;> simp [mayIssue]
  | empty f v | full f v | dsize f v => cases f <;> cases v <;> simp [mayIssue, mayIssue.mayView]
  | eni e | disi e => cases e <;> simp [mayIssue]
  | outb | inb | trig | stat | hwwr d | hwrd | invoke => simp [mayIssue]

/-- Settles O5: `mayIssue_iff`, and `exec_illegal` for a command the table does not allow. -/
theorem issuerTable : Obligations.IssuerTable :=
  ⟨fun i => (mayIssue_iff i).1, fun i => (mayIssue_iff i).2.1, fun i => (mayIssue_iff i).2.2,
    fun _ _ hp hi => exec_illegal hp hi⟩

/-- Every command has an issuer: what `DISP` may not issue, `FG` or `IRQ` may. -/
theorem exists_issuer (i : Instr) :
    mayIssue .fg i = true ∨ mayIssue .disp i = true ∨ mayIssue .irq i = true := by
  obtain ⟨hfg, hdisp, hirq⟩ := mayIssue_iff i
  by_cases hd : mayIssue .disp i = true
  · exact .inr (.inl hd)
  · simp only [hdisp, not_and_or, not_not] at hd
    rcases hd with rfl | rfl | rfl | rfl | rfl <;> decide

/-! ## The step that handles a word -/

theorem step_of_agenda (h : s.agenda = m :: rest) :
    step s = whenAdmitted s (move m { s with agenda := rest }) := by
  simp [step, nextMove, h]

/-- A command makes the test of the configuration itself, so the step's own test adds nothing. -/
theorem whenAdmitted_exec (h : t.params = s.params) : whenAdmitted s (exec i t) = exec i t := by
  cases hp : s.params.admitted with
  | true => exact whenAdmitted_admitted hp _
  | false => rw [exec_refused (h ▸ hp), whenAdmitted, hp]; rfl

theorem handleWord_of_decode (h : decode w = some i) :
    handleWord who w s = exec i { s with issuer := who } := by
  simp [handleWord, h]

theorem fgStep_word (h : s.fg.program = .word w :: later) :
    fgStep s = handleWord .fg w (s.withProgram later) := by
  simp [fgStep, h]

theorem irqStep_requested (h : irq s = true) : irqStep s = handleWord .irq (encode .invoke) s :=
  if_pos h

theorem step_of_port (ha : s.agenda = .port who w :: rest) (hw : decode w = some i) :
    step s = exec i { s with agenda := rest, issuer := who } := by
  rw [step_of_agenda ha, move, handleWord_of_decode hw]
  exact whenAdmitted_exec rfl

theorem step_of_fg (ha : s.agenda = .agent .fg :: rest) (hp : s.fg.program = .word w :: later)
    (hw : decode w = some i) :
    step s =
      exec i { s with agenda := rest, issuer := .fg, fg := { s.fg with program := later } } := by
  rw [step_of_agenda ha, move, agentStep, fgStep_word (s := { s with agenda := rest }) hp,
    handleWord_of_decode hw]
  exact whenAdmitted_exec rfl

theorem step_of_irq (ha : s.agenda = .agent .irq :: rest) (hq : irq s = true) :
    step s = exec .invoke { s with agenda := rest, issuer := .irq } := by
  rw [step_of_agenda ha, move, agentStep, irqStep_requested (s := { s with agenda := rest }) hq,
    handleWord_of_decode (decode_encode .invoke)]
  exact whenAdmitted_exec rfl

/-- Settles O7: one lemma for each of the three ways a word reaches a port. -/
theorem stepHandlesTheDecodedCommand : Obligations.StepHandlesTheDecodedCommand :=
  ⟨fun _ _ _ _ _ => step_of_port, fun _ _ _ _ _ => step_of_fg, fun _ _ => step_of_irq⟩

theorem mayIssue_portFor (h : decode w = some i) : mayIssue (portFor w) i = true := by
  simp only [portFor, h]
  split
  case isTrue hfg => exact hfg
  case isFalse hfg =>
    split
    case isTrue hdisp => exact hdisp
    case isFalse hdisp => exact ((exists_issuer i).resolve_left hfg).resolve_left hdisp

theorem ofNat_toNat_mod (w : Word) : BitVec.ofNat 16 (w.toNat % 2 ^ 16) = w := by
  rw [Nat.mod_eq_of_lt w.isLt, BitVec.ofNat_toNat, BitVec.setWidth_eq]

/-- Settles O8: the placed move is a word at a port, which `step_of_port` handles. -/
theorem placedWordIsHandledNext : Obligations.PlacedWordIsHandledNext := fun s w i h =>
  ⟨by rw [decodeTableWord, ofNat_toNat_mod, h], mayIssue_portFor h,
    step_of_port (s := s.withFetchWord 16 w.toNat) (by rw [State.withFetchWord, ofNat_toNat_mod]) h⟩

end Sys2Proof.Machine
end

section
/-!
Family 40_fifo_core.md: `PUT`, `GET`, `EMPTY`, `FULL` and `DSIZE` (R96 to R100) with the views of
20_memory.md R56 and R57.
-/

namespace Sys2Proof.Machine

variable {s t : State} {f : FifoId} {q : Fifo} {r : Reply} {n : Nat}

/-! ## The command words -/

theorem encode_put (f : FifoId) (d : Byte) :
    encode (.put f d) = 0b0001000#7 ++ BitVec.ofBool (f == .rx) ++ d := by cases f <;> rfl

theorem encode_get (f : FifoId) :
    encode (.get f) = 0b0010000#7 ++ BitVec.ofBool (f == .rx) ++ 0x00#8 := by cases f <;> rfl

/-- The three commands with a view field differ in their opcode only (30_encoding.md R79). -/
theorem encode_statusCommands (f : FifoId) (v : Side) :
    encode (.empty f v) =
      0b00110#5 ++ BitVec.ofBool (v == .r) ++ 0#1 ++ BitVec.ofBool (f == .rx) ++ 0x00#8 ∧
    encode (.full f v) =
      0b01000#5 ++ BitVec.ofBool (v == .r) ++ 0#1 ++ BitVec.ofBool (f == .rx) ++ 0x00#8 ∧
    encode (.dsize f v) =
      0b01010#5 ++ BitVec.ofBool (v == .r) ++ 0#1 ++ BitVec.ofBool (f == .rx) ++ 0x00#8 := by
  cases f <;> cases v <;> exact ⟨rfl, rfl, rfl⟩

/-! ## What a port command leaves unchanged -/

/-- The read-side views read only the capacity, `rq2` and `rbin` (20_memory.md R57). -/
theorem readViews_congr (hc : t.cap f = s.cap f) (hq : (t.fifo f).rq2 = (s.fifo f).rq2)
    (hr : (t.fifo f).rbin = (s.fifo f).rbin) :
    emptyR t f = emptyR s f ∧ fullR t f = fullR s f ∧ dsizeR t f = dsizeR s f := by
  simp only [emptyR, fullR, dsizeR, wsyncR, hc, hq, hr, and_self]

/-- The write-side views read only the capacity, `wq2` and `wbin` (20_memory.md R56). -/
theorem writeViews_congr (hc : t.cap f = s.cap f) (hq : (t.fifo f).wq2 = (s.fifo f).wq2)
    (hw : (t.fifo f).wbin = (s.fifo f).wbin) :
    emptyW t f = emptyW s f ∧ fullW t f = fullW s f ∧ dsizeW t f = dsizeW s f := by
  simp only [emptyW, fullW, dsizeW, rsyncW, hc, hq, hw, and_self]

theorem State.fifo_respond_setFifo : ((s.setFifo f q).respond r).fifo f = q := by
  rw [State.respond_fifo, State.fifo_setFifo_same]

/-- An answered port command changes its FIFO and the response, and nothing else. -/
theorem State.respond_setFifo_frame (ht : t = (s.setFifo f q).respond r) :
    t = { s.setFifo f (t.fifo f) with response := t.response } := by
  subst ht
  rw [State.fifo_respond_setFifo]
  rfl

/-! ## `PUT` and `GET` -/

/-- Settles O13: the two cases of the write port; the bytes it stores are `stored_pushed`. -/
theorem putStoresOneByteOrAnswersFull : Obligations.PutStoresOneByteOrAnswersFull := by
  refine ⟨encode_put, fun f d s hp hi => ⟨fun hf => exec_ok hp hi rfl (putPort_full hf),
    fun hf hw => ⟨_, exec_ok hp hi rfl (putPort_store hf hw), rfl, ?_,
      State.respond_setFifo_frame rfl, ?_⟩⟩⟩
  · rw [State.fifo_respond_setFifo]
    exact stored_pushed ..
  · exact readViews_congr (by simp) (by simp) (by simp)

/-- Settles O14: the two cases of the read port; the cursor it moves is `taken_popped`. -/
theorem getTakesOneByteOrAnswersEmpty : Obligations.GetTakesOneByteOrAnswersEmpty := by
  refine ⟨encode_get, fun f s hp hi => ⟨fun he => exec_ok hp hi rfl (getPort_empty he),
    fun v he hv => ⟨_, exec_ok hp hi rfl (getPort_take he hv), congrArg some (Reply.word_ok v), ?_,
      State.respond_setFifo_frame rfl, ?_⟩⟩⟩
  · rw [State.fifo_respond_setFifo]
    exact taken_popped ..
  · exact writeViews_congr (by simp) (by simp) (by simp)

/-! ## The views -/

/-- The write cursor as the view `v` has it: its own on the write side, the synchronised one on the
read side (20_memory.md R56, R57). -/
def viewWriteCursor (s : State) (f : FifoId) : Side → Cursor
  | .w => (s.fifo f).wbin
  | .r => wsyncR s f

/-- The read cursor as the view `v` has it (20_memory.md R56, R57). -/
def viewReadCursor (s : State) (f : FifoId) : Side → Cursor
  | .w => rsyncW s f
  | .r => (s.fifo f).rbin

theorem emptyView_eq (s : State) (f : FifoId) (v : Side) :
    emptyView s f v = (viewWriteCursor s f v == viewReadCursor s f v) := by cases v <;> rfl

theorem fullView_eq (s : State) (f : FifoId) (v : Side) :
    fullView s f v = (inc (s.cap f) (viewWriteCursor s f v) == viewReadCursor s f v) := by
  cases v <;> rfl

theorem dsizeView_eq (s : State) (f : FifoId) (v : Side) :
    dsizeView s f v = diff (s.cap f) (viewWriteCursor s f v) (viewReadCursor s f v) := by
  cases v <;> rfl

theorem zextFlag_beq (a b : Cursor) : zextFlag (a == b) = if a = b then 0x01#8 else 0x00#8 := by
  by_cases h : a = b
  · rw [if_pos h, beq_iff_eq.mpr h]; rfl
  · rw [if_neg h, beq_eq_false_iff_ne.mpr h]; rfl

theorem diff_lt (hn : 0 < n) (a b : Cursor) : diff n a b < n := Nat.mod_lt _ hn

/-- `diff` is the integer difference mod N (00_scope.md R10), for cursors of any value: the two
differ by the multiple `1 + b / n` of N. -/
theorem diff_eq_emod (hn : 0 < n) (a b : Cursor) :
    (diff n a b : Int) = ((a.toNat : Int) - (b.toNat : Int)) % (n : Int) := by
  have hb : b.toNat % n ≤ n := (Nat.mod_lt _ hn).le
  have hdiv := Int.mul_ediv_add_emod (b.toNat : Int) n
  calc (diff n a b : Int)
      = ((a.toNat : Int) + ((n : Int) - (b.toNat : Int) % n)) % n := by
        rw [diff, Int.natCast_emod, Int.natCast_add, Int.natCast_sub hb, Int.natCast_emod]
    _ = ((a.toNat : Int) - b.toNat + n * (1 + (b.toNat : Int) / n)) % n := by
        congr 1; linarith
    _ = ((a.toNat : Int) - b.toNat) % n := Int.add_mul_emod_self_left ..

/-- Settles O15: each command reads its view, and a view compares the two cursors of its side. -/
theorem statusCommandsReadTheirView : Obligations.StatusCommandsReadTheirView := by
  refine ⟨encode_statusCommands, fun f s hp v own other hside => ?_⟩
  obtain ⟨rfl, rfl⟩ : own = viewWriteCursor s f v ∧ other = viewReadCursor s f v := by
    cases v <;> exact hside
  have hn : 0 < s.cap f := Nat.lt_of_lt_of_le Nat.two_pos (State.cap_bounds hp f).1
  refine ⟨fun hi => ?_, fun hi => ?_, fun hi => ?_⟩
  · rw [exec_read (g := fun t => zextFlag (emptyView t f v)) hp hi rfl, emptyView_eq,
      zextFlag_beq]
  · rw [exec_read (g := fun t => zextFlag (fullView t f v)) hp hi rfl, fullView_eq,
      zextFlag_beq, inc]
  · refine ⟨dsizeView s f v, ?_, ?_,
      exec_read (g := fun t => BitVec.ofNat 8 (dsizeView t f v)) hp hi rfl⟩
    · rw [dsizeView_eq]; exact diff_lt hn ..
    · rw [dsizeView_eq]; exact diff_eq_emod hn ..

end Sys2Proof.Machine
end

section
/-!
Family 41_transport.md: `OUTB`, `INB`, `HWWR` and `HWRD` (R103 to R106), and the host's `ENQUEUE`
(R107), one step at a time and as a whole.
-/

namespace Sys2Proof.Machine

variable {s t u : State} {f : FifoId} {b : Byte} {rest bs : List Byte} {later : List FgItem}
variable {stored : Nat}

/-! ## One step of an `ENQUEUE` -/

/-- A `PUT` of an `ENQUEUE` is the write port, used as `FG`; what remains of the program follows from
whether it was answered `BufferFull` (41_transport.md R107). -/
theorem fgStep_enqueue_put {r : Reply} (hp : s.params.admitted = true)
    (hprog : s.fg.program = .enqueue stored (b :: rest) :: later)
    (hput : putPort .tx b { s with issuer := .fg } = .ok (t, r)) :
    fgStep s = .next ((t.respond r).withProgram
      (if r.word = bufferFullWord then .enqueue stored [] :: later
        else .enqueue (stored + 1) rest :: later)) := by
  have hword : handleWord .fg (encode (.put .tx b)) s = .next (t.respond r) := by
    rw [handleWord_of_decode (decode_encode _)]
    exact exec_ok hp rfl rfl hput
  simp only [fgStep, hprog, enqueuePut, hword, State.respond_response, Option.some.injEq]

/-- With no room in the write-side view the rest is dropped (41_transport.md R107). -/
theorem fgStep_enqueue_full (hp : s.params.admitted = true)
    (hprog : s.fg.program = .enqueue stored (b :: rest) :: later) (hf : fullW s .tx = true) :
    fgStep s = .next (({ s with issuer := .fg }.respond Status.bufferFull.reply).withProgram
      (.enqueue stored [] :: later)) :=
  fgStep_enqueue_put hp hprog (putPort_full (s := { s with issuer := .fg }) hf)

/-- With room the byte is stored and counted (41_transport.md R107). -/
theorem fgStep_enqueue_store (hp : s.params.admitted = true)
    (hprog : s.fg.program = .enqueue stored (b :: rest) :: later) (hf : fullW s .tx = false)
    (hw : s.tx.wbin.toNat < s.cap .tx) :
    fgStep s = .next
      ((({ s with issuer := .fg }.setFifo .tx (s.tx.pushed (s.cap .tx) b)).respond
        Status.ok.reply).withProgram (.enqueue (stored + 1) rest :: later)) :=
  fgStep_enqueue_put hp hprog (putPort_store (s := { s with issuer := .fg }) hf hw)

/-- With no byte left the step is `ENI TX`, and the host learns `stored` (41_transport.md R107). -/
theorem fgStep_enqueue_end (hp : s.params.admitted = true)
    (hprog : s.fg.program = .enqueue stored [] :: later) :
    fgStep s = .next (({ s with issuer := .fg, fg := { program := later, stored := stored } }.setEnable
      .tx true).respond Status.ok.reply) := by
  simp only [fgStep, hprog, enqueueEnd]
  rw [handleWord_of_decode (decode_encode _)]
  exact exec_ok hp rfl (exec_command _ _) rfl

/-! ## A whole `ENQUEUE` -/

/-- How many bytes the write-side view has room for: one slot is always reserved (00_scope.md R8,
20_memory.md R56). -/
def State.room (s : State) (f : FifoId) : Nat := s.cap f - 1 - dsizeW s f

theorem State.Inv.room_eq (h : s.Inv) (f : FifoId) :
    s.room f = s.cap f - 1 - ((s.fifo f).ghost.w - (s.fifo f).ghost.rq2) := by
  rw [State.room, h.dsizeW_eq f]

theorem State.Inv.room_of_full (h : s.Inv) (hf : fullW s f = true) : s.room f = 0 := by
  have hw := (h.fullW_iff f).mp hf
  rw [h.room_eq f]
  omega

/-- A stored byte takes one place. -/
theorem State.Inv.room_pushed (h : s.Inv) (hf : fullW s f = false) (d : Byte) :
    s.room f = (s.setFifo f ((s.fifo f).pushed (s.cap f) d)).room f + 1 := by
  have hlt := h.w_lt_of_room hf
  obtain ⟨c1, c2, c3, c4, c5, -⟩ := h.chain f
  rw [h.room_eq f, (h.pushed hf d).room_eq f, State.fifo_setFifo_same, State.setFifo_cap]
  simp only [Fifo.pushed]
  omega

/-- At most `n` steps of `FG` alone lead from `s` to `t`. -/
def FgReaches (n : Nat) (s t : State) : Prop :=
  ∃ k ≤ n, moves (List.replicate k (.agent .fg)) s = .next t

theorem FgReaches.refl (n : Nat) (s : State) : FgReaches n s s := ⟨0, n.zero_le, rfl⟩

theorem FgReaches.cons {n : Nat} (hstep : fgStep s = .next u) (h : FgReaches n u t) :
    FgReaches (n + 1) s t := by
  obtain ⟨k, hk, hm⟩ := h
  refine ⟨k + 1, Nat.succ_le_succ hk, ?_⟩
  simpa only [List.replicate_succ, moves, move, agentStep, hstep] using hm

/-- From `s` to `t`, the rest `bs` of an `ENQUEUE` with `stored` bytes already stored is completed
with no other agent moving (41_transport.md R107). -/
structure Enqueued (stored : Nat) (bs : List Byte) (later : List FgItem) (s t : State) : Prop where
  puts : t.tx.ghost.puts = s.tx.ghost.puts ++ bs.take (s.room .tx)
  host : t.fg = { program := later, stored := stored + min bs.length (s.room .tx) }
  unmasked : t.ier.txEn = true
  rx : t.rx = s.rx
  dev : t.dev = s.dev
  diag : t.diag = s.diag

/-- By induction over the bytes still to put, for any number already stored: a stored byte takes one
place of the room, and the first `BufferFull` leaves only the `ENI TX`. -/
theorem enqueue_completes (h : s.Inv) (hprog : s.fg.program = .enqueue stored bs :: later) :
    ∃ t, FgReaches (bs.length + 1) s t ∧ Enqueued stored bs later s t := by
  induction bs generalizing s stored with
  | nil =>
    exact ⟨_, (FgReaches.refl 0 _).cons (fgStep_enqueue_end h.1 hprog),
      ⟨by simp, by simp, rfl, rfl, rfl, rfl⟩⟩
  | cons b rest ih =>
    cases hf : fullW s .tx with
    | true =>
      have hroom := h.room_of_full hf
      exact ⟨_, .cons (fgStep_enqueue_full h.1 hprog hf)
          (.cons (fgStep_enqueue_end h.1 rfl) (.refl rest.length _)),
        ⟨by simp [hroom, State.withProgram], by simp [hroom], rfl, rfl, rfl, rfl⟩⟩
    | false =>
      have hroom := h.room_pushed hf b
      obtain ⟨t, hreach, hdone⟩ := ih (stored := stored + 1)
        (s := (({ s with issuer := .fg }.setFifo .tx (s.tx.pushed (s.cap .tx) b)).respond
          Status.ok.reply).withProgram (.enqueue (stored + 1) rest :: later)) (h.pushed hf b) rfl
      refine ⟨t, hreach.cons (fgStep_enqueue_store h.1 hprog hf (h.wbin_lt .tx)),
        ⟨?_, ?_, hdone.unmasked, hdone.rx, hdone.dev, hdone.diag⟩⟩
      · rw [hdone.puts, hroom, List.take_succ_cons, List.append_cons]
        rfl
      · rw [hdone.host, hroom, List.length_cons, Nat.add_min_add_right, Nat.add_right_comm,
          Nat.add_assoc]
        rfl

/-- Settles O58: `enqueue_completes` for an `ENQUEUE` that has stored nothing yet. -/
theorem enqueueAloneStoresWhatFits : Obligations.EnqueueAloneStoresWhatFits := by
  intro s bs later h hprog
  obtain ⟨t, ⟨k, hk, hm⟩, hdone⟩ := enqueue_completes h hprog
  refine ⟨k, t, hk, hm, hdone.puts, ?_, hdone.unmasked, hdone.rx, hdone.dev, hdone.diag⟩
  rw [hdone.host, Nat.zero_add, State.room]

/-- Settles O57: the three cases of an `ENQUEUE`'s step; the byte is stored by `stored_pushed`. -/
theorem enqueueStopsAtTheFirstFull : Obligations.EnqueueStopsAtTheFirstFull :=
  fun _ _ _ hp =>
    ⟨fun _ _ hprog => ⟨fgStep_enqueue_full hp hprog, fun hf hw =>
      ⟨_, fgStep_enqueue_store hp hprog hf hw, stored_pushed .., rfl⟩⟩, fgStep_enqueue_end hp⟩

/-! ## Transport and the device port -/

/-- Settles O19: the device test, the view test, and the pop of `taken_popped` with the hand-over. -/
theorem outbMovesOneByteToTheDevice : Obligations.OutbMovesOneByteToTheDevice := by
  refine ⟨rfl, fun s hp hi => ⟨fun hr => exec_ok hp hi rfl (outputByte_busy hr),
    fun hr he => exec_ok hp hi rfl (outputByte_empty hr he), fun v hr he hv =>
      ⟨_, exec_ok hp hi rfl (outputByte_send hr he hv), ?_, taken_popped .., rfl, rfl⟩⟩⟩
  exact congrArg some (Reply.word_ok v)

/-- With room in RX, `INB` answers the byte with `OK` and leaves what the echo push leaves
(41_transport.md R104). -/
theorem exec_inb_store (hp : s.params.admitted = true) (hi : mayIssue s.issuer .inb = true)
    (hr : s.dev.rxReady = true) (hb : s.dev.rdr = some b) (hf : fullW s .rx = false)
    (hw : s.rx.wbin.toNat < s.cap .rx)
    (he : echoByte b (s.takeByte.setFifo .rx (s.rx.pushed (s.cap .rx) b)) = .ok u) :
    exec .inb s = .next { u with response := some (b ++ 0x00#8) } := by
  rw [exec_ok hp hi rfl ((inputByte_store hr hb hf hw).trans (by rw [he])), State.respond,
    Reply.word_ok]

/-- Settles O20: the device test, the receive push, and the three outcomes of the echo push. -/
theorem inbMovesOneByteFromTheDevice : Obligations.InbMovesOneByteFromTheDevice := by
  refine ⟨rfl, fun s hp hi => ⟨fun hr => exec_ok hp hi rfl (inputByte_none hr),
    fun b hr hb => ⟨fun hf => ?_, fun hf hw => ⟨fun he => ?_, fun he htf => ?_,
      fun he htf htw => ?_⟩⟩⟩⟩
  · rw [exec_ok hp hi rfl (inputByte_drop hr hb hf), State.respond, Reply.word_receiveBufferFull]
    rfl
  · exact ⟨_, exec_inb_store hp hi hr hb hf hw (echoByte_off he), rfl, stored_pushed .., rfl⟩
  · exact ⟨_, exec_inb_store hp hi hr hb hf hw (echoByte_full he htf), rfl, stored_pushed .., rfl⟩
  · exact ⟨_, exec_inb_store hp hi hr hb hf hw (echoByte_store he htf htw), rfl, stored_pushed ..,
      stored_pushed .., rfl⟩

/-- Settles O21: the two cases of the hardware write. -/
theorem hwwrHandsTheByteToTheDevice : Obligations.HwwrHandsTheByteToTheDevice :=
  ⟨fun _ => rfl, fun _ _ hp hi => ⟨fun hr => exec_ok hp hi rfl (deviceWrite_busy hr),
    fun hr => exec_ok hp hi rfl (deviceWrite_ready hr)⟩⟩

/-- Settles O22: the two cases of the hardware read; `State.takeByte` keeps `dev.rdr`. -/
theorem hwrdTakesTheReceivedByte : Obligations.HwrdTakesTheReceivedByte := by
  refine ⟨rfl, fun s hp hi => ⟨fun hr => exec_ok hp hi rfl (deviceRead_none hr),
    fun v hr hv => ?_⟩⟩
  rw [exec_ok hp hi rfl (deviceRead_ready hr hv), State.respond, Reply.word_ok]
  rfl

end Sys2Proof.Machine
end

section
/-!
Family 42_interrupt_mask.md, the commands: `ENI`, `DISI`, `TRIG` and `STAT` (R108 to R111), the
dispatcher invocation (R112, R113), and that no command moves more than one byte (R119).
-/

namespace Sys2Proof.Machine

variable {s t u v : State} {f : FifoId} {b d : Byte} {r : Reply} {i : Instr} {n : Nat}
variable {ev pm pu : Bool}

/-! ## `ENI`, `DISI`, `TRIG` and `STAT` -/

theorem exec_eni {e : Event} (hp : s.params.admitted = true)
    (hi : mayIssue s.issuer (.eni e) = true) :
    exec (.eni e) s = .next ((s.setEnable e true).respond Status.ok.reply) :=
  exec_ok hp hi (exec_command _ _) rfl

theorem exec_disi {e : Event} (hp : s.params.admitted = true)
    (hi : mayIssue s.issuer (.disi e) = true) :
    exec (.disi e) s = .next ((s.setEnable e false).respond Status.ok.reply) :=
  exec_ok hp hi (exec_command _ _) rfl

/-- Settles O23: the rule of `ENI` is the one write. -/
theorem eniUnmasksOneEvent : Obligations.EniUnmasksOneEvent :=
  ⟨⟨rfl, rfl⟩, fun _ hp => ⟨exec_eni hp, exec_eni hp⟩⟩

/-- Settles O24: the rule of `DISI` is the one write. -/
theorem disiMasksOneEvent : Obligations.DisiMasksOneEvent :=
  ⟨⟨rfl, rfl⟩, fun _ hp => ⟨exec_disi hp, exec_disi hp⟩⟩

/-- The bits of a packed byte, from bit 0 up. -/
theorem getLsbD_packByte (b7 b6 b5 b4 b3 b2 b1 b0 : Bool) :
    [0, 1, 2, 3, 4, 5, 6, 7].map (packByte b7 b6 b5 b4 b3 b2 b1 b0).getLsbD =
      [b0, b1, b2, b3, b4, b5, b6, b7] := by
  revert b7 b6 b5 b4 b3 b2 b1 b0; decide

/-- A byte whose upper six bits are packed as 0 has only bits 0 and 1, and is nonzero exactly when
one of them is 1. -/
theorem packByte_low_bits (y x : Bool) :
    (∀ j < 8, 2 ≤ j → (packByte false false false false false false y x).getLsbD j = false) ∧
      (packByte false false false false false false y x ≠ 0 ↔ (x || y) = true) := by
  revert y x; decide

/-- Settles O25: the two triggered events are bits 0 and 1 of the byte `TRIG` reads. -/
theorem trigReadsTheTriggeredSet : Obligations.TrigReadsTheTriggeredSet := by
  refine ⟨rfl, fun s hp hi => ⟨trigByte s, exec_read hp hi rfl, ?_⟩⟩
  have hbits := getLsbD_packByte false false false false false false (triggeredRx s) (triggeredTx s)
  obtain ⟨hlow, hnonzero⟩ := packByte_low_bits (triggeredRx s) (triggeredTx s)
  simp only [List.map_cons, List.cons.injEq] at hbits
  obtain ⟨h0, h1, -⟩ := hbits
  refine ⟨h0, h1, fun j hj => ?_, hnonzero⟩
  rcases Nat.lt_or_ge j 8 with hlt | hge
  · exact hlow j hlt hj
  · exact BitVec.getLsbD_of_ge _ _ hge

/-- Settles O26: the bits of the byte `STAT` reads. -/
theorem statReadsTheStatusByte : Obligations.StatReadsTheStatusByte := by
  refine ⟨rfl, fun s hp hi => ⟨statByte s, exec_read hp hi rfl, ?_⟩⟩
  have hbits := getLsbD_packByte (irq s) s.diag.illegal s.diag.echoDrop s.diag.rxDrop s.dev.rxReady
    s.dev.txReady s.ier.rxEn s.ier.txEn
  simp only [List.map_cons, List.cons.injEq] at hbits
  obtain ⟨h0, h1, h2, h3, h4, h5, h6, h7, -⟩ := hbits
  exact ⟨h0, h1, h2, h3, h4, h5, h6, h7⟩

/-! ## The stages of an invocation -/

/-- The state after a successful `OUTB` of `b`: the byte is popped and in the device's hand
(41_transport.md R103). -/
def State.handedOver (s : State) (b : Byte) : State :=
  (s.setFifo .tx (s.tx.popped (s.cap .tx))).sendByte b

/-- All that step 2 of an invocation can come to (42_interrupt_mask.md R112): the state it leaves
and whether it wants to mask. A triggered event means a ready device, so `HardwareNotReady` is not
among them. -/
inductive TransmitStep (s : State) : State → Bool → Prop
  | skipped (h : triggeredTx s = false) : TransmitStep s s false
  | empty (h : triggeredTx s = true) (he : emptyR s .tx = true) : TransmitStep s s true
  | sent {b : Byte} (h : triggeredTx s = true) (he : emptyR s .tx = false)
      (hb : s.tx.headIs (s.cap .tx) b) {pm : Bool} (hpm : pm = emptyR (s.handedOver b) .tx) :
      TransmitStep s (s.handedOver b) pm

/-- All that step 3 of an invocation can come to in `s`, entered when `ev` holds
(42_interrupt_mask.md R112): the state it leaves and whether it wants to unmask. -/
inductive ReceiveStep (ev : Bool) (s : State) : State → Bool → Prop
  | skipped (h : ev = false) : ReceiveStep ev s s false
  | dropped {b : Byte} (h : ev = true) (hr : s.dev.rxReady = true) (hb : s.dev.rdr = some b)
      (hf : fullW s .rx = true) :
      ReceiveStep ev s { s.takeByte with diag := { s.diag with rxDrop := true } } false
  | stored {b : Byte} {t : State} (h : ev = true) (hr : s.dev.rxReady = true)
      (hb : s.dev.rdr = some b) (hf : fullW s .rx = false) (hw : s.rx.wbin.toNat < s.cap .rx)
      (he : echoByte b (s.takeByte.setFifo .rx (s.rx.pushed (s.cap .rx) b)) = .ok t) :
      ReceiveStep ev s t true

theorem txReady_of_triggeredTx (h : triggeredTx s = true) : s.dev.txReady = true :=
  (Bool.and_eq_true_iff.mp h).1

theorem txEn_of_triggeredTx (h : triggeredTx s = true) : s.ier.txEn = true :=
  (Bool.and_eq_true_iff.mp h).2

theorem rxReady_of_triggeredRx (h : triggeredRx s = true) : s.dev.rxReady = true :=
  (Bool.and_eq_true_iff.mp h).1

theorem transmitStep_of_ok (h : invokeTransmit (triggeredTx s) s = .ok (t, pm)) :
    TransmitStep s t pm := by
  obtain ⟨hev, rfl, rfl⟩ | ⟨hev, r, hout, rfl⟩ := invokeTransmit_ok h
  · exact .skipped hev
  obtain ⟨hbusy, -⟩ | ⟨-, he, rfl, rfl⟩ | ⟨-, he, hlt, b, hb, rfl, rfl⟩ := outputByte_ok hout
  · exact absurd (txReady_of_triggeredTx hev) (by simp [hbusy])
  · exact .empty hev he
  · exact .sent hev he ⟨hlt, hb⟩ rfl

theorem receiveStep_of_ok (hready : ev = true → s.dev.rxReady = true)
    (h : invokeReceive ev s = .ok (t, pu)) : ReceiveStep ev s t pu := by
  obtain ⟨hev, rfl, rfl⟩ | ⟨hev, r, hin, rfl⟩ := invokeReceive_ok h
  · exact .skipped hev
  obtain ⟨hnone, -⟩ | ⟨hr, b, hb, ⟨hf, rfl, rfl⟩ | ⟨hf, hw, rfl, hecho⟩⟩ := inputByte_ok hin
  · exact absurd (hready hev) (by simp [hnone])
  · exact .dropped hev hr hb hf
  · exact .stored hev hr hb hf hw hecho

/-- Step 2 leaves alone what steps 3 and 4 work on: RX, the received byte and `IER`. -/
theorem TransmitStep.frame (h : TransmitStep s t pm) :
    t.rx = s.rx ∧ t.params = s.params ∧ t.ier = s.ier ∧ t.issuer = s.issuer ∧
      t.dev.rxReady = s.dev.rxReady ∧ t.dev.rdr = s.dev.rdr := by
  cases h <;> exact ⟨rfl, rfl, rfl, rfl, rfl, rfl⟩

/-- An invocation, stage by stage. -/
theorem invocation_stages (h : invocation s = .ok (v, r)) :
    ∃ t pm u pu, TransmitStep s t pm ∧ ReceiveStep (triggeredRx s) t u pu ∧
      v = invokeApply pm pu u ∧
      r = { status := .ok, data := invokeRecord (triggeredTx s) (triggeredRx s) pm pu } := by
  obtain ⟨t, pm, u, pu, ht, hu, hv, hr⟩ := invocation_ok h
  have htx := transmitStep_of_ok ht
  obtain ⟨-, -, -, -, hready, -⟩ := htx.frame
  exact ⟨t, pm, u, pu, htx,
    receiveStep_of_ok (fun hev => hready.trans (rxReady_of_triggeredRx hev)) hu, hv, hr⟩

/-- Step 4 writes `tx_en` and nothing else; unmask comes first (42_interrupt_mask.md R112). -/
theorem invokeApply_eq (pm pu : Bool) (s : State) : invokeApply pm pu s =
    { s with ier := { s.ier with
        txEn := if pu then true else if pm then false else s.ier.txEn } } := by
  cases pu <;> cases pm <;> rfl

/-- What the echo push leaves alone, and what it can do to TX (41_transport.md R104). -/
theorem echoByte_frame (h : echoByte b s = .ok t) :
    t.rx = s.rx ∧ t.ier = s.ier ∧ t.dev = s.dev ∧ t.issuer = s.issuer ∧
      (t.tx = s.tx ∨ t.tx = s.tx.pushed (s.cap .tx) b) := by
  obtain ⟨-, rfl⟩ | ⟨-, -, rfl⟩ | ⟨-, -, -, rfl⟩ := echoByte_ok h
  · exact ⟨rfl, rfl, rfl, rfl, .inl rfl⟩
  · exact ⟨rfl, rfl, rfl, rfl, .inl rfl⟩
  · exact ⟨rfl, rfl, rfl, rfl, .inr rfl⟩

theorem ReceiveStep.ier_issuer (h : ReceiveStep ev s t pu) :
    t.ier = s.ier ∧ t.issuer = s.issuer := by
  cases h with
  | skipped _ => exact ⟨rfl, rfl⟩
  | dropped _ _ _ _ => exact ⟨rfl, rfl⟩
  | stored _ _ _ _ _ he =>
    obtain ⟨-, hier, -, hissuer, -⟩ := echoByte_frame he
    exact ⟨hier, hissuer⟩

/-! ## `INVOKE` in terms of `OUTB` and `INB` -/

/-- The state as another port, or after another response, would show it. -/
def State.seenAt (s : State) (who : Issuer) (x : Option Word) : State :=
  { s with issuer := who, response := x }

/-- The echo push reads neither the issuer nor an earlier response. -/
theorem echoByte_seenAt (who : Issuer) (x : Option Word) (h : echoByte b s = .ok t) :
    echoByte b (s.seenAt who x) = .ok (t.seenAt who x) := by
  obtain ⟨he, rfl⟩ | ⟨he, hf, rfl⟩ | ⟨he, hf, hw, rfl⟩ := echoByte_ok h
  · exact echoByte_off he
  · exact echoByte_full he hf
  · exact echoByte_store he hf hw

/-- Responses with different status bytes differ, whatever their data. -/
theorem append_status_ne {m : Nat} (b d : BitVec m) {st st' : BitVec n} (h : st ≠ st') :
    b ++ st ≠ d ++ st' :=
  fun he => h (BitVec.eq_of_getLsbD_eq fun k hk => by
    simpa [BitVec.getLsbD_append, hk] using congrArg (BitVec.getLsbD · k) he)

/-- Step 2 is the command `OUTB` issued by `DISP`, and wants to mask exactly when that answered
`BufferEmpty` or left the view empty (42_interrupt_mask.md R112). -/
theorem TransmitStep.outb (hp : s.params.admitted = true) (h : TransmitStep s t pm) :
    ∃ who x, (triggeredTx s = true →
        exec .outb { s with issuer := .disp } = .next (t.seenAt who x)) ∧
      (triggeredTx s = false → t.seenAt who x = s) ∧
      (pm = true ↔ triggeredTx s = true ∧ (x = some 0x0002 ∨ emptyR t .tx = true)) := by
  cases h with
  | skipped h => exact ⟨s.issuer, s.response, by simp [h], fun _ => rfl, by simp [h]⟩
  | empty h he =>
    refine ⟨.disp, some 0x0002, fun _ => ?_, by simp [h], by simp [h]⟩
    exact exec_ok (s := { s with issuer := .disp }) hp rfl rfl
      (outputByte_empty (s := { s with issuer := .disp }) (txReady_of_triggeredTx h) he)
  | @sent b h he hb _ hpm =>
    refine ⟨.disp, some (b ++ 0x00#8), fun _ => ?_, by simp [h], ?_⟩
    · rw [exec_ok (s := { s with issuer := .disp }) hp rfl rfl (outputByte_send
        (s := { s with issuer := .disp }) (txReady_of_triggeredTx h) he hb), State.respond,
        Reply.word_ok]
      rfl
    · subst hpm
      have hne : (b ++ 0x00#8 : Word) ≠ 0x00#8 ++ 0x02#8 := append_status_ne b _ (by decide)
      exact ⟨fun hm => ⟨h, .inr hm⟩,
        fun ⟨_, hx⟩ => hx.resolve_left fun hx => hne (Option.some.inj hx)⟩

/-- Step 3 is the command `INB` issued by `DISP`, and wants to unmask exactly when that answered
`OK` (42_interrupt_mask.md R112). -/
theorem ReceiveStep.inb (who : Issuer) (x : Option Word) (hp : s.params.admitted = true)
    (h : ReceiveStep ev s t pu) :
    ∃ who' x', (ev = true →
        exec .inb { s.seenAt who x with issuer := .disp } = .next (t.seenAt who' x')) ∧
      (ev = false → t.seenAt who' x' = s.seenAt who x) ∧
      (pu = true ↔ ev = true ∧ ∃ b : Byte, x' = some (b ++ 0x00#8)) := by
  cases h with
  | skipped h => exact ⟨who, x, by simp [h], fun _ => rfl, by simp [h]⟩
  | @dropped b h hr hb hf =>
    refine ⟨.disp, some (b ++ 0x04#8), fun _ => ?_, by simp [h], by simp, ?_⟩
    · change exec .inb (s.seenAt .disp x) = _
      rw [exec_ok (s := s.seenAt .disp x) hp rfl rfl
        (inputByte_drop (s := s.seenAt .disp x) hr hb hf), State.respond,
        Reply.word_receiveBufferFull]
      rfl
    · rintro ⟨-, d, hd⟩
      exact absurd (Option.some.inj hd) (append_status_ne b d (by decide))
  | @stored b _ h hr hb hf hw he =>
    refine ⟨.disp, some (b ++ 0x00#8), fun _ => ?_, by simp [h], fun _ => ⟨h, b, rfl⟩, fun _ => rfl⟩
    exact exec_inb_store (s := s.seenAt .disp x) hp rfl hr hb hf hw (echoByte_seenAt .disp x he)

/-- The record of 42_interrupt_mask.md R112 as a response word, bit by bit. -/
theorem invokeRecord_word (evTx evRx pm pu : Bool) :
    Reply.word { status := .ok, data := invokeRecord evTx evRx pm pu } =
      0b00#2 ++ BitVec.ofBool pu ++ BitVec.ofBool (pm && !pu) ++ BitVec.ofBool pu ++
        BitVec.ofBool pm ++ BitVec.ofBool evRx ++ BitVec.ofBool evTx ++ 0x00#8 := by
  revert evTx evRx pm pu; decide

theorem exec_invoke_ok (hp : s.params.admitted = true) (hi : s.issuer = .irq)
    (h : invocation s = .ok (v, r)) : exec .invoke s = .next (v.respond r) :=
  exec_ok hp (by rw [hi]; rfl) rfl h

/-- Settles O27: `TransmitStep.outb` and `ReceiveStep.inb` for steps 2 and 3, `invokeApply_eq` for
step 4. -/
theorem invokeIsOutbThenInbThenOneDecision : Obligations.InvokeIsOutbThenInbThenOneDecision := by
  refine ⟨rfl, fun s h hi => ?_⟩
  obtain ⟨v, r, hv, -⟩ := invocation_total h
  obtain ⟨t, pm, u, pu, ht, hu, rfl, rfl⟩ := invocation_stages hv
  obtain ⟨who, x, hout, hnoOut, hpm⟩ := ht.outb h.1
  obtain ⟨-, hparams, hierT, hissuerT, -⟩ := ht.frame
  obtain ⟨who', x', hin, hnoIn, hpu⟩ := hu.inb who x (hparams ▸ h.1)
  obtain ⟨hierU, hissuerU⟩ := hu.ier_issuer
  refine ⟨t.seenAt who x, u.seenAt who' x', triggeredTx s, triggeredRx s, pm, pu, rfl, rfl, hout,
    hnoOut, hin, hnoIn, hpm, hpu, ?_⟩
  rw [exec_invoke_ok h.1 hi hv, State.respond, invokeRecord_word, invokeApply_eq, hierU, hierT]
  have hissuer : u.issuer = .irq := (hissuerU.trans hissuerT).trans hi
  simp [State.seenAt, hissuer]

/-! ## The decision table -/

/-- Whether step 2 is entered (42_interrupt_mask.md R113). -/
def Transmit.entered : Transmit → Bool
  | .none => false
  | .okPlus => true
  | .ok0 => true
  | .be => true

/-- Whether step 2 wants to mask (42_interrupt_mask.md R112). -/
def Transmit.masks : Transmit → Bool
  | .none => false
  | .okPlus => false
  | .ok0 => true
  | .be => true

/-- Whether step 3 is entered (42_interrupt_mask.md R113). -/
def Receive.entered : Receive → Bool
  | .none => false
  | .ok => true
  | .rbf => true

/-- Whether step 3 wants to unmask (42_interrupt_mask.md R112). -/
def Receive.unmasks : Receive → Bool
  | .none => false
  | .ok => true
  | .rbf => false

/-- Every combination of outcomes has one row (42_interrupt_mask.md R113). -/
theorem decisionTable_complete (x : Transmit) (y : Receive) :
    ∃ row ∈ decisionTable, row.transmit = x ∧ row.receive = y ∧
      ∀ row' ∈ decisionTable, row'.transmit = x → row'.receive = y → row' = row := by
  cases x <;> cases y <;> decide

/-- The table is R112 worked out: each row's record and decision follow from its outcomes. -/
theorem decisionTable_row : ∀ row ∈ decisionTable,
    row.record = invokeRecord row.transmit.entered row.receive.entered row.transmit.masks
        row.receive.unmasks ∧
      ∀ before, row.decision.txEn before =
        if row.receive.unmasks then true else if row.transmit.masks then false else before := by
  decide

/-- The read-side view is empty when its size is 0, as a number (20_memory.md R57). -/
theorem State.Inv.emptyR_iff_dsizeR (h : s.Inv) (f : FifoId) :
    emptyR s f = true ↔ dsizeR s f = 0 := by
  rw [h.emptyR_iff, h.dsizeR_eq]
  obtain ⟨-, -, hle, -⟩ := h.chain f
  omega

theorem State.Inv.handedOver (h : s.Inv) (he : emptyR s .tx = false) (b : Byte) :
    (s.handedOver b).Inv := (h.popped he).sendByte b

/-- A pop empties the read-side view when it showed one byte. -/
theorem State.Inv.emptyR_handedOver_iff (h : s.Inv) (he : emptyR s .tx = false) (b : Byte) :
    emptyR (s.handedOver b) .tx = true ↔ dsizeR s .tx = 1 := by
  have hlt := h.r_lt_wq2 he
  rw [(h.handedOver he b).emptyR_iff, h.dsizeR_eq]
  change s.tx.ghost.r + 1 = s.tx.ghost.wq2 ↔ s.tx.ghost.wq2 - s.tx.ghost.r = 1
  rw [State.fifo_tx] at hlt
  omega

theorem TransmitStep.outcome (hs : s.Inv) (h : TransmitStep s t pm) :
    triggeredTx s = (transmitOutcome s).entered ∧ pm = (transmitOutcome s).masks := by
  cases h with
  | skipped h => simp [transmitOutcome, h, Transmit.entered, Transmit.masks]
  | empty h he =>
    have hd := (hs.emptyR_iff_dsizeR .tx).mp he
    simp [transmitOutcome, h, hd, Transmit.entered, Transmit.masks]
  | @sent b h he hb _ hpm =>
    subst hpm
    have hd : dsizeR s .tx ≠ 0 := fun hd => by simp [(hs.emptyR_iff_dsizeR .tx).mpr hd] at he
    have hone := hs.emptyR_handedOver_iff he b
    by_cases h1 : dsizeR s .tx = 1
    · simp [transmitOutcome, h, h1, hone.mpr h1, Transmit.entered, Transmit.masks]
    · have hne := Bool.eq_false_iff.mpr fun hx => h1 (hone.mp hx)
      simp [transmitOutcome, h, hd, h1, hne, Transmit.entered, Transmit.masks]

/-- The outcome of step 3 is that of the snapshot and RX, which step 2 leaves alone. -/
theorem ReceiveStep.outcome (hf : fullW t .rx = fullW s .rx)
    (h : ReceiveStep (triggeredRx s) t u pu) :
    triggeredRx s = (receiveOutcome s).entered ∧ pu = (receiveOutcome s).unmasks := by
  cases h with
  | skipped h => simp [receiveOutcome, h, Receive.entered, Receive.unmasks]
  | dropped h _ _ hfull =>
    rw [hf] at hfull
    simp [receiveOutcome, h, hfull, Receive.entered, Receive.unmasks]
  | stored h _ _ hroom _ _ =>
    rw [hf] at hroom
    simp [receiveOutcome, h, hroom, Receive.entered, Receive.unmasks]

theorem TransmitStep.fullW_rx (h : TransmitStep s t pm) : fullW t .rx = fullW s .rx := by
  obtain ⟨hrx, hparams, -⟩ := h.frame
  simp only [fullW, rsyncW, State.cap, State.fifo_rx, hrx, hparams]

/-- Settles O28: the outcomes select one row (`decisionTable_complete`), whose record and decision
are those of R112 (`decisionTable_row`). -/
theorem invokeFollowsTheDecisionTable : Obligations.InvokeFollowsTheDecisionTable := by
  intro s h hi
  obtain ⟨row, hrow, htx, hrx, huniq⟩ :=
    decisionTable_complete (transmitOutcome s) (receiveOutcome s)
  obtain ⟨v, r, hv, -⟩ := invocation_total h
  obtain ⟨t, pm, u, pu, ht, hu, rfl, rfl⟩ := invocation_stages hv
  obtain ⟨hrecord, hdecision⟩ := decisionTable_row row hrow
  rw [htx, hrx] at hrecord hdecision
  obtain ⟨hevTx, rfl⟩ := ht.outcome h
  obtain ⟨hevRx, rfl⟩ := hu.outcome ht.fullW_rx
  obtain ⟨-, -, hierT, -⟩ := ht.frame
  have hier := hu.ier_issuer.1.trans hierT
  refine ⟨row, hrow, htx, hrx, huniq, _, exec_invoke_ok h.1 hi hv, ?_, ?_, ?_⟩
  · rw [State.respond_response, Reply.word_ok, hrecord, hevTx, hevRx]
  · rw [State.respond_ier, invokeApply_eq, hdecision, hier]
  · rw [State.respond_ier, invokeApply_eq, hier]

/-! ## One byte at a time -/

/-- From `s` to `t` at most one byte left each FIFO, and none entered. -/
def PopsOne (s t : State) : Prop :=
  ∀ f, ((t.fifo f).ghost.r = (s.fifo f).ghost.r ∨ (t.fifo f).ghost.r = (s.fifo f).ghost.r + 1) ∧
    (t.fifo f).ghost.puts = (s.fifo f).ghost.puts

/-- From `s` to `t` no byte left a FIFO, and at most one entered, the same byte where it entered
both. -/
def PushesOne (s t : State) : Prop :=
  ∃ b, ∀ f, (t.fifo f).ghost.r = (s.fifo f).ghost.r ∧
    ((t.fifo f).ghost.puts = (s.fifo f).ghost.puts ∨
      (t.fifo f).ghost.puts = (s.fifo f).ghost.puts ++ [b])

theorem PopsOne.of_fifo_eq (h : ∀ f, t.fifo f = s.fifo f) : PopsOne s t :=
  fun f => by rw [h f]; exact ⟨.inl rfl, rfl⟩

theorem PushesOne.of_fifo_eq (h : ∀ f, t.fifo f = s.fifo f) : PushesOne s t :=
  ⟨0, fun f => by rw [h f]; exact ⟨rfl, .inl rfl⟩⟩

theorem PopsOne.refl (s : State) : PopsOne s s := .of_fifo_eq fun _ => rfl
theorem PushesOne.refl (s : State) : PushesOne s s := .of_fifo_eq fun _ => rfl

theorem PopsOne.setFifo (s : State) (f : FifoId) (n : Nat) :
    PopsOne s (s.setFifo f ((s.fifo f).popped n)) := by
  intro g
  cases f <;> cases g
  · exact ⟨.inr rfl, rfl⟩
  · exact ⟨.inl rfl, rfl⟩
  · exact ⟨.inl rfl, rfl⟩
  · exact ⟨.inr rfl, rfl⟩

theorem PushesOne.setFifo (s : State) (f : FifoId) (n : Nat) (d : Byte) :
    PushesOne s (s.setFifo f ((s.fifo f).pushed n d)) := by
  refine ⟨d, fun g => ?_⟩
  cases f <;> cases g
  · exact ⟨rfl, .inr rfl⟩
  · exact ⟨rfl, .inl rfl⟩
  · exact ⟨rfl, .inl rfl⟩
  · exact ⟨rfl, .inr rfl⟩

theorem putPort_pushesOne (h : putPort f d s = .ok (t, r)) : PushesOne s t := by
  obtain ⟨-, rfl, -⟩ | ⟨-, -, rfl, -⟩ := putPort_ok h
  · exact .refl _
  · exact .setFifo ..

theorem getPort_popsOne (h : getPort f s = .ok (t, r)) : PopsOne s t := by
  obtain ⟨-, rfl, -⟩ | ⟨-, -, _, -, rfl, -⟩ := getPort_ok h
  · exact .refl _
  · exact .setFifo s f _

theorem popsOne_handedOver (s : State) (b : Byte) : PopsOne s (s.handedOver b) :=
  fun g => by rw [State.handedOver, State.sendByte_fifo]; exact PopsOne.setFifo s .tx _ g

theorem outputByte_popsOne (h : outputByte s = .ok (t, r)) : PopsOne s t := by
  obtain ⟨-, rfl, -⟩ | ⟨-, -, rfl, -⟩ | ⟨-, -, -, b, -, rfl, -⟩ := outputByte_ok h
  · exact .refl _
  · exact .refl _
  · exact popsOne_handedOver s b

/-- The receive push and the echo push are of one byte (41_transport.md R104). -/
theorem pushesOne_of_echo
    (h : echoByte b (s.takeByte.setFifo .rx (s.rx.pushed n b)) = .ok t) : PushesOne s t := by
  obtain ⟨hrx, -, -, -, htx⟩ := echoByte_frame h
  refine ⟨b, fun g => ?_⟩
  cases g with
  | rx => rw [State.fifo_rx, hrx]; exact ⟨rfl, .inr rfl⟩
  | tx =>
    rw [State.fifo_tx]
    rcases htx with htx | htx <;> rw [htx]
    · exact ⟨rfl, .inl rfl⟩
    · exact ⟨rfl, .inr rfl⟩

theorem pushesOne_dropped (s : State) (g : Diag) : PushesOne s { s.takeByte with diag := g } :=
  .of_fifo_eq fun f => by cases f <;> rfl

theorem inputByte_pushesOne (h : inputByte s = .ok (t, r)) : PushesOne s t := by
  obtain ⟨-, rfl, -⟩ | ⟨-, b, -, ⟨-, -, rfl⟩ | ⟨-, -, -, hecho⟩⟩ := inputByte_ok h
  · exact .refl _
  · exact pushesOne_dropped ..
  · exact pushesOne_of_echo hecho

theorem TransmitStep.popsOne (h : TransmitStep s t pm) : PopsOne s t := by
  cases h with
  | skipped _ => exact .refl _
  | empty _ _ => exact .refl _
  | sent _ _ _ _ => exact popsOne_handedOver s _

theorem ReceiveStep.pushesOne (h : ReceiveStep ev s t pu) : PushesOne s t := by
  cases h with
  | skipped _ => exact .refl _
  | dropped _ _ _ _ => exact pushesOne_dropped ..
  | stored _ _ _ _ _ he => exact pushesOne_of_echo he

/-- Every command is a pop of at most one byte and then a push of at most one (42_interrupt_mask.md
R119, 20_memory.md R42). -/
theorem exec_popsThenPushes (h : exec i s = .next t) : ∃ u, PopsOne s u ∧ PushesOne u t := by
  rw [exec_command] at h
  obtain ⟨-, ⟨-, rfl⟩ | ⟨-, u, r, hb, rfl⟩⟩ := command_next h
  · exact ⟨s, .refl s, .of_fifo_eq (State.illegal_fifo s)⟩
  · suffices hu : ∃ w, PopsOne s w ∧ PushesOne w u by
      simpa only [PushesOne, State.respond_fifo] using hu
    cases i with
    | put f d => exact ⟨s, .refl s, putPort_pushesOne hb⟩
    | get f => exact ⟨u, getPort_popsOne hb, .refl u⟩
    | empty f v | full f v | dsize f v | trig | stat =>
      exact ⟨s, .refl s, .of_fifo_eq (readOnly_fifo hb)⟩
    | outb => exact ⟨u, outputByte_popsOne hb, .refl u⟩
    | inb => exact ⟨s, .refl s, inputByte_pushesOne hb⟩
    | eni e | disi e => cases hb; exact ⟨s, .refl s, .of_fifo_eq (State.setEnable_fifo s · e _)⟩
    | hwwr d => exact ⟨s, .refl s, .of_fifo_eq (deviceWrite_fifo hb)⟩
    | hwrd => exact ⟨s, .refl s, .of_fifo_eq (deviceRead_fifo hb)⟩
    | invoke =>
      obtain ⟨w, pm, x, pu, hw, hx, rfl, -⟩ := invocation_stages hb
      refine ⟨w, hw.popsOne, ?_⟩
      simpa only [PushesOne, invokeApply_fifo] using hx.pushesOne

/-- An invocation that pops TX hands the byte to the device: step 3 leaves `dev.tdr` alone. -/
theorem invoked_tx_byte (ht : TransmitStep s t pm) (hu : ReceiveStep ev t u pu)
    (hr : u.tx.ghost.r = s.tx.ghost.r + 1) :
    s.tx.mem.read s.tx.rbin.toNat = u.dev.tdr ∧ u.dev.txReady = false := by
  obtain ⟨_, hpush⟩ := hu.pushesOne
  have hkeep : u.tx.ghost.r = t.tx.ghost.r := (hpush .tx).1
  have hdev : u.dev.tdr = t.dev.tdr ∧ u.dev.txReady = t.dev.txReady := by
    cases hu with
    | skipped _ => exact ⟨rfl, rfl⟩
    | dropped _ _ _ _ => exact ⟨rfl, rfl⟩
    | stored _ _ _ _ _ he =>
      obtain ⟨-, -, hdev, -⟩ := echoByte_frame he
      rw [hdev]
      exact ⟨rfl, rfl⟩
  rw [hdev.1, hdev.2]
  cases ht with
  | skipped _ => omega
  | empty _ _ => omega
  | sent _ _ hb _ => exact ⟨hb.2, rfl⟩

/-- An invocation that pushes into RX pushes the byte that waited at the device, and takes it. -/
theorem invoked_rx_byte (ht : TransmitStep s t pm) (hu : ReceiveStep ev t u pu)
    (hb : u.rx.ghost.puts = s.rx.ghost.puts ++ [b]) :
    s.dev.rdr = some b ∧ s.dev.rxReady = true ∧ u.dev.rxReady = false := by
  obtain ⟨hrx, -, -, -, hready, hrdr⟩ := ht.frame
  rw [← hrx] at hb
  cases hu with
  | skipped _ => exact absurd hb (by simp)
  | dropped _ _ _ _ => exact absurd hb (by simp)
  | stored _ hr hd _ _ he =>
    obtain ⟨hurx, -, hdev, -⟩ := echoByte_frame he
    rw [hurx] at hb
    obtain rfl : _ = b := List.singleton_inj.mp (List.append_cancel_left hb)
    exact ⟨hrdr ▸ hd, hready ▸ hr, by rw [hdev]; rfl⟩

/-- Settles O29: `exec_popsThenPushes` for every command, and for an invocation the byte each of its
steps moves. -/
theorem oneByteAtATime : Obligations.OneByteAtATime := by
  intro i s t h
  obtain ⟨u, hpop, b, hpush⟩ := exec_popsThenPushes h
  refine ⟨fun f => ?_, fun f => ?_, fun b' hb' => ?_, ?_⟩
  · rw [(hpush f).1]; exact (hpop f).1
  · rw [← (hpop f).2]; exact (hpush f).2.imp_right fun hf => ⟨b, hf⟩
  · have hrx := (hpush .rx).2
    have htx := (hpush .tx).2
    rw [(hpop .rx).2] at hrx
    rw [(hpop .tx).2] at htx
    rcases hrx with hrx | hrx
    · exact absurd (hb'.symm.trans hrx) (by simp)
    · obtain rfl : b' = b := List.singleton_inj.mp (List.append_cancel_left (hb'.symm.trans hrx))
      exact htx
  · rintro rfl
    obtain ⟨-, ⟨-, rfl⟩ | ⟨-, v, r, hv, rfl⟩⟩ := command_next (body := invocation) h
    · exact ⟨fun hr => absurd hr (Nat.succ_ne_self _).symm,
        fun b hb => absurd hb (by simp)⟩
    · obtain ⟨w, pm, x, pu, hw, hx, rfl, -⟩ := invocation_stages hv
      rw [invokeApply_eq]
      exact ⟨fun hr => invoked_tx_byte (u := x) hw hx hr,
        fun b hb => invoked_rx_byte (u := x) hw hx hb⟩

end Sys2Proof.Machine
end

section
/-!
Family 42_interrupt_mask.md, the runs: which events change the transmit mask (R116), the invariant
of the runs of the agents, and what follows from it: a masked non-empty TX is re-armed (R117), and
every byte in TX reaches the line, in a bounded number of drain rounds and in every fair run
(R118).
-/

namespace Sys2Proof.Machine

variable {s t u v : State} {f : FifoId} {b d : Byte} {r : Reply} {i : Instr} {w : Word} {n : Nat}
variable {who : Issuer} {m : Move} {ms ms' : List Move} {ev pm pu : Bool}

/-! ## What each move can do -/

theorem handleWord_cases (h : handleWord who w s = .next t) :
    (∃ i, decode w = some i ∧ exec i { s with issuer := who } = .next t) ∨
      t = { s with issuer := who }.illegal := by
  unfold handleWord at h
  split at h
  · exact .inl ⟨_, ‹_›, h⟩
  · cases whenAdmitted_next h
    exact .inr rfl

/-- A step of `FG` is no step, or one word at its port, with the host's own state before and after
it (41_transport.md R107). -/
theorem fgStep_cases (h : fgStep s = .next t) :
    t = s.quiet ∨ ∃ w p u q, handleWord .fg w { s with fg := p } = .next u ∧
      t = { u with fg := q } := by
  unfold fgStep at h
  split at h
  · cases h; exact .inl rfl
  · exact .inr ⟨_, _, t, t.fg, h, rfl⟩
  · exact .inr ⟨_, _, t, t.fg, h, rfl⟩
  · unfold enqueuePut at h
    split at h
    · rename_i u hu
      cases h
      exact .inr ⟨_, s.fg, u, _, hu, rfl⟩
    · cases h
    · cases h

theorem irqStep_cases (h : irqStep s = .next t) :
    (irq s = false ∧ t = s.quiet) ∨
      (irq s = true ∧ ∃ v r, invocation { s with issuer := .irq } = .ok (v, r) ∧
        t = v.respond r) := by
  unfold irqStep at h
  split at h
  · rename_i hirq
    rw [handleWord_of_decode (decode_encode .invoke)] at h
    obtain ⟨-, ⟨hi, -⟩ | ⟨-, v, r, hv, rfl⟩⟩ := command_next (body := invocation) h
    · cases hi
    · exact .inr ⟨hirq, v, r, hv, rfl⟩
  · rename_i hirq
    cases h
    exact .inl ⟨Bool.eq_false_iff.mpr hirq, rfl⟩

theorem devTxDone_cases (h : devTxDone s = .next t) :
    (s.dev.txReady = true ∧ t = s.quiet) ∨
      (s.dev.txReady = false ∧ ∃ b, s.dev.tdr = some b ∧
        t = { s with
          dev := { s.dev with lineOut := s.dev.lineOut ++ [b], txReady := true } }.quiet) := by
  unfold devTxDone at h
  split at h
  · rename_i hr
    cases h
    exact .inl ⟨hr, rfl⟩
  · rename_i hr
    split at h
    · rename_i b hb
      cases h
      exact .inr ⟨Bool.eq_false_iff.mpr hr, b, hb, rfl⟩
    · cases h

theorem devRxArrive_cases (h : devRxArrive b s = .next t) :
    t = s.quiet ∨ t = { s with dev := { s.dev with rdr := some b, rxReady := true } }.quiet := by
  unfold devRxArrive at h
  split at h <;> cases h
  · exact .inl rfl
  · exact .inr rfl

/-! ## The schedule -/

theorem exec_agenda (h : exec i s = .next t) : t.agenda = s.agenda := by
  obtain ⟨-, -, ha, -⟩ := State.outside_eq_iff.mp (exec_outside h)
  exact ha

theorem handleWord_agenda (h : handleWord who w s = .next t) : t.agenda = s.agenda := by
  obtain ⟨i, -, hi⟩ | rfl := handleWord_cases h
  · exact exec_agenda (s := { s with issuer := who }) hi
  · rfl

theorem fgStep_agenda (h : fgStep s = .next t) : t.agenda = s.agenda := by
  obtain rfl | ⟨w, p, u, q, hu, rfl⟩ := fgStep_cases h
  · rfl
  · exact handleWord_agenda (s := { s with fg := p }) (t := u) hu

theorem irqStep_agenda (h : irqStep s = .next t) : t.agenda = s.agenda := by
  unfold irqStep at h
  split at h
  · exact handleWord_agenda h
  · cases h; rfl

theorem syncW2R_agenda : (syncW2R f s).agenda = s.agenda := by
  rw [syncW2R_frame]
  exact State.setFifo_agenda ..

/-- No move reads or writes the moves still to come (log 1). -/
theorem move_agenda (h : move m s = .next t) : t.agenda = s.agenda := by
  cases m with
  | reset => cases h; rfl
  | port who w => exact handleWord_agenda h
  | agent a =>
    cases a with
    | fg => exact fgStep_agenda h
    | irq => exact irqStep_agenda h
    | devTxDone => obtain ⟨-, rfl⟩ | ⟨-, b, -, rfl⟩ := devTxDone_cases h <;> rfl
    | devRxArrive b => obtain rfl | rfl := devRxArrive_cases h <;> rfl
    | syncW2R f => cases h; exact syncW2R_agenda
    | syncR2W f => cases h; exact State.setFifo_agenda ..

/-! ## A word from the foreground -/

/-- What a word `w` at the port of `FG` does to the transmit path: at most a `PUT TX`, or an `ENI
TX` by its one word (30_encoding.md R86, 70_reset_and_hazards.md R151). -/
structure FgEffect (w : Word) (s t : State) : Prop where
  dev : t.dev = s.dev
  tx : t.tx = s.tx ∨ ∃ n d, t.tx = s.tx.pushed n d
  ier : t.ier = s.ier ∨ w = 0x8000 ∧ t.ier = { s.ier with txEn := true }

theorem FgEffect.of_eq (hdev : t.dev = s.dev) (htx : t.tx = s.tx) (hier : t.ier = s.ier) :
    FgEffect w s t := ⟨hdev, .inl htx, .inl hier⟩

theorem putPort_tx_fgEffect (h : putPort .tx d s = .ok (t, r)) : FgEffect w s t := by
  obtain ⟨-, rfl, -⟩ | ⟨-, -, rfl, -⟩ := putPort_ok h
  · exact .of_eq rfl rfl rfl
  · exact ⟨rfl, .inr ⟨_, _, rfl⟩, .inl rfl⟩

theorem getPort_rx_fgEffect (h : getPort .rx s = .ok (t, r)) : FgEffect w s t := by
  obtain ⟨-, rfl, -⟩ | ⟨-, -, _, -, rfl, -⟩ := getPort_ok h <;> exact .of_eq rfl rfl rfl

theorem readOnly_fgEffect {data : State → Byte} (h : readOnly data s = .ok (t, r)) :
    FgEffect w s t := by
  cases h; exact .of_eq rfl rfl rfl

/-- The commands `FG` may issue, by the table of R86. -/
theorem exec_fgEffect (hi : s.issuer = .fg) (h : exec i s = .next t) :
    FgEffect (encode i) s t := by
  rw [exec_command] at h
  obtain ⟨-, ⟨-, rfl⟩ | ⟨hmay, u, r, hb, rfl⟩⟩ := command_next h
  · exact .of_eq rfl rfl rfl
  · suffices hu : FgEffect (encode i) s u from ⟨hu.dev, hu.tx, hu.ier⟩
    rw [hi, (mayIssue_iff i).1] at hmay
    rcases hmay with ⟨d, rfl⟩ | rfl | rfl | rfl | rfl | rfl | rfl | rfl | rfl | rfl | rfl
    · exact putPort_tx_fgEffect hb
    · exact getPort_rx_fgEffect hb
    · exact readOnly_fgEffect hb
    · exact readOnly_fgEffect hb
    · exact readOnly_fgEffect hb
    · exact readOnly_fgEffect hb
    · exact readOnly_fgEffect hb
    · exact readOnly_fgEffect hb
    · cases hb; exact ⟨rfl, .inl rfl, .inr ⟨rfl, rfl⟩⟩
    · exact readOnly_fgEffect hb
    · exact readOnly_fgEffect hb

theorem handleWord_fgEffect (h : handleWord .fg w s = .next t) : FgEffect w s t := by
  obtain ⟨i, hw, hi⟩ | rfl := handleWord_cases h
  · have he := exec_fgEffect rfl hi
    rw [encode_of_decode hw] at he
    exact ⟨he.dev, he.tx, he.ier⟩
  · exact .of_eq rfl rfl rfl

theorem fgStep_fgEffect (h : fgStep s = .next t) : ∃ w, FgEffect w s t := by
  obtain rfl | ⟨w, p, u, q, hu, rfl⟩ := fgStep_cases h
  · exact ⟨0, .of_eq rfl rfl rfl⟩
  · have he := handleWord_fgEffect hu
    exact ⟨w, he.dev, he.tx, he.ier⟩

/-! ## The transmit mask -/

/-- An invocation keeps the receive mask; it may change the transmit mask either way. -/
theorem invocation_rxEn (h : invocation s = .ok (v, r)) : v.ier.rxEn = s.ier.rxEn := by
  obtain ⟨t, pm, u, pu, ht, hu, rfl, -⟩ := invocation_stages h
  obtain ⟨-, -, hierT, -⟩ := ht.frame
  rw [invokeApply_eq, hu.ier_issuer.1, hierT]

theorem irqStep_rxEn (h : irqStep s = .next t) : t.ier.rxEn = s.ier.rxEn := by
  obtain ⟨-, rfl⟩ | ⟨-, v, r, hv, rfl⟩ := irqStep_cases h
  · rfl
  · exact invocation_rxEn (s := { s with issuer := .irq }) (v := v) hv

theorem devTxDone_ier (h : devTxDone s = .next t) : t.ier = s.ier := by
  obtain ⟨-, rfl⟩ | ⟨-, b, -, rfl⟩ := devTxDone_cases h <;> rfl

theorem devRxArrive_ier (h : devRxArrive b s = .next t) : t.ier = s.ier := by
  obtain rfl | rfl := devRxArrive_cases h <;> rfl

/-- The re-arm sets `tx_en`, and only TX's synchroniser re-arms (42_interrupt_mask.md R114). -/
theorem syncW2R_ier : (syncW2R f s).ier = s.ier ∨
    f = .tx ∧ (syncW2R f s).ier = { s.ier with txEn := true } := by
  unfold syncW2R
  dsimp only
  split
  · rename_i hc
    exact .inr ⟨hc.1, by rw [State.setEnable_tx_ier, State.setFifo_ier]⟩
  · exact .inl (State.setFifo_ier ..)

/-- Where `IER` is kept, or `tx_en` set for the reason `Q`, no mask bit is cleared and `tx_en` is
set only for that reason. -/
theorem mask_of_ier {P Q : Prop}
    (h : t.ier = s.ier ∨ Q ∧ t.ier = { s.ier with txEn := true }) :
    (s.ier.txEn = true → t.ier.txEn = false → P) ∧ (s.ier.txEn = false → t.ier.txEn = true → Q) ∧
      (s.ier.rxEn = true → t.ier.rxEn = true) := by
  rcases h with h | ⟨hq, h⟩ <;> rw [h]
  · exact ⟨fun h1 h0 => absurd (h1.symm.trans h0) (by decide),
      fun h0 h1 => absurd (h1.symm.trans h0) (by decide), id⟩
  · exact ⟨fun _ h0 => Bool.noConfusion h0, fun _ _ => hq, id⟩

/-- Settles O31: move by move, with `mask_of_ier` for all but an invocation and reset. -/
theorem onlyTheseEventsChangeTheMask : Obligations.OnlyTheseEventsChangeTheMask := by
  intro m s t hm h
  cases m with
  | reset => cases h; exact ⟨fun _ _ => .inr rfl, fun _ h1 => Bool.noConfusion h1, fun _ => rfl⟩
  | port who w =>
    cases who with
    | disp | irq => cases hm
    | fg =>
      refine mask_of_ier ((handleWord_fgEffect h).ier.imp_right fun ⟨hw, he⟩ => ⟨?_, he⟩)
      exact .inr (.inr (.inr (by rw [hw])))
  | agent a =>
    cases a with
    | irq => exact ⟨fun _ _ => .inl rfl, fun _ _ => .inl rfl, fun h1 => (irqStep_rxEn h).trans h1⟩
    | fg =>
      obtain ⟨w, he⟩ := fgStep_fgEffect h
      exact mask_of_ier (he.ier.imp_right fun ⟨_, he⟩ => ⟨.inr (.inr (.inl rfl)), he⟩)
    | devTxDone => exact mask_of_ier (.inl (devTxDone_ier h))
    | devRxArrive b => exact mask_of_ier (.inl (devRxArrive_ier h))
    | syncW2R f =>
      cases h
      exact mask_of_ier (syncW2R_ier.imp_right fun ⟨hf, he⟩ => ⟨.inr (.inl (by rw [hf])), he⟩)
    | syncR2W f => cases h; exact mask_of_ier (.inl (State.setFifo_ier ..))

/-! ## The moves beside the transmit path -/

/-- From `g` to `g'` bytes were put and nothing else of the read side's concern happened. -/
structure Ghost.Grows (g g' : Ghost) : Prop where
  r : g'.r = g.r
  wq1 : g'.wq1 = g.wq1
  wq2 : g'.wq2 = g.wq2
  puts : g.puts <+: g'.puts

theorem Ghost.Grows.of_eq {q q' : Fifo} (h : q' = q) : q.ghost.Grows q'.ghost := by
  rw [h]; exact ⟨rfl, rfl, rfl, List.prefix_rfl⟩

theorem Ghost.Grows.pushed (q : Fifo) (n : Nat) (d : Byte) : q.ghost.Grows (q.pushed n d).ghost :=
  ⟨rfl, rfl, rfl, List.prefix_append ..⟩

/-- From `s` to `t` the device's transmit half is kept, TX at most gains bytes, and transmit-ready
is not masked. -/
structure KeepsTransmit (s t : State) : Prop where
  txReady : t.dev.txReady = s.dev.txReady
  tdr : t.dev.tdr = s.dev.tdr
  lineOut : t.dev.lineOut = s.dev.lineOut
  tx : s.tx.ghost.Grows t.tx.ghost
  ier : t.ier = s.ier ∨ t.ier = { s.ier with txEn := true }

theorem FgEffect.keepsTransmit (h : FgEffect w s t) : KeepsTransmit s t where
  txReady := by rw [h.dev]
  tdr := by rw [h.dev]
  lineOut := by rw [h.dev]
  tx := by
    obtain htx | ⟨n, d, htx⟩ := h.tx
    · exact .of_eq htx
    · rw [htx]; exact .pushed ..
  ier := h.ier.imp_right And.right

theorem devRxArrive_keepsTransmit (h : devRxArrive b s = .next t) : KeepsTransmit s t := by
  obtain rfl | rfl := devRxArrive_cases h <;> exact ⟨rfl, rfl, rfl, .of_eq rfl, .inl rfl⟩

theorem syncW2R_dev : (syncW2R f s).dev = s.dev := by
  rw [syncW2R_frame]
  exact State.setFifo_dev ..

theorem syncW2R_rx_keepsTransmit : KeepsTransmit s (syncW2R .rx s).quiet where
  txReady := by rw [State.quiet_dev, syncW2R_dev]
  tdr := by rw [State.quiet_dev, syncW2R_dev]
  lineOut := by rw [State.quiet_dev, syncW2R_dev]
  tx := .of_eq (by rw [State.quiet_tx, syncW2R_rx_tx])
  ier := syncW2R_ier.imp_right And.right

theorem syncR2W_keepsTransmit : KeepsTransmit s (syncR2W f s).quiet := by
  cases f <;> exact ⟨rfl, rfl, rfl, ⟨rfl, rfl, rfl, List.prefix_rfl⟩, .inl rfl⟩

theorem ReceiveStep.keepsTransmit (h : ReceiveStep ev s t pu) : KeepsTransmit s t := by
  cases h with
  | skipped _ => exact ⟨rfl, rfl, rfl, .of_eq rfl, .inl rfl⟩
  | dropped _ _ _ _ => exact ⟨rfl, rfl, rfl, .of_eq rfl, .inl rfl⟩
  | stored _ _ _ _ _ he =>
    obtain ⟨-, hier, hdev, -, htx⟩ := echoByte_frame he
    refine ⟨by rw [hdev]; rfl, by rw [hdev]; rfl, by rw [hdev]; rfl, ?_, .inl hier⟩
    rcases htx with htx | htx <;> rw [htx]
    · exact .of_eq rfl
    · exact .pushed s.tx ..

/-- Every move of a run is one of four events on the transmit path, or beside it. -/
theorem move_cases (hm : m.ofRun = true) (h : move m s = .next t) :
    m = .agent .irq ∨ m = .agent .devTxDone ∨ m = .agent (.syncW2R .tx) ∨ m = .reset ∨
      KeepsTransmit s t := by
  cases m with
  | reset => simp
  | port who w =>
    cases who with
    | fg => simp [(handleWord_fgEffect h).keepsTransmit]
    | disp | irq => cases hm
  | agent a =>
    cases a with
    | irq | devTxDone => simp
    | fg =>
      obtain ⟨w, he⟩ := fgStep_fgEffect h
      simp [he.keepsTransmit]
    | devRxArrive b => simp [devRxArrive_keepsTransmit h]
    | syncR2W f => cases h; simp [syncR2W_keepsTransmit]
    | syncW2R f =>
      cases f with
      | tx => simp
      | rx => cases h; simp [syncW2R_rx_keepsTransmit]

/-! ## The invariant of the runs -/

/-- The bytes the device has taken: on the line or in its hand (60_exceptions.md R136). -/
abbrev Dev.taken (d : Dev) : List Byte := d.lineOut ++ d.inHand

theorem Dev.inHand_of_ready {d : Dev} (h : d.txReady = true) : d.inHand = [] := if_pos h

/-- The part of `State.RunInv` that speaks of the transmit path. -/
abbrev State.TransmitInv (s : State) : Prop :=
  s.ier.rxEn = true ∧ (s.ier.txEn = false → s.tx.ghost.r = s.tx.ghost.wq2) ∧
    s.dev.taken = s.tx.ghost.puts.take s.tx.ghost.r

theorem State.Inv.puts_length (h : s.Inv) : s.tx.ghost.puts.length = s.tx.ghost.w := by
  obtain ⟨-, -, -, -, hlen, -⟩ := h.fifo .tx
  exact hlen

theorem State.Inv.r_le_w (h : s.Inv) : s.tx.ghost.r ≤ s.tx.ghost.w := by
  obtain ⟨-, -, c3, c4, c5, -⟩ := h.chain .tx
  exact c3.trans (c4.trans c5)

theorem take_of_prefix {α : Type} {l l' : List α} (h : l <+: l') (hn : n ≤ l.length) :
    l'.take n = l.take n := by
  obtain ⟨k, rfl⟩ := h
  exact List.take_append_of_le_length hn

theorem KeepsTransmit.taken (h : KeepsTransmit s t) : t.dev.taken = s.dev.taken := by
  simp only [Dev.taken, Dev.inHand, h.lineOut, h.txReady, h.tdr]

/-- Bytes put beside the transmit path come after those already popped. -/
theorem KeepsTransmit.taken_eq (hs : s.Inv) (h : KeepsTransmit s t)
    (hl : s.dev.taken = s.tx.ghost.puts.take s.tx.ghost.r) :
    t.dev.taken = t.tx.ghost.puts.take t.tx.ghost.r := by
  rw [h.taken, hl, h.tx.r, take_of_prefix h.tx.puts (hs.puts_length ▸ hs.r_le_w)]

theorem KeepsTransmit.transmitInv (hs : s.Inv) (h : KeepsTransmit s t) (hi : s.TransmitInv) :
    t.TransmitInv := by
  obtain ⟨hrx, hmask, hl⟩ := hi
  refine ⟨?_, fun h0 => ?_, h.taken_eq hs hl⟩
  · rcases h.ier with he | he <;> rw [he] <;> exact hrx
  · rw [h.tx.r, h.tx.wq2]
    rcases h.ier with he | he <;> rw [he] at h0
    · exact hmask h0
    · cases h0

theorem devTxDone_frame (h : devTxDone s = .next t) :
    t.tx = s.tx ∧ t.ier = s.ier ∧ t.dev.txReady = true ∧ t.dev.taken = s.dev.taken := by
  obtain ⟨hr, rfl⟩ | ⟨hr, b, hb, rfl⟩ := devTxDone_cases h
  · exact ⟨rfl, rfl, hr, rfl⟩
  · exact ⟨rfl, rfl, rfl, by simp [Dev.taken, Dev.inHand, hr, hb]⟩

theorem devTxDone_transmitInv (h : devTxDone s = .next t) (hi : s.TransmitInv) :
    t.TransmitInv := by
  obtain ⟨htx, hier, -, hl⟩ := devTxDone_frame h
  rw [State.TransmitInv, htx, hier, hl]
  exact hi

theorem syncW2R_tx_tx : (syncW2R .tx s).tx = s.tx.clockedW2R := syncW2R_fifo_same (f := .tx)

theorem move_syncW2R_tx_tx (h : move (.agent (.syncW2R .tx)) s = .next t) :
    t.tx = s.tx.clockedW2R := by
  cases h; exact syncW2R_tx_tx

/-- A step that leaves transmit-ready masked was no arrival, so the view of the write count did not
change either (42_interrupt_mask.md R114, 20_memory.md R63). -/
theorem State.Inv.wq1_eq_wq2_of_masked (hs : s.Inv) (h : (syncW2R .tx s).ier.txEn = false) :
    s.ier.txEn = false ∧ s.tx.ghost.wq1 = s.tx.ghost.wq2 := by
  rw [syncW2R_eq] at h
  obtain ⟨h0, hsame⟩ : s.ier.txEn = false ∧ bin s.tx.rq1 = bin s.tx.rq2 := by simpa using h
  obtain ⟨c1, c2, c3, c4, c5, c6⟩ := hs.chain .tx
  obtain ⟨-, ⟨-, -, -, -, hq1, hq2, -, -⟩, -⟩ := hs.fifo .tx
  rw [State.fifo_tx] at hq1 hq2 c1 c2 c3 c4 c5 c6
  rw [hq1, hq2, bin_grayOfCount, bin_grayOfCount] at hsame
  have hcap := hs.cap2 .tx
  exact ⟨h0, ((ofCount_inj hcap (hs.cap256 .tx) c4 (by omega)).mp hsame.symm).symm⟩

theorem syncW2R_tx_transmitInv (hs : s.Inv) (hi : s.TransmitInv) :
    (syncW2R .tx s).TransmitInv := by
  obtain ⟨hrx, hmask, hl⟩ := hi
  refine ⟨syncW2R_rxEn.trans hrx, fun h0 => ?_, ?_⟩
  · obtain ⟨hs0, hsame⟩ := hs.wq1_eq_wq2_of_masked h0
    rw [syncW2R_tx_tx]
    exact (hmask hs0).trans hsame.symm
  · rw [syncW2R_tx_tx, syncW2R_dev]
    exact hl

/-- The byte step 2 pops is the next in put order, and the device takes it. -/
theorem TransmitStep.taken_eq (hs : s.Inv) (h : TransmitStep s t pm)
    (hl : s.dev.taken = s.tx.ghost.puts.take s.tx.ghost.r) :
    t.dev.taken = t.tx.ghost.puts.take t.tx.ghost.r := by
  cases h with
  | skipped _ => exact hl
  | empty _ _ => exact hl
  | @sent b h he hb _ _ =>
    obtain ⟨c, hc, hput⟩ := hs.head he
    obtain rfl : c = b := Option.some.inj (hc.2.symm.trans hb.2)
    rw [Dev.taken, Dev.inHand_of_ready (txReady_of_triggeredTx h), List.append_nil] at hl
    change s.dev.lineOut ++ [c] = s.tx.ghost.puts.take (s.tx.ghost.r + 1)
    rw [List.take_add_one, ← hl, show s.tx.ghost.puts[s.tx.ghost.r]? = some c from hput]
    rfl

theorem TransmitStep.inv (hs : s.Inv) (h : TransmitStep s t pm) : t.Inv := by
  cases h with
  | skipped _ => exact hs
  | empty _ _ => exact hs
  | sent _ he _ _ => exact hs.handedOver he _

/-- Step 2 that wants to mask leaves the read-side view empty (42_interrupt_mask.md R112). -/
theorem TransmitStep.drained_of_mask (hs : s.Inv) (h : TransmitStep s t true) :
    t.tx.ghost.r = t.tx.ghost.wq2 := by
  refine ((h.inv hs).emptyR_iff .tx).mp ?_
  cases h with
  | empty _ he => exact he
  | sent _ _ _ hpm => exact hpm.symm

/-- Transmit-ready ends masked only when step 2 wanted it, or it was masked from the start and step
2 not entered; in both cases step 2 leaves the view empty, and step 3 cannot change that. -/
theorem invocation_transmitInv (hs : s.Inv) (hi : s.TransmitInv)
    (h : invocation s = .ok (v, r)) : v.TransmitInv := by
  obtain ⟨hrx, hmask, hl⟩ := hi
  obtain ⟨t, pm, u, pu, ht, hu, rfl, -⟩ := invocation_stages h
  have hk := hu.keepsTransmit
  have hl' := hk.taken_eq (ht.inv hs) (ht.taken_eq hs hl)
  obtain ⟨-, -, hierT, -⟩ := ht.frame
  have hier := hu.ier_issuer.1.trans hierT
  rw [invokeApply_eq]
  refine ⟨by rw [hier]; exact hrx, fun h0 => ?_, hl'⟩
  change (if pu then true else if pm then false else u.ier.txEn) = false at h0
  change u.tx.ghost.r = u.tx.ghost.wq2
  rw [hk.tx.r, hk.tx.wq2]
  cases pu with
  | true => cases h0
  | false =>
    cases pm with
    | true => exact ht.drained_of_mask hs
    | false =>
      have hs0 : s.ier.txEn = false := hier ▸ h0
      cases ht with
      | skipped _ => exact hmask hs0
      | sent h _ _ _ => exact absurd (txEn_of_triggeredTx h) (by simp [hs0])

theorem irqStep_transmitInv (hs : s.Inv) (hi : s.TransmitInv) (h : irqStep s = .next t) :
    t.TransmitInv := by
  obtain ⟨-, rfl⟩ | ⟨-, v, r, hv, rfl⟩ := irqStep_cases h
  · exact hi
  · exact invocation_transmitInv (s := { s with issuer := .irq }) (v := v) hs hi hv

theorem move_transmitInv (hs : s.Inv) (hi : s.TransmitInv) (hm : m.ofRun = true)
    (h : move m s = .next t) : t.TransmitInv := by
  obtain rfl | rfl | rfl | rfl | hk := move_cases hm h
  · exact irqStep_transmitInv hs hi h
  · exact devTxDone_transmitInv h hi
  · cases h; exact syncW2R_tx_transmitInv hs hi
  · cases h; exact ⟨rfl, fun _ => rfl, rfl⟩
  · exact hk.transmitInv hs hi

theorem move_inv (hs : s.Inv) (h : move m s = .next t) : t.Inv := by
  obtain ⟨u, hu, hi⟩ := move_total hs m
  cases hu.symm.trans h
  exact hi

theorem move_runInv (hs : s.RunInv) (hm : m.ofRun = true) (h : move m s = .next t) : t.RunInv := by
  obtain ⟨hinv, hag, hi⟩ := hs
  exact ⟨move_inv hinv h, by rw [move_agenda h]; exact hag, move_transmitInv hinv hi hm h⟩

/-- The next move of a run is one of a run, and taking it off keeps the invariant. -/
theorem State.RunInv.afterNextMove (hs : s.RunInv) :
    (nextMove s).1.ofRun = true ∧ (nextMove s).2.RunInv := by
  obtain ⟨hinv, hag, hi⟩ := hs
  unfold nextMove
  split
  · rename_i m rest ha
    rw [ha] at hag
    exact ⟨hag m List.mem_cons_self, hinv, fun x hx => hag x (List.mem_cons_of_mem _ hx), hi⟩
  · exact ⟨rfl, hinv, hag, hi⟩

/-- Settles O46: the next move keeps the invariant of the block (`move_inv`), the agenda it leaves
(`move_agenda`), and the transmit path (`move_transmitInv`). -/
theorem everyStepKeepsTheRunInvariant : Obligations.EveryStepKeepsTheRunInvariant := by
  intro s t hs h
  obtain ⟨hm, hn⟩ := hs.afterNextMove
  exact move_runInv hn hm (whenAdmitted_next h)

/-! ## Progress of TX -/

/-- How TX moves on in a run: bytes are put, cross to the read side and are popped. -/
structure Ghost.Progress (g g' : Ghost) : Prop where
  puts : g.puts <+: g'.puts
  r : g.r ≤ g'.r
  wq1 : g.wq1 ≤ g'.wq1
  wq2 : g.wq2 ≤ g'.wq2

theorem Ghost.Progress.refl (g : Ghost) : g.Progress g :=
  ⟨List.prefix_rfl, le_rfl, le_rfl, le_rfl⟩

theorem Ghost.Progress.trans {g g' g'' : Ghost} (h : g.Progress g') (h' : g'.Progress g'') :
    g.Progress g'' :=
  ⟨h.puts.trans h'.puts, h.r.trans h'.r, h.wq1.trans h'.wq1, h.wq2.trans h'.wq2⟩

theorem Ghost.Grows.progress {g g' : Ghost} (h : g.Grows g') : g.Progress g' :=
  ⟨h.puts, h.r.ge, h.wq1.ge, h.wq2.ge⟩

theorem TransmitStep.progress (h : TransmitStep s t pm) : s.tx.ghost.Progress t.tx.ghost := by
  cases h with
  | skipped _ => exact .refl _
  | empty _ _ => exact .refl _
  | sent _ _ _ _ => exact ⟨List.prefix_rfl, Nat.le_succ _, le_rfl, le_rfl⟩

theorem invokeApply_tx : (invokeApply pm pu s).tx = s.tx := by rw [invokeApply_eq]

theorem irqStep_progress (h : irqStep s = .next t) : s.tx.ghost.Progress t.tx.ghost := by
  obtain ⟨-, rfl⟩ | ⟨-, v, r, hv, rfl⟩ := irqStep_cases h
  · exact .refl _
  · obtain ⟨w, pm, u, pu, ht, hu, rfl, -⟩ := invocation_stages hv
    rw [State.respond_tx, invokeApply_tx]
    exact ht.progress.trans hu.keepsTransmit.tx.progress

theorem syncW2R_tx_progress (hs : s.Inv) : s.tx.ghost.Progress (syncW2R .tx s).tx.ghost := by
  obtain ⟨-, -, -, c4, c5, -⟩ := hs.chain .tx
  rw [syncW2R_tx_tx]
  exact ⟨List.prefix_rfl, le_rfl, c5, c4⟩

theorem move_progress (hs : s.Inv) (hm : m.ofRun = true) (hne : m ≠ .reset)
    (h : move m s = .next t) : s.tx.ghost.Progress t.tx.ghost := by
  obtain rfl | rfl | rfl | rfl | hk := move_cases hm h
  · exact irqStep_progress h
  · obtain ⟨htx, -⟩ := devTxDone_frame h
    rw [htx]
    exact .refl _
  · cases h; exact syncW2R_tx_progress hs
  · exact absurd rfl hne
  · exact hk.tx.progress

/-- Only an invocation makes a ready device busy: the other moves of a run issue neither `OUTB` nor
`HWWR` (60_exceptions.md R138). -/
theorem move_keeps_ready (hm : m.ofRun = true) (hne : m ≠ .agent .irq) (h : move m s = .next t)
    (hr : s.dev.txReady = true) : t.dev.txReady = true := by
  obtain rfl | rfl | rfl | rfl | hk := move_cases hm h
  · exact absurd rfl hne
  · obtain ⟨-, -, hready, -⟩ := devTxDone_frame h
    exact hready
  · cases h; rw [State.quiet_dev, syncW2R_dev]; exact hr
  · cases h; rfl
  · exact hk.txReady.trans hr

/-- While a byte shows on the read side, transmit-ready is unmasked (42_interrupt_mask.md R117); so
a ready device requests the interrupt. -/
theorem State.RunInv.triggered_of_visible (hs : s.RunInv) (hr : s.dev.txReady = true)
    (hlt : s.tx.ghost.r < s.tx.ghost.wq2) : triggeredTx s = true := by
  obtain ⟨-, -, -, hmask, -⟩ := hs
  have hen : s.ier.txEn = true := by
    by_contra h0
    exact absurd (hmask (Bool.eq_false_iff.mpr h0)) hlt.ne
  simp [triggeredTx, hr, hen]

theorem irq_of_triggeredTx (h : triggeredTx s = true) : irq s = true := by simp [irq, h]

/-- The invocation that follows pops the byte. -/
theorem State.RunInv.irq_pops (hs : s.RunInv) (hr : s.dev.txReady = true)
    (hlt : s.tx.ghost.r < s.tx.ghost.wq2) (h : move (.agent .irq) s = .next t) :
    t.tx.ghost.r = s.tx.ghost.r + 1 := by
  have htrig := hs.triggered_of_visible hr hlt
  obtain ⟨hn, -⟩ | ⟨-, v, r, hv, rfl⟩ := irqStep_cases h
  · exact absurd (irq_of_triggeredTx htrig) (by simp [hn])
  obtain ⟨w, pm, u, pu, ht, hu, rfl, -⟩ := invocation_stages hv
  rw [State.respond_tx, invokeApply_tx, hu.keepsTransmit.tx.r]
  cases ht with
  | skipped hn => exact absurd htrig (Bool.eq_false_iff.mp hn)
  | empty _ he => exact absurd ((hs.1.emptyR_iff .tx).mp he) hlt.ne
  | sent _ _ _ _ => rfl

/-- With the device ready, the first bytes put, as far as they are popped, are on the line. -/
theorem State.RunInv.prefix_lineOut (hs : s.RunInv) (hr : s.dev.txReady = true) {l : List Byte}
    (hl : l <+: s.tx.ghost.puts) (hlen : l.length ≤ s.tx.ghost.r) : l <+: s.dev.lineOut := by
  obtain ⟨-, -, -, -, htaken⟩ := hs
  rw [Dev.inHand_of_ready hr, List.append_nil] at htaken
  rw [htaken]
  exact List.prefix_take_iff.mpr ⟨hl, hlen⟩

/-! ## Several moves -/

theorem moves_cons (h : move m s = .next t) : moves (m :: ms) s = moves ms t := by
  simp only [moves, h]

theorem moves_append (h : moves ms s = .next t) : moves (ms ++ ms') s = moves ms' t := by
  induction ms generalizing s with
  | nil => cases h; rfl
  | cons m ms ih =>
    cases hu : move m s with
    | next u =>
      rw [moves_cons hu] at h
      rw [List.cons_append, moves_cons hu, ih h]
    | fault e => simp [moves, hu] at h
    | refused e => simp [moves, hu] at h

/-- A move of a run, but for reset, is taken, keeps the invariant, and TX moves on. -/
theorem State.RunInv.move_total (hs : s.RunInv) (hm : m.ofRun = true) (hne : m ≠ .reset) :
    ∃ t, move m s = .next t ∧ t.RunInv ∧ s.tx.ghost.Progress t.tx.ghost := by
  obtain ⟨t, h, -⟩ := Machine.move_total hs.1 m
  exact ⟨t, h, move_runInv hs hm h, move_progress hs.1 hm hne h⟩

/-- Two `SYNC_W2R(TX)` steps carry the write count to the read side (20_memory.md R52). -/
theorem State.RunInv.twoSyncs (hs : s.RunInv) :
    ∃ t, moves [.agent (.syncW2R .tx), .agent (.syncW2R .tx)] s = .next t ∧ t.RunInv ∧
      t.tx.ghost.puts = s.tx.ghost.puts ∧ t.tx.ghost.r = s.tx.ghost.r ∧
      t.tx.ghost.wq2 = s.tx.ghost.w := by
  have hu : (syncW2R .tx s).quiet.RunInv := move_runInv (m := .agent (.syncW2R .tx)) hs rfl rfl
  refine ⟨_, rfl, move_runInv (m := .agent (.syncW2R .tx)) hu rfl rfl, ?_⟩
  rw [State.quiet_tx, syncW2R_tx_tx, State.quiet_tx, syncW2R_tx_tx]
  exact ⟨rfl, rfl, rfl⟩

/-- Settles O52: masked, the read side shows nothing, so what TX holds is in flight; once it has
crossed the read side shows a byte, and the invariant forbids the mask. -/
theorem maskedNonEmptyTxIsReArmed : Obligations.MaskedNonEmptyTxIsReArmed := by
  intro s hs h0 hocc
  obtain ⟨t, ht, htr, -, hr, hwq2⟩ := hs.twoSyncs
  obtain ⟨hinv, -, -, hmask, -⟩ := hs
  have hview := hmask h0
  rw [hinv.occ_eq, State.fifo_tx] at hocc
  refine ⟨by omega, t, ht, ?_⟩
  obtain ⟨-, -, -, hmaskT, -⟩ := htr
  by_contra hne
  have := hmaskT (Bool.eq_false_iff.mpr hne)
  omega

/-! ## Drain rounds -/

/-- A drain round pops a byte if TX holds one (42_interrupt_mask.md R118). -/
theorem State.RunInv.drainRound_pops (hs : s.RunInv) :
    ∃ t, moves drainRound s = .next t ∧ t.RunInv ∧ s.tx.ghost.puts <+: t.tx.ghost.puts ∧
      min (s.tx.ghost.r + 1) s.tx.ghost.w ≤ t.tx.ghost.r := by
  obtain ⟨u, hu, hur, hputs, hr, hwq2⟩ := hs.twoSyncs
  obtain ⟨x, hx, hxr, -⟩ := hur.move_total (m := .agent .devTxDone) rfl (by simp)
  obtain ⟨t, ht, htr, hp⟩ := hxr.move_total (m := .agent .irq) rfl (by simp)
  obtain ⟨hxtx, -, hready, -⟩ := devTxDone_frame hx
  rw [← hxtx] at hputs hr hwq2
  refine ⟨t, ?_, htr, hputs ▸ hp.puts, ?_⟩
  · calc moves drainRound s = moves [.agent .devTxDone, .agent .irq] u := moves_append hu
      _ = .next t := by rw [moves_cons hx, moves_cons ht]; rfl
  · rcases Nat.lt_or_ge s.tx.ghost.r s.tx.ghost.w with hlt | hge
    · have hpop := hxr.irq_pops hready (by rw [hr, hwq2]; exact hlt) ht
      omega
    · have := hp.r
      omega

/-- By induction on the rounds: each brings the read count one nearer to `l`, until it is reached.
-/
theorem State.RunInv.drainRounds_pop (hs : s.RunInv) {l k : Nat} (hl : l ≤ s.tx.ghost.w)
    (hk : l ≤ s.tx.ghost.r + k) :
    ∃ t, moves (List.replicate k drainRound).flatten s = .next t ∧ t.RunInv ∧
      s.tx.ghost.puts <+: t.tx.ghost.puts ∧ l ≤ t.tx.ghost.r := by
  induction k generalizing s with
  | zero => exact ⟨s, rfl, hs, List.prefix_rfl, hk⟩
  | succ k ih =>
    obtain ⟨u, hu, hur, hputs, hpop⟩ := hs.drainRound_pops
    have hlu := hur.1.r_le_w
    have hw := hputs.length_le
    rw [hs.1.puts_length, hur.1.puts_length] at hw
    obtain ⟨t, ht, htr, hputs', hr⟩ := ih hur (by omega) (by omega)
    exact ⟨t, by rw [List.replicate_succ, List.flatten_cons, moves_append hu, ht], htr,
      hputs.trans hputs', hr⟩

/-- Settles O53: `occ(TX)` rounds pop all that was put, and the last `DEV_TX_DONE` sends what is
still in the device's hand. -/
theorem drainRoundsSendEveryByte : Obligations.DrainRoundsSendEveryByte := by
  intro s hs
  have hle := hs.1.r_le_w
  obtain ⟨u, hu, hur, hputs, hr⟩ := hs.drainRounds_pop (k := occ s .tx) le_rfl
    (by rw [hs.1.occ_eq, State.fifo_tx]; omega)
  obtain ⟨t, ht, htr, hp⟩ := hur.move_total (m := .agent .devTxDone) rfl (by simp)
  obtain ⟨-, -, hready, -⟩ := devTxDone_frame ht
  refine ⟨t, by rw [moves_append hu, moves_cons ht]; rfl,
    htr.prefix_lineOut hready (hputs.trans hp.puts) ?_⟩
  rw [hs.1.puts_length]
  exact hr.trans hp.r

/-! ## Fair runs -/

section FairRun

variable {σ : Nat → State} {a : Nat → Move} {k l : Nat}

theorem FairRun.runInv (h0 : (σ 0).RunInv) (hf : FairRun σ a) (n : Nat) : (σ n).RunInv := by
  obtain ⟨hrun, hnext, -⟩ := hf
  induction n with
  | zero => exact h0
  | succ n ih => exact move_runInv ih (hrun n).1 (hnext n)

theorem FairRun.progress (h0 : (σ 0).RunInv) (hf : FairRun σ a) (hkn : k ≤ n) :
    (σ k).tx.ghost.Progress (σ n).tx.ghost := by
  have hinv := hf.runInv h0
  obtain ⟨hrun, hnext, -⟩ := hf
  induction n, hkn using Nat.le_induction with
  | base => exact .refl _
  | succ n _ ih => exact ih.trans (move_progress (hinv n).1 (hrun n).1 (hrun n).2 (hnext n))

theorem FairRun.w_le (h0 : (σ 0).RunInv) (hf : FairRun σ a) (hkn : k ≤ n) :
    (σ k).tx.ghost.w ≤ (σ n).tx.ghost.w := by
  rw [← (hf.runInv h0 k).1.puts_length, ← (hf.runInv h0 n).1.puts_length]
  exact (hf.progress h0 hkn).puts.length_le

/-- The device is ready again and again: were it busy for ever, `DEV_TX_DONE` would be taken. -/
theorem FairRun.eventually_ready (hf : FairRun σ a) (k : Nat) :
    ∃ m, k ≤ m ∧ (σ m).dev.txReady = true := by
  obtain ⟨-, hnext, -, -, -, hdone⟩ := hf
  by_contra hno
  push Not at hno
  obtain ⟨m, hm, ha⟩ := hdone k fun m hm => Bool.eq_false_iff.mpr (hno m hm)
  have hmove := hnext m
  rw [ha] at hmove
  obtain ⟨-, -, hready, -⟩ := devTxDone_frame hmove
  exact hno (m + 1) (by omega) hready

/-- What has been put shows on the read side after two more `SYNC_W2R(TX)` steps. -/
theorem FairRun.eventually_visible (h0 : (σ 0).RunInv) (hf : FairRun σ a) (k : Nat) :
    ∃ m, k ≤ m ∧ (σ k).tx.ghost.w ≤ (σ m).tx.ghost.wq2 := by
  obtain ⟨-, hnext, hsync, -⟩ := id hf
  have hclock {n : Nat} (ha : a n = .agent (.syncW2R .tx)) :
      (σ (n + 1)).tx = (σ n).tx.clockedW2R := move_syncW2R_tx_tx (ha ▸ hnext n)
  obtain ⟨i, hki, hi⟩ := hsync .tx k
  obtain ⟨j, hij, hj⟩ := hsync .tx (i + 1)
  refine ⟨j + 1, by omega, ?_⟩
  calc (σ k).tx.ghost.w ≤ (σ i).tx.ghost.w := hf.w_le h0 hki
    _ = (σ (i + 1)).tx.ghost.wq1 := by rw [hclock hi]; rfl
    _ ≤ (σ j).tx.ghost.wq1 := (hf.progress h0 hij).wq1
    _ = (σ (j + 1)).tx.ghost.wq2 := by rw [hclock hj]; rfl

/-- If from `k` on a ready device requests the interrupt, an invocation finds it ready: until one
comes the device stays ready and the request stands. -/
theorem FairRun.eventually_invoked (hf : FairRun σ a)
    (hreq : ∀ m, k ≤ m → (σ m).dev.txReady = true → irq (σ m) = true) :
    ∃ m, k ≤ m ∧ a m = .agent .irq ∧ (σ m).dev.txReady = true := by
  obtain ⟨j, hkj, hready⟩ := hf.eventually_ready k
  obtain ⟨hrun, hnext, -, -, hirq, -⟩ := hf
  by_contra hno
  push Not at hno
  have hstay : ∀ m, j ≤ m → (σ m).dev.txReady = true := fun m hm => by
    induction m, hm using Nat.le_induction with
    | base => exact hready
    | succ m hm ih =>
      exact move_keeps_ready (hrun m).1 (fun ha => hno m (hkj.trans hm) ha ih) (hnext m) ih
  obtain ⟨m, hm, ha⟩ := hirq j fun m hm => hreq m (hkj.trans hm) (hstay m hm)
  exact hno m (hkj.trans hm) ha (hstay m hm)

/-- Were the read count to stand still, the bytes would show, the device be ready, and an invocation
pop one. -/
theorem FairRun.eventually_pops (h0 : (σ 0).RunInv) (hf : FairRun σ a)
    (hlt : (σ k).tx.ghost.r < (σ k).tx.ghost.w) :
    ∃ m, k ≤ m ∧ (σ k).tx.ghost.r < (σ m).tx.ghost.r := by
  obtain ⟨j, hkj, hvis⟩ := hf.eventually_visible h0 k
  by_contra hno
  push Not at hno
  have hshows (m : Nat) (hm : j ≤ m) : (σ m).tx.ghost.r < (σ m).tx.ghost.wq2 :=
    calc (σ m).tx.ghost.r ≤ (σ k).tx.ghost.r := hno m (hkj.trans hm)
      _ < (σ k).tx.ghost.w := hlt
      _ ≤ (σ j).tx.ghost.wq2 := hvis
      _ ≤ (σ m).tx.ghost.wq2 := (hf.progress h0 hm).wq2
  obtain ⟨m, hm, ha, hready⟩ := hf.eventually_invoked fun m hm hr =>
    irq_of_triggeredTx ((hf.runInv h0 m).triggered_of_visible hr (hshows m hm))
  have hge := (hf.progress h0 (hkj.trans hm)).r
  have hle := hno (m + 1) (by omega)
  have hinv := hf.runInv h0 m
  obtain ⟨-, hnext, -⟩ := hf
  have hpop := hinv.irq_pops hready (hshows m hm) (ha ▸ hnext m)
  omega

/-- By induction on how many bytes are still to be popped. -/
theorem FairRun.eventually_popped (h0 : (σ 0).RunInv) (hf : FairRun σ a) {d : Nat}
    (hl : l ≤ (σ k).tx.ghost.w) (hd : l ≤ (σ k).tx.ghost.r + d) :
    ∃ m, k ≤ m ∧ l ≤ (σ m).tx.ghost.r := by
  induction d generalizing k with
  | zero => exact ⟨k, le_rfl, hd⟩
  | succ d ih =>
    rcases Nat.lt_or_ge (σ k).tx.ghost.r l with hlt | hge
    · obtain ⟨j, hkj, hpop⟩ := hf.eventually_pops h0 (hlt.trans_le hl)
      obtain ⟨m, hjm, hm⟩ := ih (hl.trans (hf.w_le h0 hkj)) (by omega)
      exact ⟨m, hkj.trans hjm, hm⟩
    · exact ⟨k, le_rfl, hge⟩

end FairRun

/-- Settles O54: all that was put by `n` is popped at some `k`, and the next time the device is
ready it is on the line. -/
theorem fairRunsSendEveryByte : Obligations.FairRunsSendEveryByte := by
  intro σ a h0 hf n
  obtain ⟨k, hnk, hk⟩ := hf.eventually_popped h0 le_rfl (Nat.le_add_left (σ n).tx.ghost.w _)
  obtain ⟨m, hkm, hready⟩ := hf.eventually_ready k
  refine ⟨m, hnk.trans hkm, (hf.runInv h0 m).prefix_lineOut hready
    (hf.progress h0 (hnk.trans hkm)).puts ?_⟩
  rw [(hf.runInv h0 n).1.puts_length]
  exact hk.trans (hf.progress h0 hkm).r

end Sys2Proof.Machine
end

section
/-!
Family 60_exceptions.md: the block never stops (R121); the answer to an `Illegal` word (R122); the
statuses of the responses (R123); the `IRQ` agent and how often it invokes in a row (R126, R133);
and the device's steps and its ready flags (R136 to R138).
-/

namespace Sys2Proof.Machine

variable {s t u v : State} {f : FifoId} {b d : Byte} {r : Reply} {i : Instr} {w : Word} {row : Row}
variable {who : Issuer} {m : Move} {rest : List Move} {ev pm pu : Bool}

/-! ## The block never stops -/

/-- Settles O45: `step_total` for the step and `exec_total` for the commands. -/
theorem noStepStopsFromTheInvariant : Obligations.NoStepStopsFromTheInvariant := by
  intro s hs
  refine ⟨?_, fun i => ?_⟩
  · obtain ⟨t, ht, -⟩ := step_total hs
    exact ⟨t, ht⟩
  · obtain ⟨t, ht, -⟩ := exec_total hs i
    exact ⟨t, ht⟩

/-! ## Illegal words -/

/-- Every row fixes all of `op`, so the words it selects have the opcode of its pattern
(30_encoding.md R79). -/
theorem fieldOp_of_selects (hrow : row ∈ rows) (h : row.selects w = true) :
    fieldOp row.pattern = fieldOp w := by
  have hw : w &&& row.mask = row.pattern := beq_iff_eq.mp h
  refine BitVec.eq_of_getLsbD_eq fun k hk => ?_
  obtain ⟨-, hm⟩ := rows_fix_opcode row hrow (12 + k) (by omega)
  rw [← hw]
  simp [fieldOp, hk, hm (by omega)]

theorem rows_opcode_not_reserved :
    ∀ row ∈ rows, fieldOp row.pattern ≠ 0x0 ∧ fieldOp row.pattern ≠ 0xF := by decide

theorem rows_opcode_injective :
    ∀ row ∈ rows, ∀ row' ∈ rows, fieldOp row'.pattern = fieldOp row.pattern → row' = row := by
  decide

/-- A word with a reserved opcode is no command (30_encoding.md R87). -/
theorem decode_of_reserved (h : fieldOp w = 0x0 ∨ fieldOp w = 0xF) : decode w = none := by
  refine decode_eq_none_iff.mpr fun row hrow => Bool.eq_false_iff.mpr fun hsel => ?_
  obtain ⟨h0, hF⟩ := rows_opcode_not_reserved row hrow
  rw [fieldOp_of_selects hrow hsel] at h0 hF
  exact h.elim h0 hF

/-- A word that breaks the row of its own opcode is no command: no other row has that opcode
(30_encoding.md R88). -/
theorem decode_of_mustBeZero (hrow : row ∈ rows) (hop : fieldOp row.pattern = fieldOp w)
    (hbad : w &&& row.mask ≠ row.pattern) : decode w = none := by
  refine decode_eq_none_iff.mpr fun row' hrow' => Bool.eq_false_iff.mpr fun hsel => ?_
  have hsame := (fieldOp_of_selects hrow' hsel).trans hop.symm
  obtain rfl := rows_opcode_injective row hrow row' hrow' hsame
  exact hbad (beq_iff_eq.mp hsel)

theorem handleWord_of_no_command (hp : s.params.admitted = true) (h : decode w = none) :
    handleWord who w s = .next { s with issuer := who }.illegal := by
  rw [handleWord, h]
  exact whenAdmitted_admitted hp _

/-- A word that is no command, or one its issuer may not issue, has the one answer of
60_exceptions.md R122. -/
theorem handleWord_illegal (hp : s.params.admitted = true)
    (h : decode w = none ∨ ∃ i, decode w = some i ∧ mayIssue who i = false) :
    handleWord who w s = .next { s with issuer := who }.illegal := by
  obtain hnone | ⟨i, hi, hmay⟩ := h
  · exact handleWord_of_no_command hp hnone
  · rw [handleWord_of_decode hi]
    exact exec_illegal hp hmay

/-- Settles O9: a reserved opcode and a broken row decode to nothing, and `handleWord_illegal`
answers all kinds alike; `move_kept` for the rest of the run. -/
theorem illegalWordOnlySetsDiagIllegal : Obligations.IllegalWordOnlySetsDiagIllegal := by
  refine ⟨fun s who w rest hp ha hw => ?_, fun s t m hm hill h => ?_⟩
  · have hill : decode w = none ∨ ∃ i, decode w = some i ∧ mayIssue who i = false := by
      obtain h0 | hF | ⟨row, hrow, hop, hbad⟩ | hmay := hw
      · exact .inl (decode_of_reserved (.inl h0))
      · exact .inl (decode_of_reserved (.inr hF))
      · exact .inl (decode_of_mustBeZero hrow hop hbad)
      · exact .inr hmay
    rw [step_of_agenda ha, whenAdmitted_admitted hp]
    exact handleWord_illegal (s := { s with agenda := rest }) hp hill
  · obtain ⟨-, -, hkept⟩ := move_kept hm h
    exact hkept hill

/-! ## The statuses of the responses -/

theorem putPort_status (h : putPort f d s = .ok (t, r)) :
    r.status.code ∈ statusesOf (.put f d) := by
  obtain ⟨-, -, rfl⟩ | ⟨-, -, -, rfl⟩ := putPort_ok h
  · exact .tail _ (.head _)
  · exact .head _

theorem getPort_status (h : getPort f s = .ok (t, r)) : r.status.code ∈ statusesOf (.get f) := by
  obtain ⟨-, -, rfl⟩ | ⟨-, -, _, -, -, rfl⟩ := getPort_ok h
  · exact .tail _ (.head _)
  · exact .head _

theorem deviceWrite_status (h : deviceWrite d s = .ok (t, r)) :
    r.status.code ∈ statusesOf (.hwwr d) := by
  obtain ⟨-, -, rfl⟩ | ⟨-, -, rfl⟩ := deviceWrite_ok h
  · exact .head _
  · exact .tail _ (.head _)

theorem deviceRead_status (h : deviceRead s = .ok (t, r)) : r.status.code ∈ statusesOf .hwrd := by
  obtain ⟨-, _, -, -, rfl⟩ | ⟨-, -, rfl⟩ := deviceRead_ok h
  · exact .head _
  · exact .tail _ (.head _)

theorem outputByte_status (h : outputByte s = .ok (t, r)) : r.status.code ∈ statusesOf .outb := by
  obtain ⟨-, -, rfl⟩ | ⟨-, -, -, rfl⟩ | ⟨-, -, -, _, -, -, rfl⟩ := outputByte_ok h
  · exact .tail _ (.tail _ (.head _))
  · exact .tail _ (.head _)
  · exact .head _

theorem inputByte_status (h : inputByte s = .ok (t, r)) : r.status.code ∈ statusesOf .inb := by
  obtain ⟨-, -, rfl⟩ | ⟨-, _, -, ⟨-, rfl, -⟩ | ⟨-, -, rfl, -⟩⟩ := inputByte_ok h
  · exact .tail _ (.tail _ (.head _))
  · exact .tail _ (.head _)
  · exact .head _

theorem invocation_status (h : invocation s = .ok (t, r)) :
    r.status.code ∈ statusesOf .invoke := by
  obtain ⟨_, _, _, _, -, -, -, rfl⟩ := invocation_ok h
  exact .head _

/-- A completed command its issuer may issue ends with a status of its row in 60_exceptions.md R123;
any other completed command is `Illegal`. -/
theorem exec_reply (h : exec i s = .next t) :
    (mayIssue s.issuer i = true ∧
      ∃ r : Reply, r.status.code ∈ statusesOf i ∧ t.response = some r.word) ∨
    (mayIssue s.issuer i = false ∧ t.response = some Status.illegal.reply.word) := by
  rw [exec_command] at h
  obtain ⟨-, ⟨hi, rfl⟩ | ⟨hi, u, r, hb, rfl⟩⟩ := command_next h
  · exact .inr ⟨hi, rfl⟩
  · refine .inl ⟨hi, r, ?_, rfl⟩
    cases i with
    | put f d => exact putPort_status hb
    | get f => exact getPort_status hb
    | empty f v | full f v | dsize f v | trig | stat => cases hb; exact .head _
    | eni e | disi e => cases hb; exact .head _
    | outb => exact outputByte_status hb
    | inb => exact inputByte_status hb
    | hwwr d => exact deviceWrite_status hb
    | hwrd => exact deviceRead_status hb
    | invoke => exact invocation_status hb

/-- Settles O11: `exec_reply`, with the reply's word written out (30_encoding.md R77). -/
theorem everyResponseHasAListedStatus : Obligations.EveryResponseHasAListedStatus := by
  intro i s t h
  obtain ⟨hi, r, hst, hresp⟩ | ⟨hi, hresp⟩ := exec_reply h
  · exact .inl ⟨hi, r.data, r.status.code, hst, hresp⟩
  · exact .inr ⟨hi, hresp⟩

/-! ## The `IRQ` agent -/

theorem irq_iff : irq s = true ↔
    (s.dev.txReady = true ∧ s.ier.txEn = true) ∨ (s.dev.rxReady = true ∧ s.ier.rxEn = true) := by
  simp [irq, triggeredTx, triggeredRx]

theorem irqStep_dropped (h : irq s = false) : irqStep s = .next s.quiet :=
  if_neg (Bool.eq_false_iff.mp h)

/-- Settles O38: `irq_iff`, and the two cases of the agent's step. -/
theorem irqAgentInvokesOnlyWhileRequested : Obligations.IrqAgentInvokesOnlyWhileRequested := by
  refine fun s => ⟨fun hreq => ?_, fun hno => ?_⟩
  · have hirq := irqStep_requested (irq_iff.mpr hreq)
    exact hirq.trans (handleWord_of_decode (decode_encode .invoke))
  · exact irqStep_dropped (Bool.eq_false_iff.mpr fun h => hno (irq_iff.mp h))

theorem ReceiveStep.of_not_entered (h : ReceiveStep false s t pu) : t = s ∧ pu = false := by
  cases h with
  | skipped _ => exact ⟨rfl, rfl⟩
  | dropped h => cases h
  | stored h => cases h

/-- Once step 3 is entered the byte is taken, whether RX has room for it or not (41_transport.md
R104). -/
theorem ReceiveStep.takes (h : ReceiveStep true s t pu) : t.dev.rxReady = false := by
  cases h with
  | skipped h => cases h
  | dropped _ _ _ _ => rfl
  | stored _ _ _ _ _ he =>
    obtain ⟨-, -, hdev, -⟩ := echoByte_frame he
    rw [hdev]; rfl

theorem invokeApply_dev : (invokeApply pm pu s).dev = s.dev := by rw [invokeApply_eq]

/-- After an invocation receive-ready is not triggered: it was not at the start, or its byte is
taken. -/
theorem invocation_triggeredRx (h : invocation s = .ok (v, r)) : triggeredRx v = false := by
  have hrxEn := invocation_rxEn h
  obtain ⟨t, pm, u, pu, ht, hu, rfl, -⟩ := invocation_stages h
  obtain ⟨-, -, -, -, hready, -⟩ := ht.frame
  rw [triggeredRx, hrxEn, invokeApply_dev]
  cases hev : triggeredRx s with
  | false =>
    rw [hev] at hu
    obtain ⟨rfl, -⟩ := hu.of_not_entered
    rwa [hready]
  | true =>
    rw [hev] at hu
    rw [hu.takes]; rfl

/-- Without an unmask, transmit-ready is not triggered after an invocation: it was not at the start,
or the device is busy with the byte popped, or it is masked (42_interrupt_mask.md R112). -/
theorem TransmitStep.triggeredTx_applied (ht : TransmitStep s t pm) :
    triggeredTx (invokeApply pm false t) = false := by
  cases ht with
  | skipped h => exact h
  | empty _ _ => exact Bool.and_false _
  | sent _ _ _ _ => rw [triggeredTx, invokeApply_dev]; rfl

/-- Transmit-ready is triggered after an invocation only by an unmask, and that follows a byte taken
(42_interrupt_mask.md R112). -/
theorem invocation_triggeredTx (h : invocation s = .ok (v, r)) :
    triggeredTx v = false ∨
      (triggeredRx s = true ∧ v.ier.txEn = true ∧ v.dev.rxReady = false) := by
  obtain ⟨t, pm, u, pu, ht, hu, rfl, -⟩ := invocation_stages h
  obtain ⟨-, -, hierT, -⟩ := ht.frame
  have htrig : triggeredTx (invokeApply pm false u) = false := by
    have happlied := ht.triggeredTx_applied
    rw [triggeredTx, invokeApply_eq] at happlied ⊢
    simpa [hu.keepsTransmit.txReady, hu.ier_issuer.1] using happlied
  cases pu with
  | false => exact .inl htrig
  | true =>
    cases hev : triggeredRx s with
    | false =>
      rw [hev] at hu
      cases hu.of_not_entered.2
    | true =>
      rw [hev] at hu
      exact .inr ⟨rfl, rfl, hu.takes⟩

theorem irqStep_triggeredRx (h : irqStep s = .next t) : triggeredRx t = false := by
  obtain ⟨hno, rfl⟩ | ⟨-, v, r, hv, rfl⟩ := irqStep_cases h
  · exact (Bool.or_eq_false_iff.mp hno).2
  · exact invocation_triggeredRx (v := v) hv

/-- After a step of the `IRQ` agent the request has ended, or the step applied an unmask after
taking a byte (60_exceptions.md R133). -/
theorem irqStep_irq (h : irqStep s = .next t) :
    irq t = false ∨ (triggeredRx s = true ∧ t.ier.txEn = true ∧ t.dev.rxReady = false) := by
  rw [irq, irqStep_triggeredRx h, Bool.or_false]
  obtain ⟨hno, rfl⟩ | ⟨-, v, r, hv, rfl⟩ := irqStep_cases h
  · exact .inl (Bool.or_eq_false_iff.mp hno).1
  · exact invocation_triggeredTx (s := { s with issuer := .irq }) (v := v) hv

/-- Settles O30: `irqStep_irq` twice; the second step finds receive-ready not triggered. -/
theorem atMostTwoInvocationsInARow : Obligations.AtMostTwoInvocationsInARow := by
  intro s hs _
  obtain ⟨t, ht, hti⟩ := move_total hs (.agent .irq)
  obtain ⟨u, hu, -⟩ := move_total hti (.agent .irq)
  have hrx : triggeredRx t = false := irqStep_triggeredRx ht
  exact ⟨t, ht, irqStep_irq ht, u, hu,
    (irqStep_irq hu).resolve_right fun ⟨hev, _⟩ => Bool.eq_false_iff.mp hrx hev⟩

/-! ## The device's steps -/

theorem devTxDone_busy (hr : s.dev.txReady = false) (hb : s.dev.tdr = some b) :
    devTxDone s = .next { s with
      dev := { s.dev with lineOut := s.dev.lineOut ++ [b], txReady := true } }.quiet := by
  simp [devTxDone, hr, hb]

theorem devTxDone_dropped (hr : s.dev.txReady = true) : devTxDone s = .next s.quiet := if_pos hr

theorem devRxArrive_free (hr : s.dev.rxReady = false) : devRxArrive b s =
    .next { s with dev := { s.dev with rdr := some b, rxReady := true } }.quiet :=
  if_neg (Bool.eq_false_iff.mp hr)

theorem devRxArrive_dropped (hr : s.dev.rxReady = true) : devRxArrive b s = .next s.quiet :=
  if_pos hr

/-- Settles O36: the two cases of each of the device's steps. -/
theorem deviceStepsWhenEnabled : Obligations.DeviceStepsWhenEnabled :=
  ⟨fun _ _ hr hb => devTxDone_busy hr hb, fun _ _ hr => devRxArrive_free hr,
    fun _ hr => devTxDone_dropped hr, fun _ _ hr => devRxArrive_dropped hr⟩

/-! ## The ready flags -/

/-- What 60_exceptions.md R138 lets a command do to the device's ready flags: keep each, or clear it
by one of the commands that use that half of the device. -/
structure FlagsFollow (i : Instr) (s t : State) : Prop where
  tx : t.dev.txReady = s.dev.txReady ∨
    t.dev.txReady = false ∧ (i = .outb ∨ (∃ d, i = .hwwr d) ∨ i = .invoke)
  rx : t.dev.rxReady = s.dev.rxReady ∨
    t.dev.rxReady = false ∧ (i = .inb ∨ i = .hwrd ∨ i = .invoke)

theorem FlagsFollow.of_dev_eq (h : t.dev = s.dev) : FlagsFollow i s t :=
  ⟨.inl (by rw [h]), .inl (by rw [h])⟩

theorem putPort_dev (h : putPort f d s = .ok (t, r)) : t.dev = s.dev := by
  obtain ⟨-, rfl, -⟩ | ⟨-, -, rfl, -⟩ := putPort_ok h
  · rfl
  · exact State.setFifo_dev ..

theorem getPort_dev (h : getPort f s = .ok (t, r)) : t.dev = s.dev := by
  obtain ⟨-, rfl, -⟩ | ⟨-, -, _, -, rfl, -⟩ := getPort_ok h
  · rfl
  · exact State.setFifo_dev ..

theorem readOnly_dev {data : State → Byte} (h : readOnly data s = .ok (t, r)) :
    t.dev = s.dev := by
  cases h; rfl

theorem deviceWrite_flags (h : deviceWrite d s = .ok (t, r)) : FlagsFollow (.hwwr d) s t := by
  obtain ⟨-, rfl, -⟩ | ⟨-, rfl, -⟩ := deviceWrite_ok h
  · exact ⟨.inr ⟨rfl, .inr (.inl ⟨d, rfl⟩)⟩, .inl rfl⟩
  · exact .of_dev_eq rfl

theorem deviceRead_flags (h : deviceRead s = .ok (t, r)) : FlagsFollow .hwrd s t := by
  obtain ⟨-, _, -, rfl, -⟩ | ⟨-, rfl, -⟩ := deviceRead_ok h
  · exact ⟨.inl rfl, .inr ⟨rfl, .inr (.inl rfl)⟩⟩
  · exact .of_dev_eq rfl

theorem outputByte_flags (h : outputByte s = .ok (t, r)) : FlagsFollow .outb s t := by
  obtain ⟨-, rfl, -⟩ | ⟨-, -, rfl, -⟩ | ⟨-, -, -, _, -, rfl, -⟩ := outputByte_ok h
  · exact .of_dev_eq rfl
  · exact .of_dev_eq rfl
  · exact ⟨.inr ⟨rfl, .inl rfl⟩, .inl rfl⟩

theorem inputByte_flags (h : inputByte s = .ok (t, r)) : FlagsFollow .inb s t := by
  obtain ⟨-, rfl, -⟩ | ⟨-, _, -, ⟨-, -, rfl⟩ | ⟨-, -, -, hecho⟩⟩ := inputByte_ok h
  · exact .of_dev_eq rfl
  · exact ⟨.inl rfl, .inr ⟨rfl, .inl rfl⟩⟩
  · obtain ⟨-, -, hdev, -⟩ := echoByte_frame hecho
    exact ⟨.inl (by rw [hdev]; rfl), .inr ⟨by rw [hdev]; rfl, .inl rfl⟩⟩

theorem TransmitStep.txReady (h : TransmitStep s t pm) :
    t.dev.txReady = s.dev.txReady ∨ t.dev.txReady = false := by
  cases h with
  | skipped _ => exact .inl rfl
  | empty _ _ => exact .inl rfl
  | sent _ _ _ _ => exact .inr rfl

theorem ReceiveStep.rxReady (h : ReceiveStep ev s t pu) :
    t.dev.rxReady = s.dev.rxReady ∨ t.dev.rxReady = false := by
  cases ev with
  | false => obtain ⟨rfl, -⟩ := h.of_not_entered; exact .inl rfl
  | true => exact .inr h.takes

/-- Step 2 of an invocation works on the transmit half of the device only, step 3 on the receive
half only. -/
theorem invocation_flags (h : invocation s = .ok (v, r)) : FlagsFollow .invoke s v := by
  obtain ⟨t, pm, u, pu, ht, hu, rfl, -⟩ := invocation_stages h
  obtain ⟨-, -, -, -, hready, -⟩ := ht.frame
  constructor
  · rw [invokeApply_dev, hu.keepsTransmit.txReady]
    exact ht.txReady.imp_right fun h0 => ⟨h0, .inr (.inr rfl)⟩
  · rw [invokeApply_dev, ← hready]
    exact hu.rxReady.imp_right fun h0 => ⟨h0, .inr (.inr rfl)⟩

theorem exec_flags (h : exec i s = .next t) : FlagsFollow i s t := by
  rw [exec_command] at h
  obtain ⟨-, ⟨-, rfl⟩ | ⟨-, u, r, hb, rfl⟩⟩ := command_next h
  · exact .of_dev_eq rfl
  · suffices hu : FlagsFollow i s u from ⟨hu.tx, hu.rx⟩
    cases i with
    | put f d => exact .of_dev_eq (putPort_dev hb)
    | get f => exact .of_dev_eq (getPort_dev hb)
    | empty f v | full f v | dsize f v | trig | stat => exact .of_dev_eq (readOnly_dev hb)
    | eni e | disi e => cases hb; exact .of_dev_eq (State.setEnable_dev ..)
    | outb => exact outputByte_flags hb
    | inb => exact inputByte_flags hb
    | hwwr d => exact deviceWrite_flags hb
    | hwrd => exact deviceRead_flags hb
    | invoke => exact invocation_flags hb

/-- From `s` to `t` the device became ready in neither direction. -/
def RaisesNoFlag (s t : State) : Prop :=
  (t.dev.txReady = true → s.dev.txReady = true) ∧ (t.dev.rxReady = true → s.dev.rxReady = true)

theorem RaisesNoFlag.of_dev_eq (h : t.dev = s.dev) : RaisesNoFlag s t := by
  rw [RaisesNoFlag, h]; exact ⟨id, id⟩

theorem FlagsFollow.raisesNoFlag (h : FlagsFollow i s t) : RaisesNoFlag s t := by
  refine ⟨fun h1 => ?_, fun h1 => ?_⟩
  · obtain he | ⟨h0, -⟩ := h.tx
    · exact he.symm.trans h1
    · exact absurd h1 (by simp [h0])
  · obtain he | ⟨h0, -⟩ := h.rx
    · exact he.symm.trans h1
    · exact absurd h1 (by simp [h0])

theorem handleWord_raisesNoFlag (h : handleWord who w s = .next t) : RaisesNoFlag s t := by
  obtain ⟨i, -, hi⟩ | rfl := handleWord_cases h
  · exact (exec_flags (s := { s with issuer := who }) hi).raisesNoFlag
  · exact .of_dev_eq rfl

theorem fgStep_raisesNoFlag (h : fgStep s = .next t) : RaisesNoFlag s t := by
  obtain rfl | ⟨w, p, u, g, hu, rfl⟩ := fgStep_cases h
  · exact .of_dev_eq rfl
  · exact handleWord_raisesNoFlag (s := { s with fg := p }) (t := u) hu

theorem irqStep_raisesNoFlag (h : irqStep s = .next t) : RaisesNoFlag s t := by
  obtain ⟨-, rfl⟩ | ⟨-, v, r, hv, rfl⟩ := irqStep_cases h
  · exact .of_dev_eq rfl
  · exact (invocation_flags (s := { s with issuer := .irq }) (v := v) hv).raisesNoFlag

theorem devTxDone_rxReady (h : devTxDone s = .next t) : t.dev.rxReady = s.dev.rxReady := by
  obtain ⟨-, rfl⟩ | ⟨-, _, -, rfl⟩ := devTxDone_cases h <;> rfl

/-- Every move but the device's two steps and reset issues a command, or leaves the device alone. -/
theorem move_raisesNoFlag (h : move m s = .next t) :
    m = .agent .devTxDone ∨ (∃ b, m = .agent (.devRxArrive b)) ∨ m = .reset ∨ RaisesNoFlag s t := by
  cases m with
  | reset => simp
  | port who w => simp [handleWord_raisesNoFlag h]
  | agent a =>
    cases a with
    | devTxDone | devRxArrive b => simp
    | fg => simp [fgStep_raisesNoFlag h]
    | irq => simp [irqStep_raisesNoFlag h]
    | syncW2R f => cases h; exact .inr (.inr (.inr (.of_dev_eq syncW2R_dev)))
    | syncR2W f => cases h; exact .inr (.inr (.inr (.of_dev_eq (State.setFifo_dev ..))))

/-- A flag that a move raises is raised by the device, or by reset (60_exceptions.md R138). -/
theorem move_raised (h : move m s = .next t) :
    (s.dev.txReady = false → t.dev.txReady = true → m = .agent .devTxDone ∨ m = .reset) ∧
      (s.dev.rxReady = false → t.dev.rxReady = true → ∃ b, m = .agent (.devRxArrive b)) := by
  obtain rfl | ⟨b, rfl⟩ | rfl | ⟨htx, hrx⟩ := move_raisesNoFlag h
  · have hkeep := devTxDone_rxReady h
    exact ⟨fun _ _ => .inl rfl, fun h0 h1 => absurd h1 (by simp [hkeep, h0])⟩
  · have hkeep := (devRxArrive_keepsTransmit h).txReady
    exact ⟨fun h0 h1 => absurd h1 (by simp [hkeep, h0]), fun _ _ => ⟨b, rfl⟩⟩
  · cases h
    exact ⟨fun _ _ => .inr rfl, fun _ h1 => Bool.noConfusion h1⟩
  · exact ⟨fun h0 h1 => absurd (htx h1) (by simp [h0]),
      fun h0 h1 => absurd (hrx h1) (by simp [h0])⟩

/-- Settles O37: `move_raised` for the moves; a command that clears a flag does not keep it, so
`exec_flags` names it. -/
theorem onlyTheDeviceSetsItsReadyFlags : Obligations.OnlyTheDeviceSetsItsReadyFlags := by
  refine ⟨fun m s t h => move_raised h, fun i s t h => ?_⟩
  obtain ⟨htx, hrx⟩ := exec_flags h
  refine ⟨fun h1 h0 => ?_, fun h1 h0 => ?_⟩
  · exact (htx.resolve_left fun he => by simp [he, h1] at h0).2
  · exact (hrx.resolve_left fun he => by simp [he, h1] at h0).2

end Sys2Proof.Machine
end

section
/-!
Family 70_reset_and_hazards.md: reset and what it leaves (R143 to R149), each context at its own
ports (R150, R151, R155), which move a step takes (R161), quiescent states and the runs that reach
them (R163).
-/

namespace Sys2Proof.Machine

open Sys2Proof.Config (AgentStep)
open Filter (atTop)

variable {s t : State} {f : FifoId} {q : Fifo} {b d : Byte} {r : Reply} {i : Instr} {n : Nat}
variable {m : Move}

/-! ## Reset -/

/-- Settles O40: the table of R144 is the state itself, and its cursors are all 0. -/
theorem resetLeavesTheTable : Obligations.ResetLeavesTheTable := by
  refine ⟨fun f => ?_, rfl, rfl, rfl, rfl, rfl, rfl, rfl, rfl, rfl, rfl, rfl, rfl⟩
  have hf : State.reset.fifo f = Fifo.reset := by cases f <;> rfl
  rw [hf]
  refine ⟨Memory.read_nil, rfl, rfl, rfl, rfl, rfl, rfl, rfl, rfl, rfl, rfl, rfl, rfl, rfl, rfl,
    fun v => ?_⟩
  cases f <;> cases v <;> decide

/-- Settles O41: the reset event writes the table of R144. -/
theorem resetEventResetsTheWholeBlock : Obligations.ResetEventResetsTheWholeBlock :=
  fun s => ⟨resetEvent s, rfl, ⟨rfl, rfl, rfl, rfl, rfl⟩, rfl, rfl⟩

/-- Settles O42: the flags, stages and device registers of the table of R144. -/
theorem cleanResetMeansNothingPending : Obligations.CleanResetMeansNothingPending := by
  rintro s ⟨htx, hrx, -, hdev, hdiag⟩
  have hf (f : FifoId) : s.fifo f = Fifo.reset := by cases f <;> assumption
  rw [hdev, hdiag]
  exact ⟨rfl, rfl, rfl, fun f => by rw [hf f]; exact ⟨rfl, rfl, rfl, rfl⟩, rfl, rfl⟩

/-! ## Each context at its own ports -/

/-- The foreground does nothing to RX but to pop it: its one command on RX that writes is `GET RX`
(30_encoding.md R86, 70_reset_and_hazards.md R151). -/
theorem exec_fg_rx (hi : s.issuer = .fg) (h : exec i s = .next t) :
    t.rx = s.rx ∨ ∃ n, t.rx = s.rx.popped n := by
  rw [exec_command] at h
  obtain ⟨-, ⟨-, rfl⟩ | ⟨hmay, u, r, hb, rfl⟩⟩ := command_next h
  · exact .inl rfl
  · rw [State.respond_rx]
    rw [hi, (mayIssue_iff i).1] at hmay
    have read {data : State → Byte} (h : readOnly data s = .ok (u, r)) :
        u.rx = s.rx ∨ ∃ n, u.rx = s.rx.popped n := .inl (readOnly_fifo h .rx)
    rcases hmay with ⟨d, rfl⟩ | rfl | rfl | rfl | rfl | rfl | rfl | rfl | rfl | rfl | rfl
    · obtain ⟨-, rfl, -⟩ | ⟨-, -, rfl, -⟩ := putPort_ok hb <;> exact .inl rfl
    · obtain ⟨-, rfl, -⟩ | ⟨-, -, _, -, rfl, -⟩ := getPort_ok hb
      · exact .inl rfl
      · exact .inr ⟨_, rfl⟩
    · exact read hb
    · exact read hb
    · exact read hb
    · exact read hb
    · exact read hb
    · exact read hb
    · cases hb; exact .inl rfl
    · exact read hb
    · exact read hb

/-- A command leaves the read port of RX alone: its cursor and that cursor's gray code. -/
def KeepsRxReader (s t : State) : Prop := t.rx.rbin = s.rx.rbin ∧ t.rx.rgray = s.rx.rgray

theorem KeepsRxReader.of_eq (h : t.rx = s.rx) : KeepsRxReader s t := by
  rw [KeepsRxReader, h]; exact ⟨rfl, rfl⟩

theorem putPort_keepsRxReader (h : putPort f d s = .ok (t, r)) : KeepsRxReader s t := by
  obtain ⟨-, rfl, -⟩ | ⟨-, -, rfl, -⟩ := putPort_ok h
  · exact .of_eq rfl
  · cases f <;> exact ⟨rfl, rfl⟩

theorem getPort_tx_keepsRxReader (h : getPort .tx s = .ok (t, r)) : KeepsRxReader s t := by
  obtain ⟨-, rfl, -⟩ | ⟨-, -, _, -, rfl, -⟩ := getPort_ok h <;> exact .of_eq rfl

theorem outputByte_rx (h : outputByte s = .ok (t, r)) : t.rx = s.rx := by
  obtain ⟨-, rfl, -⟩ | ⟨-, -, rfl, -⟩ | ⟨-, -, -, _, -, rfl, -⟩ := outputByte_ok h <;> rfl

theorem inputByte_keepsRxReader (h : inputByte s = .ok (t, r)) : KeepsRxReader s t := by
  obtain ⟨-, rfl, -⟩ | ⟨-, _, -, ⟨-, -, rfl⟩ | ⟨-, -, -, hecho⟩⟩ := inputByte_ok h
  · exact .of_eq rfl
  · exact .of_eq rfl
  · obtain ⟨hrx, -⟩ := echoByte_frame hecho
    rw [KeepsRxReader, hrx]
    exact ⟨rfl, rfl⟩

theorem invocation_keepsRxReader (h : invocation s = .ok (t, r)) : KeepsRxReader s t := by
  obtain ⟨w, pm, u, pu, hw, hu, rfl, -⟩ := invocation_ok h
  rw [KeepsRxReader, invokeApply_eq]
  have hwrx : w.rx = s.rx := by
    obtain ⟨-, rfl, -⟩ | ⟨-, _, hout, -⟩ := invokeTransmit_ok hw
    · rfl
    · exact outputByte_rx hout
  rw [← hwrx]
  obtain ⟨-, rfl, -⟩ | ⟨-, _, hin, -⟩ := invokeReceive_ok hu
  · exact ⟨rfl, rfl⟩
  · exact inputByte_keepsRxReader (t := u) hin

/-- Of the commands only `GET RX` moves the read cursor of RX (20_memory.md R69). -/
theorem exec_keepsRxReader (h : exec i s = .next t) (hi : mayIssue s.issuer (.get .rx) = false) :
    KeepsRxReader s t := by
  rw [exec_command] at h
  obtain ⟨-, ⟨-, rfl⟩ | ⟨hmay, u, r, hb, rfl⟩⟩ := command_next h
  · exact .of_eq rfl
  · suffices hu : KeepsRxReader s u from hu
    cases i with
    | put f d => exact putPort_keepsRxReader hb
    | get f =>
      cases f with
      | tx => exact getPort_tx_keepsRxReader hb
      | rx => exact absurd hmay (by simp [hi])
    | empty f v | full f v | dsize f v | trig | stat => exact .of_eq (readOnly_fifo hb .rx)
    | eni e | disi e => cases hb; exact .of_eq (State.setEnable_rx ..)
    | outb => exact .of_eq (outputByte_rx hb)
    | inb => exact inputByte_keepsRxReader hb
    | hwwr d => exact .of_eq (deviceWrite_fifo hb .rx)
    | hwrd => exact .of_eq (deviceRead_fifo hb .rx)
    | invoke => exact invocation_keepsRxReader hb

/-- Settles O18: `exec_fgEffect` and `exec_fg_rx` for the foreground; and only the foreground may
issue `GET RX`. -/
theorem eachContextKeepsToItsPorts : Obligations.EachContextKeepsToItsPorts := by
  refine fun i s t h => ⟨fun hi => ?_, fun hi => ?_⟩
  · obtain ⟨hdev, htx, hier⟩ := exec_fgEffect hi h
    have hrbin : t.tx.rbin = s.tx.rbin := by
      obtain htx | ⟨_, _, htx⟩ := htx <;> rw [htx]
      exact Fifo.pushed_rbin ..
    have hrx : t.rx.wbin = s.rx.wbin ∧ t.rx.mem = s.rx.mem := by
      obtain hrx | ⟨_, hrx⟩ := exec_fg_rx hi h <;> rw [hrx] <;> exact ⟨rfl, rfl⟩
    obtain hier | ⟨-, hier⟩ := hier <;> rw [hier]
    · exact ⟨hrbin, hrx.1, hrx.2, hdev, rfl, id⟩
    · exact ⟨hrbin, hrx.1, hrx.2, hdev, rfl, fun _ => rfl⟩
  · refine exec_keepsRxReader h ?_
    cases hw : s.issuer with
    | fg => exact absurd hw hi
    | disp | irq => rfl

/-! ## Crossing to the other side -/

/-- What an answered `PUT` did (40_fifo_core.md R96). -/
theorem exec_put_ok (h : exec (.put f d) s = .next t) (hr : t.response = some 0x0000) :
    fullW s f = false ∧
      t = (s.setFifo f ((s.fifo f).pushed (s.cap f) d)).respond Status.ok.reply := by
  obtain ⟨-, ⟨-, rfl⟩ | ⟨-, u, r, hb, rfl⟩⟩ := command_next (body := putPort f d) h
  · exact absurd (Option.some.inj hr) (by decide)
  · obtain ⟨-, rfl, rfl⟩ | ⟨hf, -, rfl, rfl⟩ := putPort_ok hb
    · exact absurd (Option.some.inj hr) (by decide)
    · exact ⟨hf, rfl⟩

/-- What an answered `GET` did (40_fifo_core.md R97). -/
theorem exec_get_ok (h : exec (.get f) s = .next t) (hr : t.response = some (b ++ 0x00#8)) :
    emptyR s f = false ∧
      ∃ r, t = (s.setFifo f ((s.fifo f).popped (s.cap f))).respond r := by
  obtain ⟨-, ⟨-, rfl⟩ | ⟨-, u, r, hb, rfl⟩⟩ := command_next (body := getPort f) h
  · exact absurd (Option.some.inj hr).symm (append_status_ne b 0x00#8 (st' := 0x0F#8) (by decide))
  · obtain ⟨-, rfl, rfl⟩ | ⟨he, -, v, -, rfl, rfl⟩ := getPort_ok hb
    · exact absurd (Option.some.inj hr).symm
        (append_status_ne b 0x00#8 (st' := 0x02#8) (by decide))
    · exact ⟨he, _, rfl⟩

/-- Settles O34: in counts the read-side view is `Wq2 - R` and the write-side view `W - Rq2`, and a
new count reaches `Wq2` or `Rq2` at the second step. -/
theorem changesCrossAtTheSecondSync : Obligations.ChangesCrossAtTheSecondSync := by
  constructor
  · intro f d s t hs h hr
    obtain ⟨hf, rfl⟩ := exec_put_ok h hr
    obtain ⟨c1, c2, c3, c4, c5, c6⟩ := hs.chain f
    have ht := (hs.pushed hf d).respond Status.ok.reply
    refine ⟨_, _, rfl, rfl, ?_⟩
    have hu := (ht.afterSyncW2R f).quiet
    have hv := (hu.afterSyncW2R f).quiet
    rw [ht.dsizeR_eq, ht.occ_eq, hu.dsizeR_eq, hu.occ_eq, hv.dsizeR_eq, hv.occ_eq]
    simp only [State.quiet_fifo, syncW2R_fifo_same, State.respond_fifo, State.fifo_setFifo_same,
      Fifo.clockedW2R, Fifo.pushed, and_true]
    omega
  · intro f b s t hs h hr
    obtain ⟨he, r, rfl⟩ := exec_get_ok h hr
    obtain ⟨c1, c2, c3, c4, c5, c6⟩ := hs.chain f
    have hlt := hs.r_lt_wq2 he
    have ht := (hs.popped he).respond r
    refine ⟨_, _, rfl, rfl, ?_⟩
    have hu := (ht.afterSyncR2W f).quiet
    have hv := (hu.afterSyncR2W f).quiet
    rw [ht.dsizeW_eq, ht.occ_eq, hu.dsizeW_eq, hu.occ_eq, hv.dsizeW_eq, hv.occ_eq]
    simp only [State.quiet_fifo, syncR2W, State.respond_fifo, State.fifo_setFifo_same,
      Fifo.clockedR2W, Fifo.popped, and_true]
    omega

/-! ## The echo -/

/-- The write side has room exactly when it shows at most N - 2 bytes (70_reset_and_hazards.md
R155). -/
theorem State.Inv.fullW_eq_false_iff (h : s.Inv) (f : FifoId) :
    fullW s f = false ↔ dsizeW s f < s.cap f - 1 := by
  obtain ⟨c1, c2, c3, c4, c5, c6⟩ := h.chain f
  have hcap := h.cap2 f
  rw [Bool.eq_false_iff, Ne, h.fullW_iff f, h.dsizeW_eq f]
  omega

/-- Settles O51: the receive push leaves TX as it is, so the echo push finds the view of `s`. -/
theorem echoNeedsRoomInTheWriteSideView : Obligations.EchoNeedsRoomInTheWriteSideView := by
  intro s hs hi he hr hf
  obtain ⟨b, hb⟩ := hs.rdr hr
  have hmay : mayIssue s.issuer .inb = true := by rw [hi]; rfl
  cases hroom : fullW s .tx with
  | false =>
    have hx := exec_inb_store hs.1 hmay hr hb hf (hs.wbin_lt .rx)
      (echoByte_store he hroom (hs.wbin_lt .tx))
    have hlt := (hs.fullW_eq_false_iff .tx).mp hroom
    exact ⟨_, b, hx, hb, rfl, rfl, fun _ => ⟨rfl, rfl⟩, fun hn => absurd hlt hn⟩
  | true =>
    have hx := exec_inb_store hs.1 hmay hr hb hf (hs.wbin_lt .rx) (echoByte_full he hroom)
    have hge : ¬ dsizeW s .tx < s.cap .tx - 1 := fun hlt =>
      absurd ((hs.fullW_eq_false_iff .tx).mpr hlt) (by simp [hroom])
    exact ⟨_, b, hx, hb, rfl, rfl, fun hlt => absurd hlt hge, fun _ => ⟨rfl, rfl⟩⟩

/-! ## Settled FIFOs -/

theorem grayOfCount_inj (h2 : 2 ≤ n) (h : n ≤ 256) {a b : Nat} (hab : a ≤ b) (hd : b - a < n)
    (he : grayOfCount n a = grayOfCount n b) : a = b :=
  (ofCount_inj h2 h hab hd).mp (gray_injective he)

/-- In a settled FIFO nothing is in flight: every synchronised count is its source
(70_reset_and_hazards.md R163). The stages fix the counts because of the chain of 20_memory.md
R63. -/
theorem Fifo.counts_of_settled (h2 : 2 ≤ n) (h : n ≤ 256) (hi : q.Inv n) (hs : q.settled) :
    q.ghost.wq1 = q.ghost.w ∧ q.ghost.wq2 = q.ghost.w ∧
      q.ghost.rq1 = q.ghost.r ∧ q.ghost.rq2 = q.ghost.r := by
  obtain ⟨⟨c1, c2, c3, c4, c5, c6⟩, ⟨hw, hwg, hr, hrg, hq1, hq2, hv1, hv2⟩, -⟩ := hi
  obtain ⟨s1, s2, s3, s4⟩ := hs
  rw [hwg, hw] at s1 s2
  rw [hrg, hr] at s3 s4
  exact ⟨grayOfCount_inj h2 h c5 (by omega) (hq1.symm.trans s1),
    grayOfCount_inj h2 h (c4.trans c5) (by omega) (hq2.symm.trans s2),
    grayOfCount_inj h2 h c2 (by omega) (hv1.symm.trans s3),
    grayOfCount_inj h2 h (c1.trans c2) (by omega) (hv2.symm.trans s4)⟩

theorem Fifo.clockedW2R_of_settled (h2 : 2 ≤ n) (h : n ≤ 256) (hi : q.Inv n) (hs : q.settled) :
    q.clockedW2R = q := by
  obtain ⟨hw1, hw2, -, -⟩ := Fifo.counts_of_settled h2 h hi hs
  obtain ⟨s1, s2, -, -⟩ := hs
  calc q.clockedW2R
      = { q with rq2 := q.rq2, rq1 := q.rq1,
                 ghost := { q.ghost with wq2 := q.ghost.wq2, wq1 := q.ghost.wq1 } } := by
        simp [Fifo.clockedW2R, s1, s2, hw1, hw2]
    _ = q := rfl

theorem Fifo.clockedR2W_of_settled (h2 : 2 ≤ n) (h : n ≤ 256) (hi : q.Inv n) (hs : q.settled) :
    q.clockedR2W = q := by
  obtain ⟨-, -, hr1, hr2⟩ := Fifo.counts_of_settled h2 h hi hs
  obtain ⟨-, -, s3, s4⟩ := hs
  calc q.clockedR2W
      = { q with wq2 := q.wq2, wq1 := q.wq1,
                 ghost := { q.ghost with rq2 := q.ghost.rq2, rq1 := q.ghost.rq1 } } := by
        simp [Fifo.clockedR2W, s3, s4, hr1, hr2]
    _ = q := rfl

/-- In a settled FIFO a synchroniser step changes nothing, and TX's is no arrival
(42_interrupt_mask.md R114). -/
theorem State.Inv.syncW2R_of_settled (h : s.Inv) (hs : ∀ f, (s.fifo f).settled) (f : FifoId) :
    syncW2R f s = s := by
  have htx : s.tx.rq1 = s.tx.rq2 := (hs .tx).1.trans (hs .tx).2.1.symm
  rw [syncW2R_eq, Fifo.clockedW2R_of_settled (h.cap2 f) (h.cap256 f) (h.fifo f) (hs f),
    State.setFifo_self, htx]
  simp

theorem State.Inv.syncR2W_of_settled (h : s.Inv) (hs : (s.fifo f).settled) :
    syncR2W f s = s := by
  rw [syncR2W, Fifo.clockedR2W_of_settled (h.cap2 f) (h.cap256 f) (h.fifo f) hs,
    State.setFifo_self]

/-! ## Quiescent states -/

theorem State.Quiescent.settled (h : s.Quiescent) : ∀ f, (s.fifo f).settled := by
  obtain ⟨-, -, -, htx, hrx⟩ := h
  rintro (_ | _)
  · exact htx
  · exact hrx

/-- A ready device that requests no interrupt is masked (10_state.md R28). -/
theorem txEn_of_no_request (hr : s.dev.txReady = true) (hq : irq s = false) :
    s.ier.txEn = false := by
  simp only [irq, triggeredTx, hr, Bool.true_and, Bool.or_eq_false_iff] at hq
  exact hq.1

theorem State.Quiescent.txEn (h : s.Quiescent) : s.ier.txEn = false := by
  obtain ⟨-, hirq, hready, -, -⟩ := h
  exact txEn_of_no_request hready hirq

/-- Masked, the read side of TX shows nothing (R117), and settled it shows all that was put. -/
theorem State.RunInv.drained_of_quiescent (hs : s.RunInv) (h : s.Quiescent) :
    s.tx.ghost.r = s.tx.ghost.w := by
  obtain ⟨hinv, -, -, hmask, -⟩ := hs
  obtain ⟨-, hw2, -, -⟩ :=
    Fifo.counts_of_settled (hinv.cap2 .tx) (hinv.cap256 .tx) (hinv.fifo .tx) (h.settled .tx)
  exact (hmask h.txEn).trans hw2

theorem State.RunInv.lineOut_of_quiescent (hs : s.RunInv) (h : s.Quiescent) :
    s.dev.lineOut = s.tx.ghost.puts := by
  have hrw := hs.drained_of_quiescent h
  obtain ⟨-, -, hready, -, -⟩ := h
  obtain ⟨hinv, -, -, -, htaken⟩ := hs
  rwa [Dev.inHand_of_ready hready, List.append_nil, hrw, ← hinv.puts_length,
    List.take_length] at htaken

theorem fgStep_dropped (h : s.fg.program = []) : fgStep s = .next s.quiet := by
  simp [fgStep, h, notEnabled]

/-- From a quiescent state `FG`, `IRQ` and `DEV_TX` are not enabled, and the synchronisers have
nothing to carry (70_reset_and_hazards.md R163). -/
theorem State.Quiescent.agentStep_eq (h : s.Quiescent) (hs : s.Inv) {a : AgentStep}
    (ha : ∀ b, a ≠ .devRxArrive b) : agentStep a s = .next s.quiet := by
  have hsettled := h.settled
  obtain ⟨⟨hprog, -⟩, hirq, hready, -, -⟩ := h
  cases a with
  | fg => exact fgStep_dropped hprog
  | irq => exact irqStep_dropped hirq
  | devTxDone => exact devTxDone_dropped hready
  | devRxArrive b => exact absurd rfl (ha b)
  | syncW2R f => rw [agentStep, hs.syncW2R_of_settled hsettled]
  | syncR2W f => rw [agentStep, hs.syncR2W_of_settled (hsettled f)]

/-- Settles O55: settled and masked, TX is empty; `State.Quiescent.agentStep_eq` for the steps. -/
theorem quiescentMeansEverythingSent : Obligations.QuiescentMeansEverythingSent := by
  intro s hs h
  refine ⟨?_, hs.lineOut_of_quiescent h, fun a ha => h.agentStep_eq hs.1 ha⟩
  rw [hs.1.occ_eq, State.fifo_tx, hs.drained_of_quiescent h, Nat.sub_self]

/-! ## The step and its next move -/

theorem step_of_empty_agenda (h : s.agenda = []) :
    step s =
      whenAdmitted s (move (.agent (Config.freeStep s.tick)) { s with tick := s.tick + 1 }) := by
  simp [step, nextMove, h]

/-- Settles O6: the two cases of `nextMove`. -/
theorem stepTakesTheNextMove : Obligations.StepTakesTheNextMove := by
  refine ⟨fun s m rest hp ha => ?_, fun s hp ha => ?_⟩
  · rw [step_of_agenda ha, whenAdmitted_admitted hp]
  · rw [step_of_empty_agenda ha, whenAdmitted_admitted hp]

/-- The next move is taken off the agenda, or the tick advances; nothing else changes. -/
theorem nextMove_frame (s : State) : (nextMove s).2 =
    { s with agenda := (nextMove s).2.agenda, tick := (nextMove s).2.tick } := by
  unfold nextMove
  split <;> rfl

theorem agent_of_not_fromOutside (h : m.fromOutside = false) :
    ∃ a : AgentStep, m = .agent a ∧ ∀ b, a ≠ .devRxArrive b := by
  cases m with
  | reset | port who w => cases h
  | agent a => exact ⟨a, rfl, by rintro b rfl; cases h⟩

/-- What comes next in a state that awaits nothing is an agent's step; and what comes after it is
nothing from outside either. -/
theorem State.awaitsNothing.afterNextMove (h : s.awaitsNothing) :
    (∃ a, (nextMove s).1 = .agent a) ∧ (nextMove s).2.awaitsNothing := by
  obtain ⟨hprog, hag⟩ := h
  unfold nextMove
  split
  · rename_i m rest ha
    rw [ha] at hag
    obtain ⟨a, ha, -⟩ := agent_of_not_fromOutside (hag m List.mem_cons_self)
    exact ⟨⟨a, ha⟩, hprog, fun x hx => hag x (List.mem_cons_of_mem _ hx)⟩
  · exact ⟨⟨_, rfl⟩, hprog, hag⟩

theorem State.Quiescent.afterMove (h : s.Quiescent) (hs : s.Inv) (hm : m.fromOutside = false)
    (hmove : move m s = .next t) : t.Quiescent := by
  obtain ⟨a, rfl, ha⟩ := agent_of_not_fromOutside hm
  rw [move, h.agentStep_eq hs ha] at hmove
  cases hmove
  exact h

theorem State.Quiescent.afterNextMove (h : s.Quiescent) : (nextMove s).2.Quiescent := by
  obtain ⟨haw, hrest⟩ := h
  obtain ⟨-, haw⟩ := haw.afterNextMove
  refine ⟨haw, ?_⟩
  rw [nextMove_frame]
  exact hrest

/-- Settles O59: the next move is an agent's step, and `State.Quiescent.agentStep_eq` says that it
changes nothing. -/
theorem quiescentStepsChangeNothing : Obligations.QuiescentStepsChangeNothing := by
  intro s hs h hb
  obtain ⟨⟨a, ha⟩, -⟩ := h.1.afterNextMove
  have hn := h.afterNextMove
  have hmove : move (nextMove s).1 (nextMove s).2 = .next (nextMove s).2.quiet := by
    rw [ha]
    exact hn.agentStep_eq hs.1.afterNextMove fun b hab => hb b (by rw [ha, hab])
  refine ⟨_, (whenAdmitted_admitted hs.1.1 _).trans hmove, hn, ?_⟩
  exact congrArg State.quiet (nextMove_frame s)

/-! ## Moves of an idle foreground -/

/-- What the synchroniser step `m`, if it is one of FIFO `f`, does to it (20_memory.md R52, R53). -/
def Move.clocks (m : Move) (f : FifoId) (q : Fifo) : Fifo :=
  if m = .agent (.syncW2R f) then q.clockedW2R
  else if m = .agent (.syncR2W f) then q.clockedR2W
  else q

theorem Move.clocks_syncW2R : Move.clocks (.agent (.syncW2R f)) f q = q.clockedW2R := if_pos rfl

theorem Move.clocks_syncR2W : Move.clocks (.agent (.syncR2W f)) f q = q.clockedR2W := by
  rw [Move.clocks, if_neg (by simp), if_pos rfl]

/-- No synchroniser step moves a cursor, or puts or pops a byte. -/
theorem Move.clocks_frame (m : Move) (f : FifoId) (q : Fifo) :
    (m.clocks f q).wgray = q.wgray ∧ (m.clocks f q).rgray = q.rgray ∧
      (m.clocks f q).ghost.w = q.ghost.w := by
  unfold Move.clocks
  split
  · exact ⟨rfl, rfl, rfl⟩
  · split <;> exact ⟨rfl, rfl, rfl⟩

/-- The read-side stages change only by `SYNC_W2R` (20_memory.md R52). -/
theorem Move.clocks_readStages (h : m ≠ .agent (.syncW2R f)) :
    (m.clocks f q).rq1 = q.rq1 ∧ (m.clocks f q).rq2 = q.rq2 := by
  rw [Move.clocks, if_neg h]
  split <;> exact ⟨rfl, rfl⟩

/-- The write-side stages change only by `SYNC_R2W` (20_memory.md R53). -/
theorem Move.clocks_writeStages (h : m ≠ .agent (.syncR2W f)) :
    (m.clocks f q).wq1 = q.wq1 ∧ (m.clocks f q).wq2 = q.wq2 := by
  rw [Move.clocks, if_neg h]
  split <;> exact ⟨rfl, rfl⟩

theorem Move.clocks_of_not_sync (hw : m ≠ .agent (.syncW2R f)) (hr : m ≠ .agent (.syncR2W f)) :
    m.clocks f q = q := by
  rw [Move.clocks, if_neg hw, if_neg hr]

theorem syncW2R_clocks (f g : FifoId) (s : State) :
    (syncW2R f s).fifo g = Move.clocks (.agent (.syncW2R f)) g (s.fifo g) := by
  rw [syncW2R_eq]
  cases f <;> cases g <;> rfl

theorem syncR2W_clocks (f g : FifoId) (s : State) :
    (syncR2W f s).fifo g = Move.clocks (.agent (.syncR2W f)) g (s.fifo g) := by
  cases f <;> cases g <;> rfl

theorem fgStep_idle (hprog : s.fg.program = []) (h : fgStep s = .next t) : t = s.quiet := by
  rw [fgStep_dropped hprog] at h
  cases h; rfl

theorem irqStep_fg (h : irqStep s = .next t) : t.fg = s.fg := by
  obtain ⟨-, rfl⟩ | ⟨-, v, r, hv, rfl⟩ := irqStep_cases h
  · rfl
  · obtain ⟨-, hfg, -⟩ := State.outside_eq_iff.mp (invocation_outside hv)
    exact hfg

/-- With no next command the host's foreground stays as it is. -/
theorem move_keeps_awaitsNothing (ha : s.awaitsNothing) (hm : m.fromOutside = false)
    (h : move m s = .next t) : t.awaitsNothing := by
  have hag := move_agenda h
  suffices hfg : t.fg = s.fg by
    rw [State.awaitsNothing, hfg, hag]; exact ha
  obtain ⟨a, rfl, harr⟩ := agent_of_not_fromOutside hm
  cases a with
  | fg => rw [fgStep_idle ha.1 h]; rfl
  | irq => exact irqStep_fg h
  | devTxDone => obtain ⟨-, rfl⟩ | ⟨-, b, -, rfl⟩ := devTxDone_cases h <;> rfl
  | devRxArrive b => exact absurd rfl (harr b)
  | syncW2R f => cases h; rw [State.quiet_fg, syncW2R_frame]; exact State.setFifo_fg ..
  | syncR2W f => cases h; exact State.setFifo_fg ..

theorem move_keeps_no_byte (hm : m.fromOutside = false) (h : move m s = .next t)
    (hrx : s.dev.rxReady = false) : t.dev.rxReady = false := by
  obtain ⟨a, rfl, harr⟩ := agent_of_not_fromOutside hm
  by_contra hne
  obtain ⟨b, hb⟩ := (move_raised h).2 hrx (eq_true_of_ne_false hne)
  exact harr b (Move.agent.inj hb)

/-- With no byte waiting at the device an invocation touches no FIFO but to pop TX
(42_interrupt_mask.md R112). -/
theorem irqStep_idle_fifo (hrx : s.dev.rxReady = false) (h : irqStep s = .next t) (f : FifoId) :
    t.fifo f = s.fifo f ∨
      f = .tx ∧ emptyR s .tx = false ∧ t.fifo f = (s.fifo f).popped (s.cap f) := by
  obtain ⟨-, rfl⟩ | ⟨-, v, r, hv, rfl⟩ := irqStep_cases h
  · exact .inl (State.quiet_fifo ..)
  obtain ⟨w, pm, u, pu, ht, hu, rfl, -⟩ := invocation_stages hv
  have hev : triggeredRx { s with issuer := .irq } = false := by simp [triggeredRx, hrx]
  rw [hev] at hu
  obtain ⟨rfl, -⟩ := hu.of_not_entered
  rw [State.respond_fifo, invokeApply_fifo]
  cases ht with
  | skipped _ => exact .inl (by cases f <;> rfl)
  | empty _ _ => exact .inl (by cases f <;> rfl)
  | sent _ he _ _ =>
    cases f with
    | tx => exact .inr ⟨rfl, he, rfl⟩
    | rx => exact .inl rfl

/-- While the foreground has no next command and no byte waits or arrives, a FIFO changes only by
the steps of its synchronisers and, on TX, by pops (70_reset_and_hazards.md R163). -/
theorem move_idle_fifo (hprog : s.fg.program = []) (hrx : s.dev.rxReady = false)
    (hm : m.fromOutside = false) (h : move m s = .next t) (f : FifoId) :
    t.fifo f = m.clocks f (s.fifo f) ∨
      f = .tx ∧ emptyR s .tx = false ∧ t.fifo f = (s.fifo f).popped (s.cap f) := by
  obtain ⟨a, rfl, harr⟩ := agent_of_not_fromOutside hm
  cases a with
  | fg =>
    rw [fgStep_idle hprog h, Move.clocks_of_not_sync (by simp) (by simp)]
    exact .inl (State.quiet_fifo ..)
  | irq =>
    rw [Move.clocks_of_not_sync (by simp) (by simp)]
    exact irqStep_idle_fifo hrx h f
  | devTxDone =>
    rw [Move.clocks_of_not_sync (by simp) (by simp)]
    obtain ⟨-, rfl⟩ | ⟨-, b, -, rfl⟩ := devTxDone_cases h <;> exact .inl (by cases f <;> rfl)
  | devRxArrive b => exact absurd rfl (harr b)
  | syncW2R g => cases h; exact .inl (syncW2R_clocks g f s)
  | syncR2W g => cases h; exact .inl (syncR2W_clocks g f s)

theorem move_idle_w (hprog : s.fg.program = []) (hrx : s.dev.rxReady = false)
    (hm : m.fromOutside = false) (h : move m s = .next t) :
    t.tx.ghost.w = s.tx.ghost.w := by
  obtain he | ⟨-, -, he⟩ := move_idle_fifo hprog hrx hm h .tx
  · obtain ⟨-, -, hw⟩ := m.clocks_frame .tx s.tx
    exact (congrArg (·.ghost.w) he).trans hw
  · exact congrArg (·.ghost.w) he

/-- Where all that was put is popped, the read side shows nothing (20_memory.md R63). -/
theorem State.Inv.emptyR_of_drained (h : s.Inv) (hrw : s.tx.ghost.r = s.tx.ghost.w) :
    emptyR s .tx = true := by
  obtain ⟨-, -, c3, c4, c5, -⟩ := h.chain .tx
  rw [State.fifo_tx] at c3 c4 c5
  exact (h.emptyR_iff .tx).mpr (by rw [State.fifo_tx]; omega)

/-- The pop of an empty view fails, so an invocation leaves a ready device ready. -/
theorem irqStep_keeps_ready (he : emptyR s .tx = true) (h : irqStep s = .next t)
    (hr : s.dev.txReady = true) : t.dev.txReady = true := by
  obtain ⟨-, rfl⟩ | ⟨-, v, r, hv, rfl⟩ := irqStep_cases h
  · exact hr
  obtain ⟨w, pm, u, pu, ht, hu, rfl, -⟩ := invocation_stages hv
  rw [State.respond_dev, invokeApply_dev, hu.keepsTransmit.txReady]
  cases ht with
  | skipped _ => exact hr
  | empty _ _ => exact hr
  | sent _ hne _ _ => exact absurd (he.symm.trans hne) (by decide)

/-! ## From some state on -/

/-- What every late step keeps, and late states have again and again, holds from some state on. -/
theorem eventually_of_step {P : Nat → Prop} (hstep : ∀ᶠ n in atTop, P n → P (n + 1))
    (hex : ∃ᶠ n in atTop, P n) : ∀ᶠ n in atTop, P n := by
  obtain ⟨k, hk⟩ := Filter.eventually_atTop.mp hstep
  obtain ⟨j, hj, hP⟩ := Filter.frequently_atTop.mp hex k
  refine Filter.eventually_atTop.mpr ⟨j, fun n hn => ?_⟩
  induction n, hn using Nat.le_induction with
  | base => exact hP
  | succ n hn ih => exact hk n (hj.trans hn) ih

theorem frequently_of_succ {P : Nat → Prop} (h : ∃ᶠ n in atTop, P (n + 1)) : ∃ᶠ n in atTop, P n :=
  (Filter.tendsto_add_atTop_nat 1).frequently h

/-- A stage `y` behind a source `x` that stands still from some step on: clocked again and again, it
comes to hold what the source holds (20_memory.md R52, R53). -/
theorem stage_settles {x y : Nat → Cursor} {clocked : Nat → Prop}
    (hsource : ∀ᶠ n in atTop, x (n + 1) = x n)
    (hshift : ∀ᶠ n in atTop, clocked n → y (n + 1) = x n)
    (hkeep : ∀ᶠ n in atTop, ¬ clocked n → y (n + 1) = y n)
    (hinf : ∃ᶠ n in atTop, clocked n) : ∀ᶠ n in atTop, y n = x n := by
  refine eventually_of_step ?_ (frequently_of_succ ?_)
  · filter_upwards [hsource, hshift, hkeep] with n hx hs hk hn
    by_cases hc : clocked n
    · rw [hx, hs hc]
    · rw [hx, hk hc, hn]
  · refine (hinf.and_eventually (hsource.and hshift)).mono fun n ⟨hc, hx, hs⟩ => ?_
    rw [hx, hs hc]

/-- Two stages in a row: once the first has settled, it is a source that stands still. -/
theorem stages_settle {x y z : Nat → Cursor} {clocked : Nat → Prop}
    (hsource : ∀ᶠ n in atTop, x (n + 1) = x n)
    (hshift : ∀ᶠ n in atTop, clocked n → y (n + 1) = x n ∧ z (n + 1) = y n)
    (hkeep : ∀ᶠ n in atTop, ¬ clocked n → y (n + 1) = y n ∧ z (n + 1) = z n)
    (hinf : ∃ᶠ n in atTop, clocked n) : ∀ᶠ n in atTop, y n = x n ∧ z n = x n := by
  have hy : ∀ᶠ n in atTop, y n = x n :=
    stage_settles hsource (hshift.mono fun n h hc => (h hc).1) (hkeep.mono fun n h hc => (h hc).1)
      hinf
  have hstill : ∀ᶠ n in atTop, y (n + 1) = y n := by
    filter_upwards [hshift, hkeep, hy] with n hs hk hyn
    by_cases hc : clocked n
    · rw [(hs hc).1, hyn]
    · exact (hk hc).1
  have hz : ∀ᶠ n in atTop, z n = y n :=
    stage_settles hstill (hshift.mono fun n h hc => (h hc).2) (hkeep.mono fun n h hc => (h hc).2)
      hinf
  filter_upwards [hy, hz] with n hyn hzn
  exact ⟨hyn, hzn.trans hyn⟩

/-! ## Fair runs whose foreground and device stop -/

/-- Nothing is to come, no byte waits at the device, and TX is popped empty. -/
structure State.Drained (s : State) : Prop where
  awaits : s.awaitsNothing
  noByte : s.dev.rxReady = false
  popped : s.tx.ghost.r = s.tx.ghost.w

/-- In a drained state only the synchronisers change a FIFO. -/
theorem State.Drained.move_fifo (hd : s.Drained) (hs : s.Inv) (hm : m.fromOutside = false)
    (h : move m s = .next t) (f : FifoId) : t.fifo f = m.clocks f (s.fifo f) := by
  obtain he | ⟨-, hne, -⟩ := move_idle_fifo hd.awaits.1 hd.noByte hm h f
  · exact he
  · exact absurd (hs.emptyR_of_drained hd.popped) (by simp [hne])

section FairRun

variable {σ : Nat → State} {a : Nat → Move} {k : Nat}

theorem FairRun.move_eq (hf : FairRun σ a) (k : Nat) : move (a k) (σ k) = .next (σ (k + 1)) := by
  obtain ⟨-, hnext, -⟩ := hf
  exact hnext k

/-- From `n` on the foreground has no next command and nothing arrives (R163). -/
structure StopsAt (σ : Nat → State) (a : Nat → Move) (n : Nat) : Prop where
  awaits : (σ n).awaitsNothing
  moves : ∀ m, n ≤ m → (a m).fromOutside = false

variable (h0 : (σ 0).RunInv) (hf : FairRun σ a) (hn : StopsAt σ a n)
include hf hn

theorem StopsAt.eventually_awaits :
    ∀ᶠ m in atTop, (a m).fromOutside = false ∧ (σ m).awaitsNothing := by
  refine Filter.eventually_atTop.mpr ⟨n, fun m hm => ⟨hn.moves m hm, ?_⟩⟩
  induction m, hm using Nat.le_induction with
  | base => exact hn.awaits
  | succ m hm ih => exact move_keeps_awaitsNothing ih (hn.moves m hm) (hf.move_eq m)

include h0

/-- A waiting byte requests the interrupt, and the invocation takes it (41_transport.md R104). -/
theorem StopsAt.eventually_no_byte : ∀ᶠ m in atTop, (σ m).dev.rxReady = false := by
  refine eventually_of_step ?_ (Filter.frequently_atTop.mpr fun k => ?_)
  · filter_upwards [hn.eventually_awaits hf] with m ⟨hm, _⟩
    exact move_keeps_no_byte hm (hf.move_eq m)
  · by_contra hno
    push Not at hno
    have htrig (m : Nat) (hm : k ≤ m) : triggeredRx (σ m) = true := by
      obtain ⟨-, -, hrxEn, -⟩ := hf.runInv h0 m
      rw [triggeredRx, hrxEn, Bool.and_true]
      exact eq_true_of_ne_false (hno m hm)
    obtain ⟨-, -, -, -, hirq, -⟩ := id hf
    obtain ⟨m, hm, ha⟩ := hirq k fun m hm => by rw [irq, htrig m hm, Bool.or_true]
    have hdone : triggeredRx (σ (m + 1)) = false := irqStep_triggeredRx (ha ▸ hf.move_eq m)
    exact absurd (htrig (m + 1) (by omega)) (by simp [hdone])

/-- Once no byte waits nothing more is put, and all that was put is popped. -/
theorem StopsAt.eventually_drained : ∀ᶠ m in atTop, (σ m).Drained := by
  have hidle := (hn.eventually_awaits hf).and (hn.eventually_no_byte h0 hf)
  obtain ⟨k, hk⟩ := Filter.eventually_atTop.mp hidle
  have hw (m : Nat) (hm : k ≤ m) : (σ m).tx.ghost.w = (σ k).tx.ghost.w := by
    induction m, hm using Nat.le_induction with
    | base => rfl
    | succ m hm ih =>
      obtain ⟨⟨hout, haw⟩, hrx⟩ := hk m hm
      exact (move_idle_w haw.1 hrx hout (hf.move_eq m)).trans ih
  obtain ⟨j, hkj, hj⟩ := hf.eventually_popped h0 le_rfl (Nat.le_add_left (σ k).tx.ghost.w _)
  refine Filter.eventually_atTop.mpr ⟨j, fun m hm => ?_⟩
  obtain ⟨⟨-, haw⟩, hrx⟩ := hk m (hkj.trans hm)
  refine ⟨haw, hrx, le_antisymm (hf.runInv h0 m).1.r_le_w ?_⟩
  calc (σ m).tx.ghost.w = (σ k).tx.ghost.w := hw m (hkj.trans hm)
    _ ≤ (σ j).tx.ghost.r := hj
    _ ≤ (σ m).tx.ghost.r := (hf.progress h0 hm).r

/-- From some state on only the synchronisers change the FIFOs. -/
theorem StopsAt.eventually_only_clocked (f : FifoId) :
    ∀ᶠ m in atTop, (σ (m + 1)).fifo f = (a m).clocks f ((σ m).fifo f) := by
  filter_upwards [hn.eventually_awaits hf, hn.eventually_drained h0 hf] with m ⟨hout, _⟩ hd
  exact hd.move_fifo (hf.runInv h0 m).1 hout (hf.move_eq m) f

/-- The cursors stand still, so both stages on each side come to hold them. -/
theorem StopsAt.eventually_settled (f : FifoId) : ∀ᶠ m in atTop, ((σ m).fifo f).settled := by
  have hfifo := hn.eventually_only_clocked h0 hf f
  have hcursors : ∀ᶠ m in atTop, ((σ (m + 1)).fifo f).wgray = ((σ m).fifo f).wgray ∧
      ((σ (m + 1)).fifo f).rgray = ((σ m).fifo f).rgray := by
    filter_upwards [hfifo] with m hm
    obtain ⟨hw, hr, -⟩ := (a m).clocks_frame f ((σ m).fifo f)
    rw [hm]; exact ⟨hw, hr⟩
  obtain ⟨-, -, hw2r, hr2w, -, -⟩ := hf
  have hread : ∀ᶠ m in atTop, ((σ m).fifo f).rq1 = ((σ m).fifo f).wgray ∧
      ((σ m).fifo f).rq2 = ((σ m).fifo f).wgray := by
    refine stages_settle (hcursors.mono fun _ h => h.1) (hfifo.mono fun m hm hc => ?_)
      (hfifo.mono fun m hm hc => ?_) (Filter.frequently_atTop.mpr (hw2r f))
    · rw [hm, hc, Move.clocks_syncW2R]; exact ⟨rfl, rfl⟩
    · rw [hm]; exact Move.clocks_readStages hc
  have hwrite : ∀ᶠ m in atTop, ((σ m).fifo f).wq1 = ((σ m).fifo f).rgray ∧
      ((σ m).fifo f).wq2 = ((σ m).fifo f).rgray := by
    refine stages_settle (hcursors.mono fun _ h => h.2) (hfifo.mono fun m hm hc => ?_)
      (hfifo.mono fun m hm hc => ?_) (Filter.frequently_atTop.mpr (hr2w f))
    · rw [hm, hc, Move.clocks_syncR2W]; exact ⟨rfl, rfl⟩
    · rw [hm]; exact Move.clocks_writeStages hc
  filter_upwards [hread, hwrite] with m ⟨h1, h2⟩ ⟨h3, h4⟩
  exact ⟨h1, h2, h3, h4⟩

/-- In a drained and settled run only the request is left; the invocation that answers it finds TX
empty and masks (42_interrupt_mask.md R112). -/
theorem StopsAt.eventually_quiescent : ∀ᶠ m in atTop, (σ m).Quiescent := by
  have hdrained := hn.eventually_drained h0 hf
  have hquiet : ∀ᶠ m in atTop,
      irq (σ m) = false → (σ m).dev.txReady = true → (σ m).Quiescent := by
    filter_upwards [hdrained, hn.eventually_settled h0 hf .tx, hn.eventually_settled h0 hf .rx]
      with m hd htx hrx hirq hready
    exact ⟨hd.awaits, hirq, hready, htx, hrx⟩
  refine eventually_of_step ?_ (Filter.frequently_atTop.mpr fun k => ?_)
  · filter_upwards [hn.eventually_awaits hf] with m ⟨hout, _⟩ hq
    exact hq.afterMove (hf.runInv h0 m).1 hout (hf.move_eq m)
  · obtain ⟨j, hj⟩ := Filter.eventually_atTop.mp (hdrained.and hquiet)
    by_contra hno
    push Not at hno
    obtain ⟨m, hm, ha, hready⟩ := hf.eventually_invoked (k := max j k) fun m hm hr =>
      eq_true_of_ne_false fun h => hno m (by omega) ((hj m (by omega)).2 h hr)
    have hstep : move (.agent .irq) (σ m) = .next (σ (m + 1)) := ha ▸ hf.move_eq m
    have hd := (hj m (by omega)).1
    have hirq : irq (σ (m + 1)) = false := (irqStep_irq hstep).resolve_right fun ⟨hrx, _⟩ =>
      absurd (rxReady_of_triggeredRx hrx) (by simp [hd.noByte])
    have he := (hf.runInv h0 m).1.emptyR_of_drained hd.popped
    exact hno (m + 1) (by omega)
      ((hj (m + 1) (by omega)).2 hirq (irqStep_keeps_ready he hstep hready))

end FairRun

/-- Settles O56: `StopsAt.eventually_quiescent`; a quiescent state is masked, because its device is
ready and requests nothing. -/
theorem fairRunsBecomeQuiescent : Obligations.FairRunsBecomeQuiescent := by
  intro σ a n h0 hf haw hmoves
  have hn : StopsAt σ a n := ⟨haw, hmoves⟩
  obtain ⟨k, hk⟩ := Filter.eventually_atTop.mp (hn.eventually_quiescent h0 hf)
  refine ⟨max n k, le_max_left n k, fun m hm => ?_⟩
  have hq := hk m ((le_max_right n k).trans hm)
  exact ⟨hq, hq.txEn⟩
end Sys2Proof.Machine
end
